-- ==== Sys2Proof/Word.lean ====
section
/-! DEFINITION. The word and byte types of the block: a register, a command and a host register access are
32 bits wide (10_state.md section 3, R65), memory is byte-addressed (R43). -/

namespace Sys2Proof

/-- A 32-bit register or command word (R65). -/
abbrev Word := BitVec 32

/-- One byte of memory (R43). -/
abbrev Byte := BitVec 8

end Sys2Proof
end

