-- ==== Sys2Proof/Config.lean ====
section
/-! DEFINITION. The parameters of rule R8, as one record of plain data, and the free values of rules R153, R166
and R171. The record stands in State (its values never change while the machine runs), so that every statement
about every state is a statement about every choice of the parameters. -/

namespace Sys2Proof

/-- `SAMPLE_ENDIAN` (R8, R44): the byte order of every 2-byte sample in memory. -/
inductive Endian where
  | le
  | be
  deriving DecidableEq, Repr

/-- RANGE (R68): code 0 is Limited, code 1 is Full. -/
inductive ColorRange where
  | limited
  | full
  deriving DecidableEq, Repr

/-- One entry of `KRKB` (R8, R100): the code of a non-identity matrix and its pair of exact rationals
`Kr = kr / den`, `Kb = kb / den`, of either sign. -/
structure KrKb where
  code : Nat
  kr : Int
  kb : Int
  den : Nat
  deriving DecidableEq, Repr

/-- A half-open interval `[lo, hi)` of byte addresses. -/
structure AddrRange where
  lo : Nat
  hi : Nat
  deriving DecidableEq, Repr

/-- One point of a `CSC` that is not `CSC_REF` (R104): at this depth, range, resolved code and triple, the
conversion answers `(r, g, b)`. -/
structure CscRow where
  depth : Nat
  range : ColorRange
  mc : Nat
  y : Nat
  u : Nat
  v : Nat
  r : Nat
  g : Nat
  b : Nat
  deriving DecidableEq, Repr

/-- The parameters of rule R8. `MC_SUPPORTED` and `KRKB` are one list: R8 gives a pair for each non-identity code
of `MC_SUPPORTED` and for no other code. `CSC` is `CSC_REF` except at the points `cscRows` lists; the domain of
`CSC` is finite, so every `CSC` of R104 is such a list. `MEM_OK` is false on the bytes of `refused` and true
elsewhere. `devices` are the bytes rule R55 speaks of. -/
structure Params where
  /-- `ADDR_W`, 16 to 32 (R8). -/
  addrW : Nat
  /-- `CSR_BASE`: the platform address of the register window (R8, R57). -/
  csrBase : Nat
  /-- `SAMPLE_ENDIAN` (R8, R44). -/
  endian : Endian
  /-- code 0, Identity, is in `MC_SUPPORTED`. -/
  identity : Bool
  /-- the non-identity codes of `MC_SUPPORTED`, each with its `KRKB` pair. -/
  krkb : List KrKb
  /-- `DEFAULT_MC_COLOR` (R93). -/
  defaultMcColor : Nat
  /-- `DEFAULT_MC_GRAY` (R93). -/
  defaultMcGray : Nat
  /-- the points at which `CSC` is not `CSC_REF` (R104). -/
  cscRows : List CscRow
  /-- the bytes for which `MEM_OK` is false (R56). -/
  refused : List AddrRange
  /-- the bytes that belong to devices whose accesses have side effects (R55). -/
  devices : List AddrRange
  deriving DecidableEq, Repr

/-- The default of every parameter for which R8 gives one, with the `KRKB` table of R100. `CSR_BASE` and `MEM_OK`
are OPEN in R8; window at 0, no refused byte and no device byte are the model's own choice (assumption 2). -/
def Params.default : Params where
  addrW := 32
  csrBase := 0
  endian := .le
  identity := true
  krkb := [⟨1, 2126, 722, 10000⟩, ⟨5, 299, 114, 1000⟩, ⟨6, 299, 114, 1000⟩, ⟨9, 2627, 593, 10000⟩]
  defaultMcColor := 1
  defaultMcGray := 0
  cscRows := []
  refused := []
  devices := []

/-- The byte at address `addr` that draw number `draw` gives (R153, R166, R171): nothing is known of it. -/
opaque Config.freeByte (draw addr : Nat) : Byte

/-- A numerator and a denominator of the quotient of `num / den` by zero: the value R100 leaves without a meaning where
Kg = 0 (assumption 16). Nothing is known of it. -/
opaque Config.quotientByZero (num den : Int) : Int × Int

/-- Which of the values the spec allows a draw takes: the refused byte that ERRINFO names (R153), the old or a new
byte that a load during a command returns (R59). Nothing is known of it. -/
opaque Config.freeIndex (draw : Nat) : Nat

end Sys2Proof
end

