-- ==== Sys2Proof/Machine/State.lean ====
section
/-! DEFINITION. The state the spec gives the machine (10_state.md), as plain data, the reasons a step can stop, and
the state after reset (R167). -/

namespace Sys2Proof.Machine

/-- The error codes of rule R148. Codes 11 to 15 are never produced, so they have no constructor. -/
inductive ErrCode where
  | none
  | invalidChromaFormat
  | unsupportedColorMetadata
  | dimensionMismatch
  | contractViolation
  | illegalCommand
  | invalidDepth
  | invalidImageKind
  | invalidGeometry
  | bufferOverlap
  | memFault
  deriving DecidableEq, Repr

/-- The stage codes of rule R149. Code 7 is reserved, so it has no constructor. -/
inductive StageCode where
  | none
  | validation
  | cu
  | cscColor
  | cscGray
  | ac
  | up
  deriving DecidableEq, Repr

/-- CTRL (R18). Bits 30:2 and SOFT_RESET read 0, so only the two enables are stored. -/
structure Ctrl where
  ieDone : Bool
  ieErr : Bool
  deriving DecidableEq, Repr

/-- STATUS (R19). The reserved bits read 0, so only the fields are stored. -/
structure Status where
  busy : Bool
  done : Bool
  err : Bool
  ovr : Bool
  errCode : ErrCode
  errStage : StageCode
  deriving DecidableEq, Repr

/-- The configuration registers, offsets 0x010 to 0x054 (R21 to R30). -/
structure ConfigRegs where
  cFmt : Word
  cDim : Word
  cYBase : Word
  cUBase : Word
  cVBase : Word
  cYStride : Word
  cCStride : Word
  aFmt : Word
  aDim : Word
  aYBase : Word
  aYStride : Word
  cimgBase : Word
  cimgKind : Word
  aimgBase : Word
  aimgKind : Word
  outBase : Word
  outKind : Word
  deriving DecidableEq, Repr

/-- Memory (R39, R43): pairs of an address and a byte, addresses strictly rising, no byte 0. An unlisted address
reads 0 (assumption 3). -/
abbrev Memory := List Host.Cell

/-- One action of the host on the block's two interfaces (R14, R42): a register access at a platform address and
of a width in bytes, a byte access to memory, or the platform's reset input. -/
inductive HostOp where
  | regWrite (addr bytes : Nat) (value : Word)
  | regRead (addr bytes : Nat)
  | memWrite (addr : Nat) (value : Byte)
  | memRead (addr : Nat)
  | hardReset
  deriving DecidableEq, Repr

/-- Whose step comes next (R14, R138): the block's, or the host's with this action. -/
inductive Turn where
  | block
  | host (op : HostOp)
  deriving DecidableEq, Repr

/-- The whole state. The last five fields are the model's own: `tainted` records the host's violation of rule R171
for the running command, `draws` counts the free values drawn, `readData` is what the host's last read returned,
`agenda` is the scheduler's and the host's choice of the coming steps (R138, R146), and `params` are the parameters
of rule R8, which no step changes. -/
structure State where
  ctrl : Ctrl
  status : Status
  /-- CMD: the last accepted word (R20). -/
  cmd : Word
  cfg : ConfigRegs
  /-- ERRINFO (R31). -/
  errInfo : Word
  /-- `cur`, the accepted word in flight (R36). -/
  cur : Option Word
  /-- `stage`, the stage now running (R36). -/
  stage : StageCode
  /-- the memory shared with the host (R39). -/
  mem : Memory
  tainted : Bool
  draws : Nat
  readData : Word
  agenda : List Turn
  params : Params
  deriving DecidableEq, Repr

/-- Faults: what the spec says does not exist. -/
inductive Fault where
  /-- A host byte access at an address of 2^ADDR_W or above: R43 gives memory no such byte. Raised by the host's
  memory accesses only. Safe: the machine stops where nothing is said to exist. -/
  | addressOutsideMemory
  deriving DecidableEq, Repr

/-- Refusals: what the spec says the model does not accept, or whose effect it leaves to another unit. -/
inductive Refusal where
  /-- An instruction that has no meaning yet: raised by no arm of exec. Safe. -/
  | notModelled (mnemonic : String)
  /-- A register access that is not 32 bits wide at a 4-aligned offset: R34 has the model refuse it. Raised by the
  host's register accesses. Safe. -/
  | registerAccessForm
  /-- A register access at a platform address outside the 4 KiB window (R42): another unit answers it. Raised by
  the host's register accesses. Safe. -/
  | outsideWindow
  /-- A command one of whose regions maps a device with side effects: R55 has the model refuse the launch. Raised
  by the host's write to CMD and by a command's execution. Safe. -/
  | deviceRegion
  /-- A host byte access to a device with side effects: the spec does not say what the device does (R55). Safe. -/
  | hostDeviceAccess
  /-- A host byte access where the platform's memory refuses the byte: R56 says what the block does there, and
  nothing is said of the host. Safe. -/
  | hostMemoryRefused
  deriving DecidableEq, Repr

/-- CTRL after reset (R167). -/
def Ctrl.reset : Ctrl := ⟨false, false⟩

/-- STATUS after reset (R167). -/
def Status.reset : Status := ⟨false, false, false, false, .none, .none⟩

/-- The configuration registers after reset (R167): all 0 but AIMG_KIND, which is 4. -/
def ConfigRegs.reset : ConfigRegs where
  cFmt := 0
  cDim := 0
  cYBase := 0
  cUBase := 0
  cVBase := 0
  cYStride := 0
  cCStride := 0
  aFmt := 0
  aDim := 0
  aYBase := 0
  aYStride := 0
  cimgBase := 0
  cimgKind := 0
  aimgBase := 0
  aimgKind := 4
  outBase := 0
  outKind := 0

/-- The machine right after reset (R167), with the default parameters, memory with nothing listed, and nothing on
the agenda. -/
def State.reset : State where
  ctrl := Ctrl.reset
  status := Status.reset
  cmd := 0
  cfg := ConfigRegs.reset
  errInfo := 0
  cur := none
  stage := .none
  mem := []
  tainted := false
  draws := 0
  readData := 0
  agenda := []
  params := Params.default

end Sys2Proof.Machine
end

