-- ==== Sys2Proof/Machine/Ops.lean ====
section
/-! DEFINITION. The named operations over memory and registers: bytes and samples, and the life of a command, that
is acceptance (R139), completion (R141), failure (R147) and the clearing of an error (R156). -/

namespace Sys2Proof.Machine

/-! ### Memory -/

/-- The byte at an address (R43); 0 where none is listed. -/
def Memory.read : Memory → Nat → Byte
  | [], _ => 0
  | (k, v) :: rest, a => if a = k then v else Memory.read rest a

/-- Listing a nonzero byte at its place in the rising order. -/
def Memory.insert : Memory → Nat → Byte → Memory
  | [], a, v => [(a, v)]
  | (k, w) :: rest, a, v =>
    if a < k then (a, v) :: (k, w) :: rest
    else if a = k then (a, v) :: rest
    else (k, w) :: Memory.insert rest a v

/-- Storing a byte: 0 is stored by listing nothing at the address. -/
def Memory.write (m : Memory) (a : Nat) (v : Byte) : Memory :=
  if v = 0 then m.filter (fun c => c.1 != a) else m.insert a v

/-- Storing bytes one after another. -/
def Memory.writeAll (m : Memory) (cells : List Host.Cell) : Memory :=
  cells.foldl (fun acc c => acc.write c.1 c.2) m

/-- The canonical form: addresses strictly rising, no byte 0 listed. -/
def Memory.wf : Memory → Bool
  | [] => true
  | [(_, v)] => v != 0
  | (k, v) :: (k', v') :: rest => v != 0 && decide (k < k') && Memory.wf ((k', v') :: rest)

/-- Every listed address is below the bound. -/
def Memory.below (m : Memory) (bound : Nat) : Bool := m.all (fun c => decide (c.1 < bound))

/-! ### Samples -/

/-- The size of a sample in memory: 1 or 2 bytes (R44, R51). -/
inductive SampleSize where
  | one
  | two
  deriving DecidableEq, Repr

def SampleSize.bytes : SampleSize → Nat
  | .one => 1
  | .two => 2

/-- `MemRead(addr, n)` (R12, R44). -/
def Memory.readSample (m : Memory) (e : Endian) (size : SampleSize) (a : Nat) : Nat :=
  match size, e with
  | .one, _ => (m.read a).toNat
  | .two, .le => (m.read a).toNat + 256 * (m.read (a + 1)).toNat
  | .two, .be => 256 * (m.read a).toNat + (m.read (a + 1)).toNat

/-- The bytes `MemWrite(addr, n, v)` stores (R12, R44): the low 8n bits of v. -/
def sampleCells (e : Endian) (size : SampleSize) (a v : Nat) : List Host.Cell :=
  match size, e with
  | .one, _ => [(a, BitVec.ofNat 8 v)]
  | .two, .le => [(a, BitVec.ofNat 8 v), (a + 1, BitVec.ofNat 8 (v / 256))]
  | .two, .be => [(a, BitVec.ofNat 8 (v / 256)), (a + 1, BitVec.ofNat 8 v)]

/-- The bytes of consecutive samples from an address on: sample i at `a + i × bps` (R47, R48). -/
def runCells (e : Endian) (size : SampleSize) : Nat → List Nat → List Host.Cell
  | _, [] => []
  | a, v :: rest => sampleCells e size a v ++ runCells e size (a + size.bytes) rest

/-! ### The codes of STATUS -/

/-- The number of an error code (R148). -/
def ErrCode.code : ErrCode → Nat
  | .none => 0
  | .invalidChromaFormat => 1
  | .unsupportedColorMetadata => 2
  | .dimensionMismatch => 3
  | .contractViolation => 4
  | .illegalCommand => 5
  | .invalidDepth => 6
  | .invalidImageKind => 7
  | .invalidGeometry => 8
  | .bufferOverlap => 9
  | .memFault => 10

/-- The number of a stage (R149). -/
def StageCode.code : StageCode → Nat
  | .none => 0
  | .validation => 1
  | .cu => 2
  | .cscColor => 3
  | .cscGray => 4
  | .ac => 5
  | .up => 6

/-! ### The life of a command -/

/-- What `raise E(stage, info)` names (R12, R147). -/
structure Err where
  code : ErrCode
  stage : StageCode
  info : Word
  deriving DecidableEq, Repr

/-- `stage` becomes the stage now running (R36). -/
def State.enterStage (s : State) (k : StageCode) : State := { s with stage := k }

/-- The end of the command in flight, in whichever way (R137): `cur` is empty and no stage runs. -/
def State.endCommand (s : State) : State :=
  { s with status := { s.status with busy := false }, cur := none, stage := .none, tainted := false }

/-- The running stage fails (R147): ERR, ERRCODE, ERRSTAGE and ERRINFO are set, BUSY is cleared, DONE is left. -/
def State.fail (s : State) (code : ErrCode) (info : Word) : State :=
  { s with status := { s.status with err := true, errCode := code, errStage := s.stage }, errInfo := info }.endCommand

/-- `raise E(stage, info)` (R147): taking an exception. Nothing else is saved, no mode changes, no control passes
(R157). -/
def State.raise (s : State) (e : Err) : State := (s.enterStage e.stage).fail e.code e.info

/-- `complete()` (R141). -/
def State.complete (s : State) : State := { s with status := { s.status with done := true } }.endCommand

/-- Clearing ERR clears ERRCODE, ERRSTAGE and ERRINFO with it (R19, R156): the host's return from an error (R158). -/
def State.clearErr (s : State) : State :=
  { s with status := { s.status with err := false, errCode := .none, errStage := .none }, errInfo := 0 }

/-- `accept(w)` (R139). OVR keeps its value. -/
def State.accept (s : State) (w : Word) : State :=
  { s.clearErr with
    cmd := w
    status := { s.clearErr.status with done := false, busy := true }
    cur := some w
    stage := .none
    tainted := false }

/-- The effect of a reset on the registers (R165, R166, R167). -/
def State.resetRegs (s : State) : State :=
  { s with
    ctrl := Ctrl.reset
    status := Status.reset
    cmd := 0
    cfg := ConfigRegs.reset
    errInfo := 0
    cur := none
    stage := .none
    tainted := false }

/-- The next turn is taken off the agenda. -/
def State.popTurn (s : State) : State := { s with agenda := s.agenda.tail }

/-- An ignored write sets OVR (R35). -/
def State.setOvr (s : State) : State := { s with status := { s.status with ovr := true } }

/-! ### Parameters as functions -/

/-- The address lies in the interval. -/
def addrIn (r : AddrRange) (a : Nat) : Bool := decide (r.lo ≤ a) && decide (a < r.hi)

/-- `MEM_OK(addr)` (R8, R56). -/
def memOk (p : Params) (a : Nat) : Bool := !p.refused.any (fun r => addrIn r a)

/-- The byte belongs to a device whose accesses have side effects (R55). -/
def deviceAt (p : Params) (a : Nat) : Bool := p.devices.any (fun r => addrIn r a)

/-- The number of bytes of memory (R43). -/
def memSize (p : Params) : Nat := 2 ^ p.addrW

end Sys2Proof.Machine
end

