-- ==== Sys2Proof/Machine/Operands.lean ====
section
/-! DEFINITION. Every operand of a command (R73): the fields of the format, dimension and kind registers (R67 to
R74), the two frames (R13), and the planes and images in memory (R45 to R48). -/

namespace Sys2Proof.Machine

/-! ### Enumerations -/

/-- The samplings that have chroma planes (R67). -/
inductive Chroma where
  | c444
  | c420
  | c422
  deriving DecidableEq, Repr

/-- SAMPLING (R67). -/
inductive Sampling where
  | mono
  | chroma (c : Chroma)
  deriving DecidableEq, Repr

/-- The sampling a code stands for (R67). All four codes are legal. -/
def samplingOf (code : BitVec 2) : Sampling :=
  if code = 0 then .chroma .c444
  else if code = 1 then .chroma .c420
  else if code = 2 then .chroma .c422
  else .mono

/-- Image kinds (R74). -/
inductive ImageKind where
  | rgb8
  | rgb16
  | rgba8
  | rgba16
  | gray8
  | gray16
  deriving DecidableEq, Repr

/-- The kinds of an AlphaImage (R29, R74). -/
inductive AlphaKind where
  | gray8
  | gray16
  deriving DecidableEq, Repr

/-- The kind a code stands for; 6 and 7 are reserved (R74). -/
def kindOf (code : BitVec 3) : Option ImageKind :=
  if code = 0 then some .rgb8
  else if code = 1 then some .rgb16
  else if code = 2 then some .rgba8
  else if code = 3 then some .rgba16
  else if code = 4 then some .gray8
  else if code = 5 then some .gray16
  else none

def ImageKind.code : ImageKind → Nat
  | .rgb8 => 0
  | .rgb16 => 1
  | .rgba8 => 2
  | .rgba16 => 3
  | .gray8 => 4
  | .gray16 => 5

/-- `ch(kind)` (R74). -/
def ImageKind.channels : ImageKind → Nat
  | .rgb8 | .rgb16 => 3
  | .rgba8 | .rgba16 => 4
  | .gray8 | .gray16 => 1

/-- `bps(kind)` (R74). -/
def ImageKind.size : ImageKind → SampleSize
  | .rgb8 | .rgba8 | .gray8 => .one
  | .rgb16 | .rgba16 | .gray16 => .two

/-- An AlphaImage kind as an image kind. -/
def AlphaKind.image : AlphaKind → ImageKind
  | .gray8 => .gray8
  | .gray16 => .gray16

/-- The kinds legal in AIMG_KIND: 4 and 5 (R29, R74). -/
def alphaKindOf (code : BitVec 3) : Option AlphaKind :=
  if code = 4 then some .gray8 else if code = 5 then some .gray16 else none

/-! ### Register fields -/

/-- SAMPLING, bits 1:0 (R21, R67). -/
def fmtSampling (w : Word) : Sampling := samplingOf (w.extractLsb' 0 2)

/-- RANGE, bit 2 (R21, R68). -/
def fmtRange (w : Word) : ColorRange := if w.getLsbD 2 then .full else .limited

/-- The optional matrix code: MC_PRESENT, bit 3, and MC, bits 11:4 (R21, R69). -/
def fmtMc (w : Word) : Option Nat := if w.getLsbD 3 then some (w.extractLsb' 4 8).toNat else none

/-- DEPTH, bits 20:16 (R21, R70). -/
def fmtDepth (w : Word) : Nat := (w.extractLsb' 16 5).toNat

/-- W, bits 15:0 of a dimension register (R71). -/
def dimW (w : Word) : Nat := (w.extractLsb' 0 16).toNat

/-- H, bits 31:16 of a dimension register (R71). -/
def dimH (w : Word) : Nat := (w.extractLsb' 16 16).toNat

/-- The code in a kind register, bits 2:0 (R74). -/
def kindCode (w : Word) : BitVec 3 := w.extractLsb' 0 3

/-! ### Frames -/

/-- What the registers say of one input frame (R13), and the offset of its format register. -/
structure Frame where
  fmtOffset : Nat
  w : Nat
  h : Nat
  depth : Nat
  sampling : Sampling
  range : ColorRange
  mc : Option Nat
  deriving DecidableEq, Repr

/-- The frame that a format and a dimension register describe. -/
def frameOf (offset : Nat) (fmt dim : Word) : Frame where
  fmtOffset := offset
  w := dimW dim
  h := dimH dim
  depth := fmtDepth fmt
  sampling := fmtSampling fmt
  range := fmtRange fmt
  mc := fmtMc fmt

/-- The color frame C (R21, R22). -/
def State.colorFrame (s : State) : Frame := frameOf 0x010 s.cfg.cFmt s.cfg.cDim

/-- The alpha frame A (R25, R26). -/
def State.alphaFrame (s : State) : Frame := frameOf 0x030 s.cfg.aFmt s.cfg.aDim

/-- The depth selects the 8-bit or the N-bit path (R70, R105). -/
def depthSize (n : Nat) : SampleSize := if n = 8 then .one else .two

/-- DEPTH is one of 8 to 16 (R70). -/
def depthLegal (n : Nat) : Bool := decide (8 ≤ n) && decide (n ≤ 16)

/-- `resolve_mc(F, d)` (R94). -/
def resolveMc (mc : Option Nat) (d : Nat) : Nat :=
  match mc with
  | none => d
  | some m => if m = 2 then d else m

/-! ### Planes -/

/-- A plane (R45). `offset` is that of its base register. -/
structure Plane where
  offset : Nat
  base : Nat
  stride : Nat
  w : Nat
  h : Nat
  size : SampleSize
  deriving DecidableEq, Repr

/-- The address of sample (x, y) (R45). -/
def Plane.addr (p : Plane) (x y : Nat) : Nat := p.base + y * p.stride + x * p.size.bytes

/-- `sample(P, x, y)` (R85). -/
def Plane.sample (p : Plane) (e : Endian) (m : Memory) (x y : Nat) : Nat := m.readSample e p.size (p.addr x y)

/-- The bytes of the samples of a plane. The bytes between rows are not among them (R50). -/
def Plane.touched (p : Plane) : List Nat :=
  (List.range p.h).flatMap fun y => (List.range (p.w * p.size.bytes)).map fun i => p.base + y * p.stride + i

/-- `ceil_half` (R11). -/
def ceilHalf (x : Nat) : Nat := (x + 1) / 2

/-- The width of the chroma planes (R46). -/
def chromaW (c : Chroma) (w : Nat) : Nat :=
  match c with
  | .c444 => w
  | .c422 => ceilHalf w
  | .c420 => ceilHalf w

/-- The height of the chroma planes (R46). -/
def chromaH (c : Chroma) (h : Nat) : Nat :=
  match c with
  | .c444 => h
  | .c422 => h
  | .c420 => ceilHalf h

/-- Y_C (R52). -/
def State.planeYC (s : State) : Plane where
  offset := 0x018
  base := s.cfg.cYBase.toNat
  stride := s.cfg.cYStride.toNat
  w := s.colorFrame.w
  h := s.colorFrame.h
  size := depthSize s.colorFrame.depth

/-- U_C (R52). -/
def State.planeUC (s : State) (c : Chroma) : Plane where
  offset := 0x01C
  base := s.cfg.cUBase.toNat
  stride := s.cfg.cCStride.toNat
  w := chromaW c s.colorFrame.w
  h := chromaH c s.colorFrame.h
  size := depthSize s.colorFrame.depth

/-- V_C (R52). -/
def State.planeVC (s : State) (c : Chroma) : Plane where
  offset := 0x020
  base := s.cfg.cVBase.toNat
  stride := s.cfg.cCStride.toNat
  w := chromaW c s.colorFrame.w
  h := chromaH c s.colorFrame.h
  size := depthSize s.colorFrame.depth

/-- Y_A (R52). -/
def State.planeYA (s : State) : Plane where
  offset := 0x038
  base := s.cfg.aYBase.toNat
  stride := s.cfg.aYStride.toNat
  w := s.alphaFrame.w
  h := s.alphaFrame.h
  size := depthSize s.alphaFrame.depth

/-! ### Images -/

/-- A contiguous row-major buffer of `ch` channels (R47), or a triple buffer with `ch` = 3 (R48). -/
structure Image where
  offset : Nat
  base : Nat
  w : Nat
  h : Nat
  ch : Nat
  size : SampleSize
  deriving DecidableEq, Repr

/-- The address of channel c of pixel number k, which is pixel (k mod W, k div W) (R47). -/
def Image.addr (i : Image) (k c : Nat) : Nat := i.base + (k * i.ch + c) * i.size.bytes

/-- The sample in channel c of pixel number k. -/
def Image.sample (i : Image) (e : Endian) (m : Memory) (k c : Nat) : Nat := m.readSample e i.size (i.addr k c)

/-- The number of pixels. -/
def Image.pixels (i : Image) : Nat := i.w * i.h

/-- The buffer length in bytes (R47). -/
def Image.bytes (i : Image) : Nat := i.w * i.h * i.ch * i.size.bytes

/-- The bytes of an image. -/
def Image.touched (i : Image) : List Nat := (List.range i.bytes).map fun j => i.base + j

/-- The image of a kind at a base (R47). -/
def imageOf (offset : Nat) (base : Word) (f : Frame) (k : ImageKind) : Image where
  offset := offset
  base := base.toNat
  w := f.w
  h := f.h
  ch := k.channels
  size := k.size

/-- CIMG (R28, R52). -/
def State.cimg (s : State) (k : ImageKind) : Image := imageOf 0x040 s.cfg.cimgBase s.colorFrame k

/-- AIMG (R29, R52). -/
def State.aimg (s : State) (k : AlphaKind) : Image := imageOf 0x048 s.cfg.aimgBase s.alphaFrame k.image

/-- OUT (R30, R52). -/
def State.out (s : State) (k : ImageKind) : Image := imageOf 0x050 s.cfg.outBase s.colorFrame k

/-- TRI at OUT_BASE (R48, R90). -/
def State.tri (s : State) : Image where
  offset := 0x050
  base := s.cfg.outBase.toNat
  w := s.colorFrame.w
  h := s.colorFrame.h
  ch := 3
  size := depthSize s.colorFrame.depth

end Sys2Proof.Machine
end

