-- ==== Sys2Proof/Machine/Buffers.lean ====
section
/-! DEFINITION. The regions a command touches (R52), the checks made on them before any access (R49 to R54, R151),
and the running of a command that has passed its checks: its stages in order (R153), completion, MEM_FAULT. -/

namespace Sys2Proof.Machine

/-! ### Regions and their checks -/

/-- A plane or image as the checks of rule R151 see it: `stride` is present for a plane, `written` tells the
regions the command writes from those it only reads. -/
structure Buffer where
  offset : Nat
  base : Nat
  size : SampleSize
  stride : Option Nat
  rowBytes : Nat
  rows : Nat
  written : Bool
  deriving DecidableEq, Repr

/-- A plane as a region that is read. -/
def Plane.buffer (p : Plane) : Buffer where
  offset := p.offset
  base := p.base
  size := p.size
  stride := some p.stride
  rowBytes := p.w * p.size.bytes
  rows := p.h
  written := false

/-- An image as a region, read or written. -/
def Image.buffer (i : Image) (written : Bool) : Buffer where
  offset := i.offset
  base := i.base
  size := i.size
  stride := none
  rowBytes := i.w * i.ch * i.size.bytes
  rows := i.h
  written := written

/-- The region has a byte (R52). -/
def Buffer.nonempty (b : Buffer) : Bool := decide (0 < b.rowBytes) && decide (0 < b.rows)

/-- The end of a nonempty region (R52). -/
def Buffer.stop (b : Buffer) : Nat :=
  match b.stride with
  | some st => b.base + (b.rows - 1) * st + b.rowBytes
  | none => b.base + b.rows * b.rowBytes

/-- The byte lies in the region. -/
def Buffer.has (b : Buffer) (a : Nat) : Bool := b.nonempty && decide (b.base ≤ a) && decide (a < b.stop)

/-- An odd base, or an odd stride of a plane, where samples have 2 bytes (R49). -/
def Buffer.misaligned (b : Buffer) : Bool :=
  decide (b.size = .two) && (decide (b.base % 2 = 1) ||
    (match b.stride with
      | some st => decide (st % 2 = 1)
      | none => false))

/-- A plane whose stride is shorter than its rows (R50). -/
def Buffer.shortStride (b : Buffer) : Bool :=
  match b.stride with
  | some st => decide (st < b.rowBytes)
  | none => false

/-- The condition of INVALID_GEOMETRY (R151), with `limit` = 2^ADDR_W (R53). -/
def Buffer.badGeometry (limit : Nat) (b : Buffer) : Bool :=
  b.nonempty && (b.misaligned || b.shortStride || decide (limit < b.stop))

/-- Two nonempty regions share a byte and the command writes one of them (R54). -/
def Buffer.conflict (b c : Buffer) : Bool :=
  (b.written || c.written) && b.nonempty && c.nonempty && decide (b.base < c.stop) && decide (c.base < b.stop)

/-- Every pair of two members of a list, the earlier one first. -/
def pairsOf {α : Type} : List α → List (α × α)
  | [] => []
  | x :: rest => rest.map (fun y => (x, y)) ++ pairsOf rest

/-- `check_geometry` (R151): the first bad region of the list. A command with one stage lists its regions in the order
of their base-register offsets, FRAME stage by stage (R143). -/
def checkGeometry (limit : Nat) (bufs : List Buffer) : Except Err Unit :=
  match bufs.find? (Buffer.badGeometry limit) with
  | some b => .error ⟨.invalidGeometry, .validation, BitVec.ofNat 32 b.offset⟩
  | none => .ok ()

/-- `check_overlap` (R151), on regions in the order of their base-register offsets: the first conflicting pair is
the one with the least (lower offset, higher offset). -/
def checkOverlap (bufs : List Buffer) : Except Err Unit :=
  match (pairsOf bufs).find? (fun q => q.1.conflict q.2) with
  | some q => .error ⟨.bufferOverlap, .validation,
      BitVec.ofNat 32 q.1.offset ||| (BitVec.ofNat 32 q.2.offset <<< 16)⟩
  | none => .ok ()

/-- Both checks, geometry first (R154): the geometry check on the regions in the order in which a bad one is reported,
the overlap check on the same regions in the order of their offsets. -/
def checkRegions (p : Params) (reported bufs : List Buffer) : Except Err Unit :=
  match checkGeometry (memSize p) reported with
  | .error e => .error e
  | .ok () => checkOverlap bufs

/-- Both checks where bad regions are reported in the order of their offsets (R151, R154). -/
def checkBuffers (p : Params) (bufs : List Buffer) : Except Err Unit := checkRegions p bufs bufs

/-! ### Plans -/

/-- One stage of a running command (R153): the bytes it accesses, and the bytes it stores, both given the memory at
its start. -/
structure Pass where
  stage : StageCode
  touches : Memory → List Nat
  cells : Memory → List Host.Cell

/-- What a command does once its register checks have passed: its regions, its stages in order, and the new values
of the kind registers it writes on success. -/
structure Plan where
  bufs : List Buffer
  passes : List Pass
  cimgKind : Option ImageKind
  aimgKind : Option AlphaKind
  outKind : Option ImageKind

/-- A region maps a device with side effects (R55). -/
def Plan.mapsDevice (p : Plan) (pr : Params) : Bool :=
  p.bufs.any fun b => b.nonempty && pr.devices.any fun r =>
    decide (b.base < r.hi) && decide (r.lo < b.stop) && decide (r.lo < r.hi)

/-- The byte lies in a region the command writes. -/
def Plan.writes (p : Plan) (a : Nat) : Bool := p.bufs.any fun b => b.written && b.has a

/-- The byte lies in a region the command reads or writes. -/
def Plan.uses (p : Plan) (a : Nat) : Bool := p.bufs.any fun b => b.has a

/-- The bytes of the regions the command writes. -/
def Plan.writtenBytes (p : Plan) : List Nat :=
  (p.bufs.filter (fun b => b.written && b.nonempty)).flatMap fun b =>
    (List.range (b.stop - b.base)).map fun j => b.base + j

/-- The bytes of a stage for which `MEM_OK` is false (R56). -/
def Pass.refusedBytes (ps : Pass) (p : Params) (m : Memory) : List Nat := (ps.touches m).filter fun a => !memOk p a

/-- The stages run in order, each on the memory the one before left (R60): the memory at the end, or the first
stage that touches a refused byte, with its refused bytes (R153). -/
def runPasses (p : Params) : List Pass → Memory → Except (StageCode × List Nat) Memory
  | [], m => .ok m
  | ps :: rest, m =>
    match ps.refusedBytes p m with
    | [] => runPasses p rest (m.writeAll (ps.cells m))
    | a :: more => .error (ps.stage, a :: more)

/-- The memories that the stages leave one after another; none where a stage touches a refused byte. -/
def stageMemories (p : Params) : List Pass → Memory → Option (List Memory)
  | [], _ => some []
  | ps :: rest, m =>
    match ps.refusedBytes p m with
    | [] => (stageMemories p rest (m.writeAll (ps.cells m))).map (m.writeAll (ps.cells m) :: ·)
    | _ :: _ => none

/-- Every byte of every region the command writes takes a freely drawn value (R153, R166, R171). -/
def State.scramble (s : State) (p : Plan) : State :=
  { s with
    mem := s.mem.writeAll (p.writtenBytes.map fun a => (a, Config.freeByte s.draws a))
    draws := s.draws + 1 }

/-- The kind registers a successful command writes. -/
def ConfigRegs.withKinds (c : ConfigRegs) (p : Plan) : ConfigRegs :=
  { c with
    cimgKind := match p.cimgKind with | some k => BitVec.ofNat 32 k.code | none => c.cimgKind
    aimgKind := match p.aimgKind with | some k => BitVec.ofNat 32 k.image.code | none => c.aimgKind
    outKind := match p.outKind with | some k => BitVec.ofNat 32 k.code | none => c.outKind }

/-- The effect of a command none of whose accesses was refused: its memory, or freely drawn bytes where the host
broke rule R171, and its kind registers. -/
def State.commit (s : State) (p : Plan) (m : Memory) : State :=
  let t := if s.tainted then s.scramble p else { s with mem := m }
  { t with cfg := t.cfg.withKinds p }

/-- A free choice among the members of a list; `other` where it has none. -/
def pickFrom {α : Type} (draw : Nat) (l : List α) (other : α) : α := l.getD (Config.freeIndex draw % l.length) other

/-- Which of the refused bytes ERRINFO names (R153): a free choice among them. -/
def pickRefused (draw : Nat) (bad : List Nat) : Nat := pickFrom draw bad 0

/-- MEM_FAULT (R153). -/
def State.memFault (s : State) (p : Plan) (k : StageCode) (bad : List Nat) : State :=
  ((s.scramble p).enterStage k).fail .memFault (BitVec.ofNat 32 (pickRefused s.draws bad))

/-- The execution step of a command that has passed its register checks (R138). -/
def State.perform (s : State) (p : Plan) : Host.Outcome State Fault Refusal :=
  if p.mapsDevice s.params then .refused .deviceRegion
  else match runPasses s.params p.passes s.mem with
    | .error (k, bad) => .next (s.memFault p k bad)
    | .ok m => .next (s.commit p m).complete

/-- The execution step of a command: the error its checks found (R147, R152), or its effect. -/
def runPlan (r : Except Err Plan) (s : State) : Host.Outcome State Fault Refusal :=
  match r with
  | .error e => .next (s.raise e)
  | .ok p => s.perform p

/-! ### Checks on a frame -/

/-- INVALID_DEPTH (R70, R150), with the DEPTH and the format register's offset as its info (R148). -/
def checkDepth (f : Frame) (k : StageCode) : Except Err Unit :=
  if depthLegal f.depth then .ok ()
  else .error ⟨.invalidDepth, k, BitVec.ofNat 32 f.depth ||| (BitVec.ofNat 32 f.fmtOffset <<< 16)⟩

/-- INVALID_CHROMA_FORMAT for Monochrome (R83), else the sampling CU runs with. -/
def checkChroma (f : Frame) : Except Err Chroma :=
  match f.sampling with
  | .chroma c => .ok c
  | .mono => .error ⟨.invalidChromaFormat, .cu, 3⟩

end Sys2Proof.Machine
end

