-- ==== Sys2Proof/Machine/ColorMath.lean ====
section
/-! DEFINITION. The arithmetic of CSC: exact fractions, the reference conversion CSC_REF (R96 to R103), the
conversion parameter CSC (R104), the gray function (R106), and the matrices (R94, R95, R100). -/

namespace Sys2Proof.Machine

/-- An exact rational as a fraction (R11); no operation reduces it. -/
structure Frac where
  num : Int
  den : Int
  deriving DecidableEq, Repr

def Frac.add (x y : Frac) : Frac := ⟨x.num * y.den + y.num * x.den, x.den * y.den⟩

def Frac.sub (x y : Frac) : Frac := ⟨x.num * y.den - y.num * x.den, x.den * y.den⟩

def Frac.mul (x y : Frac) : Frac := ⟨x.num * y.num, x.den * y.den⟩

/-- A division; one by zero has a free value (assumption 16). -/
def Frac.div (x y : Frac) : Frac :=
  if y.num = 0 then ⟨(Config.quotientByZero x.num x.den).1, (Config.quotientByZero x.num x.den).2⟩
  else ⟨x.num * y.den, x.den * y.num⟩

/-- A whole number as a fraction. -/
def Frac.whole (n : Int) : Frac := ⟨n, 1⟩

/-- A matrix CSC evaluates: Identity, or one with its (Kr, Kb) pair (R99, R100). -/
inductive Matrix where
  | identity
  | ncl (k : KrKb)
  deriving DecidableEq, Repr

/-- The matrix of a code, none outside `MC_SUPPORTED` (R95). Codes 32 and above are never supported (R33). -/
def matrixOf (p : Params) (mc : Nat) : Option Matrix :=
  if mc = 0 then if p.identity then some .identity else none
  else if mc < 32 then (p.krkb.find? fun k => k.code == mc).map .ncl
  else none

/-- The code is in `MC_SUPPORTED`. -/
def mcSupported (p : Params) (mc : Nat) : Bool := (matrixOf p mc).isSome

/-- UNSUPPORTED_COLOR_METADATA (R95), else the resolved code (R94) and its matrix. -/
def checkMatrix (p : Params) (f : Frame) (d : Nat) (k : StageCode) : Except Err (Nat × Matrix) :=
  let mc := resolveMc f.mc d
  match matrixOf p mc with
  | some m => .ok (mc, m)
  | none => .error ⟨.unsupportedColorMetadata, k,
      BitVec.ofNat 32 (mc % 256) ||| (BitVec.ofNat 32 (if f.range = .full then 1 else 0) <<< 8)⟩

/-- A YUV triple (R82). -/
structure Yuv where
  y : Nat
  u : Nat
  v : Nat
  deriving DecidableEq, Repr

/-- An RGB triple (R91). -/
structure Rgb where
  r : Nat
  g : Nat
  b : Nat
  deriving DecidableEq, Repr

/-- `M_in` (R96). -/
def mIn (n : Nat) : Nat := 2 ^ n - 1

/-- `M_out` (R92). -/
def mOut (n : Nat) : Nat := if n = 8 then 255 else 65535

/-- The input clamp (R96). -/
def clampIn (n : Nat) (t : Yuv) : Yuv := ⟨min t.y (mIn n), min t.u (mIn n), min t.v (mIn n)⟩

/-- The working values (Yn, Pb, Pr) of rules R97 and R98. -/
structure Working where
  yn : Frac
  pb : Frac
  pr : Frac
  deriving DecidableEq, Repr

/-- Denormalization, Full range (R97). -/
def denormFull (n : Nat) (t : Yuv) : Working where
  yn := ⟨t.y, mIn n⟩
  pb := ⟨(t.u : Int) - 2 ^ (n - 1), mIn n⟩
  pr := ⟨(t.v : Int) - 2 ^ (n - 1), mIn n⟩

/-- Denormalization, Limited range (R98). -/
def denormLimited (n : Nat) (t : Yuv) : Working where
  yn := ⟨(t.y : Int) - 16 * 2 ^ (n - 8), 219 * 2 ^ (n - 8)⟩
  pb := ⟨(t.u : Int) - 128 * 2 ^ (n - 8), 224 * 2 ^ (n - 8)⟩
  pr := ⟨(t.v : Int) - 128 * 2 ^ (n - 8), 224 * 2 ^ (n - 8)⟩

/-- Kr, Kb and Kg of a `KRKB` entry (R100). -/
def fracR (k : KrKb) : Frac := ⟨k.kr, k.den⟩
def fracB (k : KrKb) : Frac := ⟨k.kb, k.den⟩
def fracG (k : KrKb) : Frac := ⟨(k.den : Int) - k.kr - k.kb, k.den⟩

/-- Rn (R100). -/
def nclR (k : KrKb) (w : Working) : Frac :=
  w.yn.add (((Frac.whole 2).mul ((Frac.whole 1).sub (fracR k))).mul w.pr)

/-- Bn (R100). -/
def nclB (k : KrKb) (w : Working) : Frac :=
  w.yn.add (((Frac.whole 2).mul ((Frac.whole 1).sub (fracB k))).mul w.pb)

/-- Gn (R100). -/
def nclG (k : KrKb) (w : Working) : Frac :=
  ((w.yn.sub ((fracR k).mul (nclR k w))).sub ((fracB k).mul (nclB k w))).div (fracG k)

/-- Quantization `clamp(floor(t·M + 1/2), 0, M)` (R101): the floor of (2·num·M + den) / (2·den). -/
def quantize (m : Nat) (t : Frac) : Nat :=
  (min (max (Int.fdiv (2 * t.num * m + t.den) (2 * t.den)) 0) m).toNat

/-- CSC_REF (R103). -/
def cscRef (n : Nat) (range : ColorRange) (mx : Matrix) (t : Yuv) : Rgb :=
  let w := match range with
    | .full => denormFull n (clampIn n t)
    | .limited => denormLimited n (clampIn n t)
  match mx with
  | .identity => ⟨quantize (mOut n) w.yn, quantize (mOut n) w.yn, quantize (mOut n) w.yn⟩
  | .ncl k => ⟨quantize (mOut n) (nclR k w), quantize (mOut n) (nclG k w), quantize (mOut n) (nclB k w)⟩

/-- The point of `CSC` that a row lists. -/
def cscRowAt (c : CscRow) (n : Nat) (range : ColorRange) (mc : Nat) (t : Yuv) : Bool :=
  c.depth == n && c.range == range && c.mc == mc && c.y == t.y && c.u == t.u && c.v == t.v

/-- The parameter `CSC` (R104): `CSC_REF` except at the points the parameters list. -/
def csc (p : Params) (n : Nat) (range : ColorRange) (mc : Nat) (mx : Matrix) (t : Yuv) : Rgb :=
  match p.cscRows.find? fun c => cscRowAt c n range mc t with
  | some c => ⟨c.r, c.g, c.b⟩
  | none => cscRef n range mx t

/-- The gray function (R106): the green channel with chroma at the neutral mid value. -/
def gray (p : Params) (n : Nat) (range : ColorRange) (mc : Nat) (mx : Matrix) (y : Nat) : Nat :=
  (csc p n range mc mx ⟨y, 2 ^ (n - 1), 2 ^ (n - 1)⟩).g

end Sys2Proof.Machine
end

