-- ==== Sys2Proof/Machine/Upsampler.lean ====
section
/-! DEFINITION. The chroma upsampler CU and the command UPSAMPLE (40_chroma_upsampler.md). -/

namespace Sys2Proof.Machine

/-- The column of the shared chroma sample (R84). -/
def chromaX (c : Chroma) (x : Nat) : Nat :=
  match c with
  | .c444 => x
  | .c422 => x / 2
  | .c420 => x / 2

/-- The row of the shared chroma sample (R84). -/
def chromaY (c : Chroma) (y : Nat) : Nat :=
  match c with
  | .c444 => y
  | .c422 => y
  | .c420 => y / 2

/-- `upsample(C, x, y)` (R85): the stored container values, unmodified. -/
def upsample (s : State) (m : Memory) (c : Chroma) (x y : Nat) : Yuv where
  y := s.planeYC.sample s.params.endian m x y
  u := (s.planeUC c).sample s.params.endian m (chromaX c x) (chromaY c y)
  v := (s.planeVC c).sample s.params.endian m (chromaX c x) (chromaY c y)

/-- The triple of luma position number k, in row-major order (R82). -/
def upsampleAt (s : State) (m : Memory) (c : Chroma) (k : Nat) : Yuv :=
  upsample s m c (k % s.colorFrame.w) (k / s.colorFrame.w)

/-- CU's output as a run of samples (R48, R82). -/
def tripleSamples (s : State) (c : Chroma) (m : Memory) : List Nat :=
  (List.range (s.colorFrame.w * s.colorFrame.h)).flatMap fun k =>
    [(upsampleAt s m c k).y, (upsampleAt s m c k).u, (upsampleAt s m c k).v]

/-- The bytes of the three planes CU reads. -/
def cuTouches (s : State) (c : Chroma) : List Nat :=
  s.planeYC.touched ++ (s.planeUC c).touched ++ (s.planeVC c).touched

/-- The regions of UPSAMPLE (R52), in the order of their offsets. -/
def upsampleBufs (s : State) (c : Chroma) : List Buffer :=
  [s.planeYC.buffer, (s.planeUC c).buffer, (s.planeVC c).buffer, s.tri.buffer true]

/-- UPSAMPLE's one stage (R153). -/
def upsamplePass (s : State) (c : Chroma) : Pass where
  stage := .cu
  touches := fun _ => cuTouches s c ++ s.tri.touched
  cells := fun m => runCells s.params.endian s.tri.size s.tri.base (tripleSamples s c m)

/-- UPSAMPLE up to its first access (R90). -/
def planUpsample (s : State) : Except Err Plan := do
  checkDepth s.colorFrame .cu
  let c ← checkChroma s.colorFrame
  checkBuffers s.params (upsampleBufs s c)
  return ⟨upsampleBufs s c, [upsamplePass s c], none, none, none⟩

/-- UPSAMPLE (R90). -/
def execUpsample (s : State) : Host.Outcome State Fault Refusal := runPlan (planUpsample s) s

end Sys2Proof.Machine
end

