-- ==== Sys2Proof/Machine/Converter.lean ====
section
/-! DEFINITION. The YUV-to-RGB converter CSC and the commands CONVERT, CONVERT_GRAY and EXTRACT_ALPHA
(41_yuv_to_rgb_converter.md). -/

namespace Sys2Proof.Machine

/-- The kind CONVERT produces (R113). -/
def rgbKind (n : Nat) : ImageKind := if n = 8 then .rgb8 else .rgb16

/-- The kind CONVERT_GRAY and EXTRACT_ALPHA produce (R113). -/
def grayKind (n : Nat) : AlphaKind := if n = 8 then .gray8 else .gray16

/-! ### CONVERT -/

/-- The converted pixel of luma position number k (R110). -/
def convertAt (s : State) (m : Memory) (c : Chroma) (mc : Nat) (mx : Matrix) (k : Nat) : Rgb :=
  csc s.params s.colorFrame.depth s.colorFrame.range mc mx (upsampleAt s m c k)

/-- CONVERT's output as a run of samples (R47). -/
def rgbSamples (s : State) (c : Chroma) (mc : Nat) (mx : Matrix) (m : Memory) : List Nat :=
  (List.range (s.colorFrame.w * s.colorFrame.h)).flatMap fun k =>
    [(convertAt s m c mc mx k).r, (convertAt s m c mc mx k).g, (convertAt s m c mc mx k).b]

/-- The color image CONVERT writes. -/
def State.rgbImage (s : State) : Image := s.cimg (rgbKind s.colorFrame.depth)

/-- The regions of CONVERT (R52), in the order of their offsets. -/
def convertBufs (s : State) (c : Chroma) : List Buffer :=
  [s.planeYC.buffer, (s.planeUC c).buffer, (s.planeVC c).buffer, s.rgbImage.buffer true]

/-- CONVERT's two stages (R153): CU reads the planes, CSC writes the image. -/
def convertPasses (s : State) (c : Chroma) (mc : Nat) (mx : Matrix) : List Pass :=
  [{ stage := .cu, touches := fun _ => cuTouches s c, cells := fun _ => [] },
   { stage := .cscColor
     touches := fun _ => s.rgbImage.touched
     cells := fun m => runCells s.params.endian s.rgbImage.size s.rgbImage.base (rgbSamples s c mc mx m) }]

/-- CONVERT up to its first access (R110). -/
def planConvert (s : State) : Except Err Plan := do
  checkDepth s.colorFrame .cu
  let c ← checkChroma s.colorFrame
  let m ← checkMatrix s.params s.colorFrame s.params.defaultMcColor .cscColor
  checkBuffers s.params (convertBufs s c)
  return ⟨convertBufs s c, convertPasses s c m.1 m.2, some (rgbKind s.colorFrame.depth), none, none⟩

/-- CONVERT (R110). -/
def execConvert (s : State) : Host.Outcome State Fault Refusal := runPlan (planConvert s) s

/-! ### The gray path -/

/-- The gray samples of a frame's luma plane, in row-major order (R106, R111, R112). -/
def graySamples (p : Params) (f : Frame) (luma : Plane) (mc : Nat) (mx : Matrix) (m : Memory) : List Nat :=
  (List.range (f.w * f.h)).map fun k => gray p f.depth f.range mc mx (luma.sample p.endian m (k % f.w) (k / f.w))

/-- The one stage of the gray path (R153): a frame's luma plane becomes a Gray image. -/
def grayPass (p : Params) (f : Frame) (luma : Plane) (dst : Image) (mc : Nat) (mx : Matrix) : Pass where
  stage := .cscGray
  touches := fun _ => luma.touched ++ dst.touched
  cells := fun m => runCells p.endian dst.size dst.base (graySamples p f luma mc mx m)

/-- The Gray image CONVERT_GRAY writes. -/
def State.grayImage (s : State) : Image := s.cimg (grayKind s.colorFrame.depth).image

/-- The AlphaImage EXTRACT_ALPHA writes. -/
def State.alphaImage (s : State) : Image := s.aimg (grayKind s.alphaFrame.depth)

/-- The stage of CONVERT_GRAY. -/
def colorGrayPass (s : State) (mc : Nat) (mx : Matrix) : Pass :=
  grayPass s.params s.colorFrame s.planeYC s.grayImage mc mx

/-- The stage of EXTRACT_ALPHA. -/
def alphaPass (s : State) (mc : Nat) (mx : Matrix) : Pass :=
  grayPass s.params s.alphaFrame s.planeYA s.alphaImage mc mx

/-- The regions of CONVERT_GRAY (R52). -/
def convertGrayBufs (s : State) : List Buffer := [s.planeYC.buffer, s.grayImage.buffer true]

/-- The regions of EXTRACT_ALPHA (R52). -/
def extractAlphaBufs (s : State) : List Buffer := [s.planeYA.buffer, s.alphaImage.buffer true]

/-- CONVERT_GRAY up to its first access (R111). -/
def planConvertGray (s : State) : Except Err Plan := do
  checkDepth s.colorFrame .cscGray
  let m ← checkMatrix s.params s.colorFrame s.params.defaultMcGray .cscGray
  checkBuffers s.params (convertGrayBufs s)
  return ⟨convertGrayBufs s, [colorGrayPass s m.1 m.2], some (grayKind s.colorFrame.depth).image, none, none⟩

/-- CONVERT_GRAY (R111). -/
def execConvertGray (s : State) : Host.Outcome State Fault Refusal := runPlan (planConvertGray s) s

/-- EXTRACT_ALPHA up to its first access (R112). -/
def planExtractAlpha (s : State) : Except Err Plan := do
  checkDepth s.alphaFrame .cscGray
  let m ← checkMatrix s.params s.alphaFrame s.params.defaultMcGray .cscGray
  checkBuffers s.params (extractAlphaBufs s)
  return ⟨extractAlphaBufs s, [alphaPass s m.1 m.2], none, some (grayKind s.alphaFrame.depth), none⟩

/-- EXTRACT_ALPHA (R112). -/
def execExtractAlpha (s : State) : Host.Outcome State Fault Refusal := runPlan (planExtractAlpha s) s

end Sys2Proof.Machine
end

