-- ==== Sys2Proof/Machine/Compositor.lean ====
section
/-! DEFINITION. The alpha compositor AC and the command COMPOSITE (42_alpha_compositor.md). -/

namespace Sys2Proof.Machine

/-- `widen(v)` (R116). -/
def widen (v : Nat) : Nat := (v <<< 8) ||| v

/-- A row of the compositing table: its result kind and its pixel function, from the color pixel's channels and the
alpha sample to the channels R, G, B, A. -/
structure Composition where
  result : ImageKind
  pixel : (Nat → Nat) → Nat → List Nat

/-- The compositing table (R123). Rows 6 to 8 have no result (R121, R122). -/
def compositeRow : ImageKind → AlphaKind → Option Composition
  | .rgb8, .gray8 => some ⟨.rgba8, fun c a => [c 0, c 1, c 2, a]⟩
  | .rgb8, .gray16 => some ⟨.rgba16, fun c a => [widen (c 0), widen (c 1), widen (c 2), a]⟩
  | .rgb16, .gray8 => some ⟨.rgba16, fun c a => [c 0, c 1, c 2, widen a]⟩
  | .rgb16, .gray16 => some ⟨.rgba16, fun c a => [c 0, c 1, c 2, a]⟩
  | .rgba8, .gray8 => some ⟨.rgba8, fun c a => [c 0, c 1, c 2, a]⟩
  | .rgba8, .gray16 => none
  | .rgba16, .gray8 => none
  | .rgba16, .gray16 => none
  | .gray8, .gray8 => some ⟨.rgba8, fun c a => [c 0, c 0, c 0, a]⟩
  | .gray8, .gray16 => some ⟨.rgba16, fun c a => [widen (c 0), widen (c 0), widen (c 0), a]⟩
  | .gray16, .gray8 => some ⟨.rgba16, fun c a => [c 0, c 0, c 0, widen a]⟩
  | .gray16, .gray16 => some ⟨.rgba16, fun c a => [c 0, c 0, c 0, a]⟩

/-! ### Checks -/

/-- INVALID_IMAGE_KIND's info: the register's offset and its value (R119, R148). -/
def kindInfo (offset : Nat) (code : BitVec 3) : Word := code.setWidth 32 ||| (BitVec.ofNat 32 offset <<< 16)

/-- CIMG_KIND holds a legal kind (R119). -/
def checkCimgKind (s : State) : Except Err ImageKind :=
  match kindOf (kindCode s.cfg.cimgKind) with
  | some k => .ok k
  | none => .error ⟨.invalidImageKind, .ac, kindInfo 0x044 (kindCode s.cfg.cimgKind)⟩

/-- AIMG_KIND holds Gray8 or Gray16 (R119). -/
def checkAimgKind (s : State) : Except Err AlphaKind :=
  match alphaKindOf (kindCode s.cfg.aimgKind) with
  | some k => .ok k
  | none => .error ⟨.invalidImageKind, .ac, kindInfo 0x04C (kindCode s.cfg.aimgKind)⟩

/-- DIMENSION_MISMATCH (R120). -/
def checkDims (s : State) : Except Err Unit :=
  if s.colorFrame.w = s.alphaFrame.w ∧ s.colorFrame.h = s.alphaFrame.h then .ok ()
  else .error ⟨.dimensionMismatch, .ac, s.cfg.aDim⟩

/-- CONTRACT_VIOLATION (R121, R122), else the row of the table. -/
def checkRow (ck : ImageKind) (ak : AlphaKind) : Except Err Composition :=
  match compositeRow ck ak with
  | some row => .ok row
  | none => .error ⟨.contractViolation, .ac,
      BitVec.ofNat 32 ck.code ||| (BitVec.ofNat 32 ak.image.code <<< 4)⟩

/-! ### Stages -/

/-- COMPOSITE without alpha (R118): a byte-for-byte copy. -/
def copyPass (src dst : Image) : Pass where
  stage := .ac
  touches := fun _ => src.touched ++ dst.touched
  cells := fun m => (List.range src.bytes).map fun j => (dst.base + j, m.read (src.base + j))

/-- The composited image as a run of samples (R123). -/
def blendSamples (e : Endian) (color alpha : Image) (row : Composition) (m : Memory) : List Nat :=
  (List.range color.pixels).flatMap fun k => row.pixel (color.sample e m k) (alpha.sample e m k 0)

/-- COMPOSITE with alpha (R123). -/
def blendPass (e : Endian) (color alpha dst : Image) (row : Composition) : Pass where
  stage := .ac
  touches := fun _ => color.touched ++ alpha.touched ++ dst.touched
  cells := fun m => runCells e dst.size dst.base (blendSamples e color alpha row m)

/-! ### COMPOSITE -/

/-- The regions of COMPOSITE with A = 0 (R52). -/
def copyBufs (s : State) (ck : ImageKind) : List Buffer := [(s.cimg ck).buffer false, (s.out ck).buffer true]

/-- The regions of COMPOSITE with A = 1 (R52), in the order of their offsets. -/
def blendBufs (s : State) (ck : ImageKind) (ak : AlphaKind) (rk : ImageKind) : List Buffer :=
  [(s.cimg ck).buffer false, (s.aimg ak).buffer false, (s.out rk).buffer true]

/-- COMPOSITE with A = 0 up to its first access (R127). -/
def planCopy (s : State) : Except Err Plan := do
  let ck ← checkCimgKind s
  checkBuffers s.params (copyBufs s ck)
  return ⟨copyBufs s ck, [copyPass (s.cimg ck) (s.out ck)], none, none, some ck⟩

/-- COMPOSITE with A = 1 up to its first access (R127). -/
def planBlend (s : State) : Except Err Plan := do
  let ck ← checkCimgKind s
  let ak ← checkAimgKind s
  checkDims s
  let row ← checkRow ck ak
  checkBuffers s.params (blendBufs s ck ak row.result)
  return ⟨blendBufs s ck ak row.result,
    [blendPass s.params.endian (s.cimg ck) (s.aimg ak) (s.out row.result) row], none, none, some row.result⟩

/-- COMPOSITE up to its first access (R127). -/
def planComposite (a : Bool) (s : State) : Except Err Plan := if a then planBlend s else planCopy s

/-- COMPOSITE(A) (R127). -/
def execComposite (a : Bool) (s : State) : Host.Outcome State Fault Refusal := runPlan (planComposite a s) s

end Sys2Proof.Machine
end

