-- ==== Sys2Proof/Machine/Unpremultiply.lean ====
section
/-! DEFINITION. The unpremultiply stage UP and the command UNPREMULTIPLY (43_unpremultiply_stage.md). -/

namespace Sys2Proof.Machine

/-- `rhu(n, d)`, round half up of n/d (R11). -/
def rhu (n d : Nat) : Nat := (2 * n + d) / (2 * d)

/-- MAX of an Rgba image (R129). -/
def sampleMax (size : SampleSize) : Nat :=
  match size with
  | .one => 255
  | .two => 65535

/-- `unpremul(v, a)` for a ≠ 0 (R129). -/
def unpremul (max v a : Nat) : Nat := min max (rhu (v * max) a)

/-- The bytes of one sample. -/
def sampleBytes (size : SampleSize) (a : Nat) : List Nat := (List.range size.bytes).map fun j => a + j

/-- The bytes UP accesses in pixel number k (R135): those of its alpha, and those of R, G and B where the alpha is
not 0. DESIGN CHOICE (assumption 9): where memory refuses the alpha's own bytes, the value memory lists there decides
whether the color bytes are among the bytes this stage touches, and so among those ERRINFO may name: R135 ends at the
failed alpha read, R153's table names all of OUT. -/
def unpremulTouches (e : Endian) (img : Image) (m : Memory) (k : Nat) : List Nat :=
  sampleBytes img.size (img.addr k 3) ++
    (if img.sample e m k 3 = 0 then []
     else (List.range 3).flatMap fun c => sampleBytes img.size (img.addr k c))

/-- The bytes UP stores in pixel number k (R130, R131, R135). -/
def unpremulCells (e : Endian) (img : Image) (m : Memory) (k : Nat) : List Host.Cell :=
  if img.sample e m k 3 = 0 then []
  else (List.range 3).flatMap fun c =>
    sampleCells e img.size (img.addr k c) (unpremul (sampleMax img.size) (img.sample e m k c) (img.sample e m k 3))

/-- UP's one stage, in place (R135). -/
def unpremulPass (e : Endian) (img : Image) : Pass where
  stage := .up
  touches := fun m => (List.range img.pixels).flatMap fun k => unpremulTouches e img m k
  cells := fun m => (List.range img.pixels).flatMap fun k => unpremulCells e img m k

/-- OUT_KIND holds Rgba8 or Rgba16 (R135). -/
def checkOutKind (s : State) : Except Err ImageKind :=
  match kindOf (kindCode s.cfg.outKind) with
  | some .rgba8 => .ok .rgba8
  | some .rgba16 => .ok .rgba16
  | _ => .error ⟨.invalidImageKind, .up, kindInfo 0x054 (kindCode s.cfg.outKind)⟩

/-- The one region of UNPREMULTIPLY (R52). -/
def unpremulBufs (s : State) (k : ImageKind) : List Buffer := [(s.out k).buffer true]

/-- UNPREMULTIPLY up to its first access (R135). With one region there is no pair to overlap. -/
def planUnpremultiply (s : State) : Except Err Plan := do
  let k ← checkOutKind s
  checkGeometry (memSize s.params) (unpremulBufs s k)
  return ⟨unpremulBufs s k, [unpremulPass s.params.endian (s.out k)], none, none, none⟩

/-- UNPREMULTIPLY (R135). -/
def execUnpremultiply (s : State) : Host.Outcome State Fault Refusal := runPlan (planUnpremultiply s) s

end Sys2Proof.Machine
end

