-- ==== Sys2Proof/Machine/Control.lean ====
section
/-! DEFINITION. The commands NOP and FRAME (44_frame_and_control.md). -/

namespace Sys2Proof.Machine

/-- NOP (R140): `complete()`. -/
def execNop (s : State) : Host.Outcome State Fault Refusal := .next s.complete

/-! ### FRAME -/

/-- The kind of FRAME's color image (R142). -/
def frameColorKind (f : Frame) : ImageKind :=
  match f.sampling with
  | .mono => (grayKind f.depth).image
  | .chroma _ => rgbKind f.depth

/-- The alpha side of a FRAME with A = 1: what the checks of stages S1 and S3 found. -/
structure FrameAlpha where
  mc : Nat
  matrix : Matrix
  row : Composition

/-- S2 (R142): the gray form for a Monochrome frame, else the color form. -/
def frameColorPasses (s : State) (mc : Nat) (mx : Matrix) : List Pass :=
  match s.colorFrame.sampling with
  | .mono => [colorGrayPass s mc mx]
  | .chroma c => convertPasses s c mc mx

/-- The color image FRAME writes and reads. -/
def State.frameCimg (s : State) : Image := s.cimg (frameColorKind s.colorFrame)

/-- FRAME's stages with A = 0: S2 and S3 (R142, R145). -/
def framePlainPasses (s : State) (mc : Nat) (mx : Matrix) : List Pass :=
  frameColorPasses s mc mx ++ [copyPass s.frameCimg (s.out (frameColorKind s.colorFrame))]

/-- FRAME's stages with A = 1: S1, S2, S3, and S4 where P = 1 (R142, R145). -/
def frameAlphaPasses (s : State) (p : Bool) (mc : Nat) (mx : Matrix) (al : FrameAlpha) : List Pass :=
  [alphaPass s al.mc al.matrix] ++ frameColorPasses s mc mx ++
    [blendPass s.params.endian s.frameCimg s.alphaImage (s.out al.row.result) al.row] ++
    (if p then [unpremulPass s.params.endian (s.out al.row.result)] else [])

/-- The planes of FRAME's color frame (R52). -/
def framePlaneBufs (s : State) : List Buffer :=
  match s.colorFrame.sampling with
  | .mono => [s.planeYC.buffer]
  | .chroma c => [s.planeYC.buffer, (s.planeUC c).buffer, (s.planeVC c).buffer]

/-- The regions of FRAME with A = 0 (R52), in the order of their offsets. -/
def framePlainBufs (s : State) : List Buffer :=
  framePlaneBufs s ++ [s.frameCimg.buffer true, (s.out (frameColorKind s.colorFrame)).buffer true]

/-- The regions of FRAME with A = 1 (R52), in the order of their offsets. -/
def frameAlphaBufs (s : State) (rk : ImageKind) : List Buffer :=
  framePlaneBufs s ++
    [s.planeYA.buffer, s.frameCimg.buffer true, s.alphaImage.buffer true, (s.out rk).buffer true]

/-- The regions of FRAME with A = 1 in the order in which a bad one is reported: the stages S1, S2 and S3 in order
(R143, R154), and within a stage by offset (R154); each region stands with the first stage that has it (R153).
DEDUCED (assumption 19): R151 speaks of one list sorted by offset. -/
def frameAlphaByStage (s : State) (rk : ImageKind) : List Buffer :=
  [s.planeYA.buffer, s.alphaImage.buffer true] ++
    (framePlaneBufs s ++ [s.frameCimg.buffer true]) ++
    [(s.out rk).buffer true]

/-- The stage that FRAME's color depth is checked for (R143). -/
def frameDepthStage (f : Frame) : StageCode :=
  match f.sampling with
  | .mono => .cscGray
  | .chroma _ => .cu

/-- The matrix check of S2 (R143). -/
def checkFrameMatrix (s : State) : Except Err (Nat × Matrix) :=
  match s.colorFrame.sampling with
  | .mono => checkMatrix s.params s.colorFrame s.params.defaultMcGray .cscGray
  | .chroma _ => checkMatrix s.params s.colorFrame s.params.defaultMcColor .cscColor

/-- FRAME with A = 0 up to its first access (R142, R143). -/
def planFramePlain (s : State) : Except Err Plan := do
  checkDepth s.colorFrame (frameDepthStage s.colorFrame)
  let m ← checkFrameMatrix s
  checkBuffers s.params (framePlainBufs s)
  return ⟨framePlainBufs s, framePlainPasses s m.1 m.2, some (frameColorKind s.colorFrame), none,
    some (frameColorKind s.colorFrame)⟩

/-- FRAME with A = 1 up to its first access (R142, R143). The row check never fails here: the color kind is never
Rgba. -/
def planFrameAlpha (p : Bool) (s : State) : Except Err Plan := do
  checkDepth s.alphaFrame .cscGray
  checkDepth s.colorFrame (frameDepthStage s.colorFrame)
  let ma ← checkMatrix s.params s.alphaFrame s.params.defaultMcGray .cscGray
  let m ← checkFrameMatrix s
  checkDims s
  let row ← checkRow (frameColorKind s.colorFrame) (grayKind s.alphaFrame.depth)
  checkRegions s.params (frameAlphaByStage s row.result) (frameAlphaBufs s row.result)
  return ⟨frameAlphaBufs s row.result, frameAlphaPasses s p m.1 m.2 ⟨ma.1, ma.2, row⟩,
    some (frameColorKind s.colorFrame), some (grayKind s.alphaFrame.depth), some row.result⟩

/-- FRAME up to its first access (R143). -/
def planFrame (a p : Bool) (s : State) : Except Err Plan := if a then planFrameAlpha p s else planFramePlain s

/-- FRAME(A, P) (R142). -/
def execFrame (a p : Bool) (s : State) : Host.Outcome State Fault Refusal := runPlan (planFrame a p s) s

end Sys2Proof.Machine
end

