-- ==== Sys2Proof/Syntax.lean ====
section
/-! DEFINITION. The eight commands of the opcode map (R66), and the fields of a command word (R65). -/

namespace Sys2Proof

/-- One constructor for each row of spec/opcode_table.json (R66). `alpha` is bit A, `premul` bit P (R73). -/
inductive Instr where
  | nop
  | upsample
  | convert
  | convertGray
  | extractAlpha
  | composite (alpha : Bool)
  | unpremultiply
  | frame (alpha premul : Bool)
  deriving DecidableEq, Repr

/-- The fields of the one format CMD32 (R65): OP is bits 3:0, A bit 4, P bit 5, RES bits 31:6. -/
structure Fields where
  op : BitVec 4
  a : Bool
  p : Bool
  res : BitVec 26
  deriving DecidableEq, Repr

end Sys2Proof
end

