-- ==== Sys2Proof/Machine/Dispatch.lean ====
section
/-! DEFINITION. One arm per command (R66). -/

namespace Sys2Proof.Machine

def exec (i : Instr) (s : State) : Host.Outcome State Fault Refusal :=
  match i with
  | .nop => Sys2Proof.Machine.execNop s
  | .upsample => Sys2Proof.Machine.execUpsample s
  | .convert => Sys2Proof.Machine.execConvert s
  | .convertGray => Sys2Proof.Machine.execConvertGray s
  | .extractAlpha => Sys2Proof.Machine.execExtractAlpha s
  | .composite a => Sys2Proof.Machine.execComposite a s
  | .unpremultiply => Sys2Proof.Machine.execUnpremultiply s
  | .frame a p => Sys2Proof.Machine.execFrame a p s

end Sys2Proof.Machine
end

