-- ==== Sys2Proof/Machine/Flags.lean ====
section
/-! DEFINITION. The flags as software sees them: the STATUS and CTRL words (R18, R19), writing them (R19, R37), and
the interrupt line (R38). -/

namespace Sys2Proof.Machine

/-- The STATUS word (R19): BUSY 0, DONE 1, ERR 2, OVR 3, ERRCODE 11:8, ERRSTAGE 14:12, other bits 0. -/
def Status.word (t : Status) : Word :=
  BitVec.ofNat 32 (t.busy.toNat + 2 * t.done.toNat + 4 * t.err.toNat + 8 * t.ovr.toNat + 256 * t.errCode.code
    + 4096 * t.errStage.code)

/-- The CTRL word (R18): IE_DONE 0, IE_ERR 1, SOFT_RESET and the other bits read 0. -/
def Ctrl.word (c : Ctrl) : Word := BitVec.ofNat 32 (c.ieDone.toNat + 2 * c.ieErr.toNat)

/-- The enables a write to CTRL stores (R18). -/
def Ctrl.ofWord (v : Word) : Ctrl := ⟨v.getLsbD 0, v.getLsbD 1⟩

/-- Writing STATUS (R19): DONE, ERR and OVR are cleared by a 1 and kept by a 0, BUSY and the codes are read-only,
and clearing ERR clears the error fields and ERRINFO. -/
def State.writeStatus (s : State) (v : Word) : State :=
  let t := if v.getLsbD 2 then s.clearErr else s
  { t with status := { t.status with
      done := t.status.done && !v.getLsbD 1
      ovr := t.status.ovr && !v.getLsbD 3 } }

/-- The interrupt output (R38). -/
def irq (s : State) : Bool :=
  (s.status.done && s.ctrl.ieDone) || ((s.status.err || s.status.ovr) && s.ctrl.ieErr)

end Sys2Proof.Machine
end

