-- ==== Sys2Proof/WellFormed.lean ====
section
/-! DEFINITION. What makes a command's fields legal (R75) and what makes a record of parameters one that rules
R8, R33, R100 and R104 admit. -/

namespace Sys2Proof

/-- The opcode is not one of the reserved 0x8 to 0xF (R75). -/
def Fields.opcodeOk (f : Fields) : Bool := f.op.toNat < 8

/-- The reserved bits 31:6 are 0 (R75). -/
def Fields.reservedOk (f : Fields) : Bool := f.res == 0

/-- A is 0 except with COMPOSITE and FRAME (R75). -/
def Fields.alphaOk (f : Fields) : Bool := !f.a || f.op == 5 || f.op == 7

/-- P is 0 except with FRAME (R75). -/
def Fields.premulOk (f : Fields) : Bool := !f.p || f.op == 7

/-- None of the four conditions of rule R75 holds. -/
def Fields.legal (f : Fields) : Bool := f.opcodeOk && f.reservedOk && f.alphaOk && f.premulOk

/-- The fields of a command (R66). -/
def Instr.fields : Instr → Fields
  | .nop => ⟨0, false, false, 0⟩
  | .upsample => ⟨1, false, false, 0⟩
  | .convert => ⟨2, false, false, 0⟩
  | .convertGray => ⟨3, false, false, 0⟩
  | .extractAlpha => ⟨4, false, false, 0⟩
  | .composite a => ⟨5, a, false, 0⟩
  | .unpremultiply => ⟨6, false, false, 0⟩
  | .frame a p => ⟨7, a, p, 0⟩

/-- A command is well formed when its fields are legal. -/
def Instr.wellFormed (i : Instr) : Bool := i.fields.legal

/-- R8: 16 ≤ ADDR_W ≤ 32. -/
def Params.addrWOk (p : Params) : Bool := decide (16 ≤ p.addrW) && decide (p.addrW ≤ 32)

/-- A `KRKB` entry belongs to a non-identity code below 32 (R33), is a pair of rationals (R8), and has
Kg = 1 − Kr − Kb ≠ 0, so that the division of R100 has a meaning (assumption 16). -/
def KrKb.ok (k : KrKb) : Bool :=
  decide (0 < k.code) && decide (k.code < 32) && decide (0 < k.den) && decide (k.kr + k.kb ≠ k.den)

def Params.krkbOk (p : Params) : Bool := p.krkb.all KrKb.ok

/-- A listed point of `CSC` has the properties P1 and P3 to P5 of rule R104 (P2 holds of every list). -/
def CscRow.ok (c : CscRow) : Bool :=
  let mOut := if c.depth = 8 then 255 else 65535
  (decide (c.r ≤ mOut) && decide (c.g ≤ mOut) && decide (c.b ≤ mOut)) &&
  (!(c.depth == 8 && c.range == .full && c.mc == 1 && c.y == 255 && c.u == 128 && c.v == 128) ||
    (c.r == 255 && c.g == 255 && c.b == 255)) &&
  (!(c.depth == 8 && c.range == .full && c.mc == 1 && c.y == 0 && c.u == 128 && c.v == 128) ||
    (c.r == 0 && c.g == 0 && c.b == 0)) &&
  (!(c.mc == 0) || (c.r == c.g && c.g == c.b)) &&
  (!(c.depth == 8 && c.range == .full && c.mc == 0) || c.r == c.y)

def Params.cscOk (p : Params) : Bool := p.cscRows.all CscRow.ok

/-- The parameters are ones the spec admits. -/
def Params.wf (p : Params) : Bool := p.addrWOk && p.krkbOk && p.cscOk

end Sys2Proof
end

