-- ==== Sys2Proof/Decode.lean ====
section
/-! DEFINITION. The decoder of rule R78, total on every 32-bit word and rejecting by name, and after it the encoder
of rules R65 and R66. -/

namespace Sys2Proof

/-- Why a word is illegal: the four conditions of rule R75. -/
inductive DecodeError where
  | reservedBits
  | reservedOpcode
  | alphaBit
  | premulBit
  deriving DecidableEq, Repr

/-- The fields of a word (R65). -/
def fieldsOf (w : Word) : Fields where
  op := w.extractLsb' 0 4
  a := w.getLsbD 4
  p := w.getLsbD 5
  res := w.extractLsb' 6 26

/-- A command that takes neither A nor P (R78). -/
def plain (i : Instr) (a p : Bool) : Except DecodeError Instr :=
  if a then .error .alphaBit else if p then .error .premulBit else .ok i

/-- The decode function of rule R78. -/
def decode (w : Word) : Except DecodeError Instr :=
  let f := fieldsOf w
  if f.res ≠ 0 then .error .reservedBits
  else match f.op.toNat with
    | 0 => plain .nop f.a f.p
    | 1 => plain .upsample f.a f.p
    | 2 => plain .convert f.a f.p
    | 3 => plain .convertGray f.a f.p
    | 4 => plain .extractAlpha f.a f.p
    | 5 => if f.p then .error .premulBit else .ok (.composite f.a)
    | 6 => plain .unpremultiply f.a f.p
    | 7 => .ok (.frame f.a f.p)
    | _ => .error .reservedOpcode

/-- What the decoder reads from an opcode-table word (the host's name): a command is one 32-bit word (R77). -/
def decodeTableWord (nbits w : Nat) : Option Instr :=
  if nbits ≤ 32 then (decode (BitVec.ofNat 32 (w % 2 ^ nbits))).toOption else none

/-- The word whose fields are `f` (R65): RES, P, A and OP from bit 31 down. -/
def Fields.pack (f : Fields) : Word :=
  ((f.res ++ BitVec.ofBool f.p : BitVec 27) ++ (BitVec.ofBool f.a ++ f.op : BitVec 5) : BitVec 32)

/-- The word of a command (R66). -/
def encode (i : Instr) : Word := i.fields.pack

end Sys2Proof
end

