-- ==== Sys2Proof/Machine/Plans.lean ====
section
/-! DEFINITION. The plan of the command in flight: which regions it reads and writes, for the rules about reset,
device regions and host accesses while it runs (R55, R166, R171). -/

namespace Sys2Proof.Machine

/-- The plan of NOP: no region, no stage, no kind register (R140). -/
def planNop : Plan := ⟨[], [], none, none, none⟩

/-- A command up to its first access. -/
def planOf (i : Instr) (s : State) : Except Err Plan :=
  match i with
  | .nop => .ok planNop
  | .upsample => planUpsample s
  | .convert => planConvert s
  | .convertGray => planConvertGray s
  | .extractAlpha => planExtractAlpha s
  | .composite a => planComposite a s
  | .unpremultiply => planUnpremultiply s
  | .frame a p => planFrame a p s

/-- The plan of a command word; none where the word is illegal or a register check fails, since the command then
accesses no memory (R75, R152). -/
def planOfWord (w : Word) (s : State) : Option Plan :=
  match decode w with
  | .error _ => none
  | .ok i => (planOf i s).toOption

/-- The plan of the command in flight. Configuration registers cannot change under it (R35), so it is the plan its
execution step will have. -/
def State.inFlight (s : State) : Option Plan := s.cur.bind fun w => planOfWord w s

/-- A region of the command in flight maps a device (R55). -/
def State.launchMapsDevice (s : State) : Bool :=
  match s.inFlight with
  | some p => p.mapsDevice s.params
  | none => false

/-- The byte is one of a region the command in flight reads or writes (R171). -/
def State.inUse (s : State) (a : Nat) : Bool :=
  match s.inFlight with
  | some p => p.uses a
  | none => false

/-- The byte is one of a region the command in flight writes (R59, R171). -/
def State.inWritten (s : State) (a : Nat) : Bool :=
  match s.inFlight with
  | some p => p.writes a
  | none => false

end Sys2Proof.Machine
end

