-- ==== Sys2Proof/Machine/HostPort.lean ====
section
/-! DEFINITION. The host's side: the register file (R17 to R35), the two resets (R165, R166), and the host's own
accesses to memory (R59, R171). -/

namespace Sys2Proof.Machine

/-! ### The register map -/

/-- The registers by name (10_state.md section 3). -/
inductive Reg where
  | id
  | ctrl
  | status
  | cmd
  | cFmt
  | cDim
  | cYBase
  | cUBase
  | cVBase
  | cYStride
  | cCStride
  | aFmt
  | aDim
  | aYBase
  | aYStride
  | cimgBase
  | cimgKind
  | aimgBase
  | aimgKind
  | outBase
  | outKind
  | errInfo
  | caps
  | mcCaps
  deriving DecidableEq, Repr

/-- The byte offset of a register in the window (10_state.md section 3). -/
def Reg.offset : Reg → Nat
  | .id => 0x000
  | .ctrl => 0x004
  | .status => 0x008
  | .cmd => 0x00C
  | .cFmt => 0x010
  | .cDim => 0x014
  | .cYBase => 0x018
  | .cUBase => 0x01C
  | .cVBase => 0x020
  | .cYStride => 0x024
  | .cCStride => 0x028
  | .aFmt => 0x030
  | .aDim => 0x034
  | .aYBase => 0x038
  | .aYStride => 0x03C
  | .cimgBase => 0x040
  | .cimgKind => 0x044
  | .aimgBase => 0x048
  | .aimgKind => 0x04C
  | .outBase => 0x050
  | .outKind => 0x054
  | .errInfo => 0x058
  | .caps => 0x05C
  | .mcCaps => 0x060

def allRegs : List Reg :=
  [.id, .ctrl, .status, .cmd, .cFmt, .cDim, .cYBase, .cUBase, .cVBase, .cYStride, .cCStride, .aFmt, .aDim, .aYBase,
   .aYStride, .cimgBase, .cimgKind, .aimgBase, .aimgKind, .outBase, .outKind, .errInfo, .caps, .mcCaps]

/-- The register at an offset; none at the reserved offsets (R34). -/
def regAt (offset : Nat) : Option Reg := allRegs.find? fun r => r.offset == offset

/-- ID (R17). -/
def idWord : Word := 0x43550701

/-- CAPS (R32). -/
def capsWord (p : Params) : Word :=
  BitVec.ofNat 32 ((match p.endian with | .le => 0 | .be => 1) + 256 * (p.addrW % 256))

/-- MC_CAPS (R33): bit i is 1 exactly when code i is in `MC_SUPPORTED`. -/
def mcCapsWord (p : Params) : Word :=
  BitVec.ofNat 32 ((List.range 32).foldl (fun acc i => if mcSupported p i then acc + 2 ^ i else acc) 0)

/-- What a register reads as. No read has a side effect (R34). -/
def readReg (r : Reg) (s : State) : Word :=
  match r with
  | .id => idWord
  | .ctrl => s.ctrl.word
  | .status => s.status.word
  | .cmd => s.cmd
  | .cFmt => s.cfg.cFmt
  | .cDim => s.cfg.cDim
  | .cYBase => s.cfg.cYBase
  | .cUBase => s.cfg.cUBase
  | .cVBase => s.cfg.cVBase
  | .cYStride => s.cfg.cYStride
  | .cCStride => s.cfg.cCStride
  | .aFmt => s.cfg.aFmt
  | .aDim => s.cfg.aDim
  | .aYBase => s.cfg.aYBase
  | .aYStride => s.cfg.aYStride
  | .cimgBase => s.cfg.cimgBase
  | .cimgKind => s.cfg.cimgKind
  | .aimgBase => s.cfg.aimgBase
  | .aimgKind => s.cfg.aimgKind
  | .outBase => s.cfg.outBase
  | .outKind => s.cfg.outKind
  | .errInfo => s.errInfo
  | .caps => capsWord s.params
  | .mcCaps => mcCapsWord s.params

/-- The bits a format register stores (R21, R25). -/
def fmtMask (v : Word) : Word := v &&& 0x001F0FFF

/-- The bits a base register stores: bits 31 to ADDR_W are hardwired to 0 (R23). -/
def baseMask (p : Params) (v : Word) : Word := BitVec.ofNat 32 (v.toNat % memSize p)

/-- The bits a kind register stores (R28). -/
def kindMask (v : Word) : Word := v &&& 7

/-- The effect of a write to a configuration register (R21 to R30); none for the other registers. -/
def writeConfig (p : Params) (r : Reg) (v : Word) (c : ConfigRegs) : Option ConfigRegs :=
  match r with
  | .id => none
  | .ctrl => none
  | .status => none
  | .cmd => none
  | .cFmt => some { c with cFmt := fmtMask v }
  | .cDim => some { c with cDim := v }
  | .cYBase => some { c with cYBase := baseMask p v }
  | .cUBase => some { c with cUBase := baseMask p v }
  | .cVBase => some { c with cVBase := baseMask p v }
  | .cYStride => some { c with cYStride := v }
  | .cCStride => some { c with cCStride := v }
  | .aFmt => some { c with aFmt := fmtMask v }
  | .aDim => some { c with aDim := v }
  | .aYBase => some { c with aYBase := baseMask p v }
  | .aYStride => some { c with aYStride := v }
  | .cimgBase => some { c with cimgBase := baseMask p v }
  | .cimgKind => some { c with cimgKind := kindMask v }
  | .aimgBase => some { c with aimgBase := baseMask p v }
  | .aimgKind => some { c with aimgKind := kindMask v }
  | .outBase => some { c with outBase := baseMask p v }
  | .outKind => some { c with outKind := kindMask v }
  | .errInfo => none
  | .caps => none
  | .mcCaps => none

/-! ### Resets -/

/-- The command in flight is aborted (R166): the bytes of the regions it writes take freely drawn values. -/
def State.abort (s : State) : State :=
  match s.inFlight with
  | some p => s.scramble p
  | none => s

/-- A reset, soft or hard (R137, R165, R166): the command in flight is aborted and the registers take their reset
values. -/
def State.doReset (s : State) : State := s.abort.resetRegs

/-! ### Register writes -/

/-- Writing CTRL (R18, R35): bit 31 performs the soft reset, whatever the other bits hold (R166). -/
def writeCtrl (v : Word) (s : State) : State :=
  if v.getLsbD 31 then s.doReset else { s with ctrl := Ctrl.ofWord v }

/-- Writing CMD (R20, R35, R139); a launch over a device region is refused (R55). -/
def writeCmd (v : Word) (s : State) : Host.Outcome State Fault Refusal :=
  if s.status.busy then .next s.setOvr
  else if (s.accept v).launchMapsDevice then .refused .deviceRegion
  else .next (s.accept v)

/-- Writing a register that is neither CTRL, STATUS nor CMD: a configuration register stores its bits, or is
ignored with OVR set while BUSY = 1 (R35); a read-only register ignores the write. -/
def writePlain (r : Reg) (v : Word) (s : State) : State :=
  match writeConfig s.params r v s.cfg with
  | none => s
  | some c => if s.status.busy then s.setOvr else { s with cfg := c }

/-- Writing a register. -/
def writeReg (r : Reg) (v : Word) (s : State) : Host.Outcome State Fault Refusal :=
  match r with
  | .ctrl => .next (writeCtrl v s)
  | .status => .next (s.writeStatus v)
  | .cmd => writeCmd v s
  | r => .next (writePlain r v s)

/-! ### Bus accesses -/

/-- The platform address lies in the 4 KiB register window (R42). -/
def inWindow (p : Params) (addr : Nat) : Bool := decide (p.csrBase ≤ addr) && decide (addr < p.csrBase + 4096)

/-- The access is one of 32 bits at a 4-aligned offset (R34). -/
def accessForm (p : Params) (addr bytes : Nat) : Bool := bytes == 4 && (addr - p.csrBase) % 4 == 0

/-- The host writes a register; a reserved offset ignores the write (R34). -/
def hostRegWrite (addr bytes : Nat) (v : Word) (s : State) : Host.Outcome State Fault Refusal :=
  if !inWindow s.params addr then .refused .outsideWindow
  else if !accessForm s.params addr bytes then .refused .registerAccessForm
  else match regAt (addr - s.params.csrBase) with
    | none => .next s
    | some r => writeReg r v s

/-- The host reads a register; a reserved offset reads 0 (R34). -/
def hostRegRead (addr bytes : Nat) (s : State) : Host.Outcome State Fault Refusal :=
  if !inWindow s.params addr then .refused .outsideWindow
  else if !accessForm s.params addr bytes then .refused .registerAccessForm
  else match regAt (addr - s.params.csrBase) with
    | none => .next { s with readData := 0 }
    | some r => .next { s with readData := readReg r s }

/-- Why a host byte access to memory stops: there is no such byte, a device answers, or the platform refuses. -/
def hostMemStop (p : Params) (a : Nat) : Option (Fault ⊕ Refusal) :=
  if memSize p ≤ a then some (.inl .addressOutsideMemory)
  else if deviceAt p a then some (.inr .hostDeviceAccess)
  else if !memOk p a then some (.inr .hostMemoryRefused)
  else none

/-- The host stores a byte. One in a region of the command in flight breaks rule R171, which is recorded. -/
def hostMemWrite (a : Nat) (v : Byte) (s : State) : Host.Outcome State Fault Refusal :=
  match hostMemStop s.params a with
  | some (.inl f) => .fault f
  | some (.inr r) => .refused r
  | none => .next { s with mem := s.mem.write a v, tainted := s.tainted || s.inUse a }

/-- What a load of a byte in a region the command in flight writes returns (R59 item 4): a free choice of the old
value and of the new ones, those the command's stages leave there. Where the host has disturbed the command (R171) or
memory will refuse an access (R153), the region's bytes are unspecified and so is this one (assumption 14). -/
def State.loadedByte (s : State) (p : Plan) (a : Nat) : Byte :=
  match if s.tainted then none else stageMemories s.params p.passes s.mem with
  | some later => (pickFrom s.draws (s.mem :: later) s.mem).read a
  | none => Config.freeByte s.draws a

/-- The plan of the command in flight, if the byte is one of a region it writes. -/
def State.writerOf (s : State) (a : Nat) : Option Plan := s.inFlight.filter fun p => p.writes a

/-- The host loads a byte: one that the command in flight writes is old or new (R59), any other is the stored one. -/
def hostMemRead (a : Nat) (s : State) : Host.Outcome State Fault Refusal :=
  match hostMemStop s.params a with
  | some (.inl f) => .fault f
  | some (.inr r) => .refused r
  | none =>
    match s.writerOf a with
    | some p => .next { s with readData := (s.loadedByte p a).setWidth 32, draws := s.draws + 1 }
    | none => .next { s with readData := (s.mem.read a).setWidth 32 }

/-- One action of the host. -/
def hostTurn (op : HostOp) (s : State) : Host.Outcome State Fault Refusal :=
  match op with
  | .regWrite addr bytes v => hostRegWrite addr bytes v s
  | .regRead addr bytes => hostRegRead addr bytes s
  | .memWrite a v => hostMemWrite a v s
  | .memRead a => hostMemRead a s
  | .hardReset => .next s.doReset

end Sys2Proof.Machine
end

