-- ==== Sys2Proof/Machine/Fetch.lean ====
section
/-! DEFINITION. The block's turn (R138, R139) and the placing of a command word where the block's turn takes it. -/

namespace Sys2Proof.Machine

/-- The block's turn: it executes the command in flight, raising ILLEGAL_COMMAND for an illegal word (R75, R139);
with none in flight it is idle and waits (R164, R168). -/
def blockTurn (s : State) : Host.Outcome State Fault Refusal :=
  match s.cur with
  | none => .next s
  | some w =>
    match decode w with
    | .error _ => .next (s.raise ⟨.illegalCommand, .validation, w⟩)
    | .ok i => exec i s

/-- One step of whichever agent the agenda names; of the block where it names none. -/
def takeTurn (s : State) : Host.Outcome State Fault Refusal :=
  match s.agenda with
  | [] => blockTurn s
  | .block :: _ => blockTurn s.popTurn
  | .host op :: _ => hostTurn op s.popTurn

/-- The state with a word accepted as the command in flight and the block's turn next: the host's write of CMD
(R139) already made. -/
def placeCommand (s : State) (w : Word) : State := { s.accept w with agenda := .block :: s.agenda }

end Sys2Proof.Machine
end

