-- ==== Sys2Proof/Machine/HostProgram.lean ====
section
/-! DEFINITION. The host syntax of rules R79 and R80 as abstract syntax, and the turns each statement stands for. -/

namespace Sys2Proof.Machine

/-- A statement of rule R79 or a pseudo-instruction of rule R80. A command is given with its A and P suffixes, legal
or not. `polls` is how many of `wait`'s reads see BUSY = 1 before the block's step: the scheduler's choice (R138). -/
inductive Stmt where
  | wr (r : Reg) (imm : Word)
  | rd (r : Reg)
  | cmd (op : BitVec 4) (a p : Bool)
  | wait (polls : Nat)
  | memB (addr : Nat) (vs : List Nat)
  | memH (addr : Nat) (vs : List Nat)
  | run (op : BitVec 4) (a p : Bool) (polls : Nat)
  | clr
  | sreset
  | fmtC (sampling range : Nat) (mc : Option Nat) (depth : Nat)
  | fmtA (sampling range : Nat) (mc : Option Nat) (depth : Nat)
  | dimC (w h : Nat)
  | dimA (w h : Nat)
  deriving DecidableEq, Repr

/-- `wr NAME, imm32` (R79). -/
def wrTurn (p : Params) (r : Reg) (v : Word) : Turn := .host (.regWrite (p.csrBase + r.offset) 4 v)

/-- `rd NAME` (R79). -/
def rdTurn (p : Params) (r : Reg) : Turn := .host (.regRead (p.csrBase + r.offset) 4)

/-- The word of `cmd MNEM[.a][.p]` (R66, R79). DESIGN CHOICE (assumption 20): the reserved opcodes 8 to 15, which no
mnemonic names, are taken too. -/
def cmdWord (op : BitVec 4) (a p : Bool) : Word := (Fields.mk op a p 0).pack

/-- The word of `fmt` (R80), the fields joined as R80's formula has it. DESIGN CHOICE (assumption 20): a word that is
wider than 32 bits keeps its low 32, a case to which R80 gives no meaning. -/
def fmtWord (sampling range : Nat) (mc : Option Nat) (depth : Nat) : Word :=
  match mc with
  | none => BitVec.ofNat 32 (depth <<< 16 ||| range <<< 2 ||| sampling)
  | some m => BitVec.ofNat 32 (depth <<< 16 ||| m <<< 4 ||| 1 <<< 3 ||| range <<< 2 ||| sampling)

/-- The word of `dim` (R80). DESIGN CHOICE (assumption 20): a word that is wider than 32 bits keeps its low 32. -/
def dimWord (w h : Nat) : Word := BitVec.ofNat 32 (h <<< 16 ||| w)

/-- `wait` (R79): reads of STATUS that see BUSY = 1, the block's step, and the read that sees BUSY = 0. -/
def waitTurns (p : Params) (polls : Nat) : List Turn :=
  List.replicate polls (rdTurn p .status) ++ [.block, rdTurn p .status]

/-- Byte stores of a run of cells. -/
def storeTurns (cells : List Host.Cell) : List Turn := cells.map fun c => .host (.memWrite c.1 c.2)

/-- The turns a statement stands for (R79, R80). DESIGN CHOICE (assumption 20): a value too wide for its store keeps its
low bits, 8 of a `mem.b` value and 16 of a `mem.h` value; R79 gives such a statement no meaning. -/
def Stmt.turns (p : Params) : Stmt → List Turn
  | .wr r imm => [wrTurn p r imm]
  | .rd r => [rdTurn p r]
  | .cmd op a b => [wrTurn p .cmd (cmdWord op a b)]
  | .wait polls => waitTurns p polls
  | .memB addr vs => storeTurns (runCells p.endian .one addr vs)
  | .memH addr vs => storeTurns (runCells p.endian .two addr vs)
  | .run op a b polls => wrTurn p .cmd (cmdWord op a b) :: waitTurns p polls
  | .clr => [wrTurn p .status 0x0000000E]
  | .sreset => [wrTurn p .ctrl 0x80000000]
  | .fmtC sp rg mc d => [wrTurn p .cFmt (fmtWord sp rg mc d)]
  | .fmtA sp rg mc d => [wrTurn p .aFmt (fmtWord sp rg mc d)]
  | .dimC w h => [wrTurn p .cDim (dimWord w h)]
  | .dimA w h => [wrTurn p .aDim (dimWord w h)]

/-- A state whose agenda is a host program's turns. DESIGN CHOICE (assumption 18): R138 and R178 leave the block's
step to the scheduler, and here it falls only inside `wait` and `run`; the agendas on which it falls between other
statements are states too, but not ones this function builds. -/
def State.withProgram (s : State) (prog : List Stmt) : State :=
  { s with agenda := prog.flatMap (Stmt.turns s.params) }

end Sys2Proof.Machine
end

