-- ==== Sys2Proof/Safety.lean ====
section
/-! DEFINITION. What a claim calls a safe run: the conditions under which a command's regions are usable, the state
a completed command leaves, and the invariant of the machine. -/

namespace Sys2Proof.Machine

/-- No check of rule R151 fails on the regions, and none of them maps a device (R55). -/
structure RegionsReady (p : Params) (bufs : List Buffer) : Prop where
  geometry : ∀ b ∈ bufs, b.badGeometry (memSize p) = false
  disjoint : ∀ q ∈ pairsOf bufs, q.1.conflict q.2 = false
  noDevice : ∀ b ∈ bufs, ∀ a, b.has a = true → deviceAt p a = false

/-- `MEM_OK` holds of the bytes (R56). -/
def BytesOk (p : Params) (bytes : List Nat) : Prop := ∀ a ∈ bytes, memOk p a = true

/-- The bytes FRAME's second stage reads (R153): the luma plane of a Monochrome frame, else all three planes. -/
def frameColorReads (s : State) : List Nat :=
  match s.colorFrame.sampling with
  | .mono => s.planeYC.touched
  | .chroma c => cuTouches s c

/-- What a completed command leaves, given its memory and configuration registers: BUSY is cleared, DONE is set
(R141), nothing is in flight, and every other register is as before. -/
def State.completedWith (s : State) (cfg : ConfigRegs) (m : Memory) : State :=
  { s with
    status := { s.status with busy := false, done := true }
    cur := none
    stage := .none
    tainted := false
    cfg := cfg
    mem := m }

/-- The configuration registers hold only the bits their rules let them store (R21 to R30). -/
def ConfigRegs.stored (c : ConfigRegs) (p : Params) : Prop :=
  (fmtMask c.cFmt = c.cFmt ∧ fmtMask c.aFmt = c.aFmt) ∧
  (kindMask c.cimgKind = c.cimgKind ∧ kindMask c.aimgKind = c.aimgKind ∧ kindMask c.outKind = c.outKind) ∧
  (c.cYBase.toNat < memSize p ∧ c.cUBase.toNat < memSize p ∧ c.cVBase.toNat < memSize p ∧
    c.aYBase.toNat < memSize p ∧ c.cimgBase.toNat < memSize p ∧ c.aimgBase.toNat < memSize p ∧
    c.outBase.toNat < memSize p)

/-- The invariant of the machine: memory is canonical and inside the address space (R43); BUSY is 1 exactly while a
word is in flight, and that word is the one CMD reads (R20, R36); no stage runs between steps; the flags and error
fields fit together (R19, R31, R37); only a running command is recorded as disturbed; the configuration registers
hold only their stored bits; the parameters are ones the spec admits. -/
structure Inv (s : State) : Prop where
  memCanonical : s.mem.wf = true
  memInside : s.mem.below (memSize s.params) = true
  busyInFlight : s.status.busy = s.cur.isSome
  inFlightIsCmd : ∀ w, s.cur = some w → s.cmd = w
  noStage : s.stage = .none
  busyClean : s.status.busy = true → s.status.done = false ∧ s.status.err = false
  oneOutcome : s.status.done = true → s.status.err = false
  errClear : s.status.err = false →
    s.status.errCode = .none ∧ s.status.errStage = .none ∧ s.errInfo = 0
  errSet : s.status.err = true → s.status.errCode ≠ .none ∧ s.status.errStage ≠ .none
  taintedBusy : s.tainted = true → s.status.busy = true
  stored : s.cfg.stored s.params
  paramsOk : s.params.wf = true

end Sys2Proof.Machine
end

