-- ==== Sys2Proof/Certificates/Slice0/Obligations.lean ====
section
/-! DEFINITION. The statements for the provers, each in the spec's terms with the rule it formalises. -/

open Sys2Proof Sys2Proof.Machine

/-! ## Encoding -/

/-- R66: the words of the opcode map, written out, decode to their commands. -/
def Obligations.CommandWordsDecode : Prop :=
  decode 0x00000000 = .ok .nop ∧ decode 0x00000001 = .ok .upsample ∧ decode 0x00000002 = .ok .convert ∧
  decode 0x00000003 = .ok .convertGray ∧ decode 0x00000004 = .ok .extractAlpha ∧
  decode 0x00000005 = .ok (.composite false) ∧ decode 0x00000015 = .ok (.composite true) ∧
  decode 0x00000006 = .ok .unpremultiply ∧ decode 0x00000007 = .ok (.frame false false) ∧
  decode 0x00000017 = .ok (.frame true false) ∧ decode 0x00000027 = .ok (.frame false true) ∧
  decode 0x00000037 = .ok (.frame true true)

/-- R76, R78: every word decodes to at most one command, the one whose encoding it is, and the encoding of every
command decodes to it; every command is well formed. -/
def Obligations.DecodeAndEncodeAreInverse : Prop :=
  (∀ (w : Word) (i : Instr), decode w = .ok i ↔ w = encode i) ∧ ∀ i : Instr, i.wellFormed = true

/-- R75: a word is illegal exactly under the four conditions, and in every state in which it is the block's turn to
execute it, the step raises ILLEGAL_COMMAND with ERRINFO = w; no memory changes, and no register but STATUS and
ERRINFO (CMD has held w since acceptance). -/
def Obligations.IllegalWordsRaiseIllegalCommand : Prop :=
  ∀ w : Word,
    ((¬ ∃ i, decode w = .ok i) ↔
      (8 ≤ (w.extractLsb' 0 4).toNat ∨ w.extractLsb' 6 26 ≠ 0 ∨
        (w.getLsbD 4 = true ∧ (w.extractLsb' 0 4).toNat ≠ 5 ∧ (w.extractLsb' 0 4).toNat ≠ 7) ∨
        (w.getLsbD 5 = true ∧ (w.extractLsb' 0 4).toNat ≠ 7))) ∧
    ∀ s : State, s.cur = some w → s.agenda.head? = none ∨ s.agenda.head? = some .block →
      (¬ ∃ i, decode w = .ok i) →
      step s = .next { s with
        status := { s.status with busy := false, err := true, errCode := .illegalCommand, errStage := .validation }
        errInfo := w
        cur := none
        stage := .none
        tainted := false
        agenda := s.agenda.tail }

/-! ## Steps -/

/-- R138, R139: on the block's turn, a step is the meaning of the decoded word in flight, after the turn is taken off
the agenda; and a word placed by withFetchWord is the one the next step runs, from the state its acceptance leaves. -/
def Obligations.StepRunsDecodedCommand : Prop :=
  (∀ (s : State) (w : Word) (i : Instr), s.cur = some w → decode w = .ok i →
    s.agenda.head? = none ∨ s.agenda.head? = some .block →
    step s = exec i { s with agenda := s.agenda.tail }) ∧
  ∀ (s : State) (i : Instr), step (s.withFetchWord 32 (encode i).toNat) = exec i (s.accept (encode i))

/-- R14, R168: on the host's turn a step is the host's action; on the block's turn with nothing in flight the block
stays idle. -/
def Obligations.StepTakesHostTurnOrIdles : Prop :=
  ∀ s : State,
    (∀ op rest, s.agenda = .host op :: rest → step s = hostTurn op { s with agenda := rest }) ∧
    (s.cur = none → s.agenda.head? = none ∨ s.agenda.head? = some .block →
      step s = .next { s with agenda := s.agenda.tail })

/-- R146: a command in flight is executed, aborted or stopped within as many steps as there are turns before the
block's, and one. -/
def Obligations.CommandEndsWithinAgenda : Prop :=
  ∀ s : State, s.status.busy = true → s.cur.isSome = true →
    ∃ k ≤ s.agenda.length + 1, ∀ t, Sys2Proof.core.run k s = .next t → t.status.busy = false ∧ t.cur = none

/-- R137, R141, R147: a block's turn ends the command in flight, with DONE set and ERR as acceptance left it, or
with ERR set and DONE as acceptance left it; it stops only where a region of that command maps a device (R55). -/
def Obligations.BlockTurnEndsCommand : Prop :=
  ∀ (s : State), s.cur.isSome = true →
    (blockTurn s = .refused .deviceRegion ∧ s.launchMapsDevice = true) ∨
    ∃ t, blockTurn s = .next t ∧ t.status.busy = false ∧ t.cur = none ∧ t.stage = .none ∧
      ((t.status.done = true ∧ t.status.err = s.status.err) ∨ (t.status.err = true ∧ t.status.done = s.status.done))

/-! ## The register interface -/

/-- R139: acceptance. The word is one whose regions map no device (R55). The block's next turn executes it. -/
def Obligations.AcceptanceStartsCommand : Prop :=
  ∀ (s : State) (w : Word), s.status.busy = false → (s.accept w).launchMapsDevice = false →
    ∃ t, hostTurn (.regWrite (s.params.csrBase + 0x00C) 4 w) s = .next t ∧
      t = { s with
        cmd := w
        status := { busy := true, done := false, err := false, ovr := s.status.ovr, errCode := .none, errStage := .none }
        errInfo := 0
        cur := some w
        stage := .none
        tainted := false } ∧
      (∀ i, decode w = .ok i → blockTurn t = exec i t) ∧
      (∀ e, decode w = .error e → blockTurn t = .next (t.raise ⟨.illegalCommand, .validation, w⟩))

/-- R35, R172: while BUSY = 1 a write to CMD or to a configuration register changes nothing but OVR, and writes to
CTRL and STATUS take effect as usual. -/
def Obligations.WritesWhileBusySetOvr : Prop :=
  ∀ (s : State) (v : Word), s.status.busy = true →
    (∀ r : Reg, r = .cmd ∨ (0x010 ≤ r.offset ∧ r.offset ≤ 0x054) →
      hostTurn (.regWrite (s.params.csrBase + r.offset) 4 v) s =
        .next { s with status := { s.status with ovr := true } }) ∧
    hostTurn (.regWrite (s.params.csrBase + 0x008) 4 v) s = .next (s.writeStatus v) ∧
    (v.getLsbD 31 = false → hostTurn (.regWrite (s.params.csrBase + 0x004) 4 v) s =
      .next { s with ctrl := ⟨v.getLsbD 0, v.getLsbD 1⟩ }) ∧
    (v.getLsbD 31 = true → hostTurn (.regWrite (s.params.csrBase + 0x004) 4 v) s = .next s.doReset)

/-- R34: a host access is one of 32 bits at a 4-aligned offset, any other is refused; a reserved offset reads 0 and
ignores writes; reading a register answers its value and changes nothing. (That a write to 0x02C sets no OVR while
BUSY = 1 either, although R35 names the range 0x010 to 0x054, is the model's reading, assumption 10.) -/
def Obligations.RegisterAccessForms : Prop :=
  ∀ (s : State) (off bytes : Nat) (v : Word), off < 4096 →
    (bytes ≠ 4 ∨ off % 4 ≠ 0 →
      hostTurn (.regRead (s.params.csrBase + off) bytes) s = .refused .registerAccessForm ∧
      hostTurn (.regWrite (s.params.csrBase + off) bytes v) s = .refused .registerAccessForm) ∧
    (off % 4 = 0 → off = 0x02C ∨ 0x064 ≤ off →
      hostTurn (.regRead (s.params.csrBase + off) 4) s = .next { s with readData := 0 } ∧
      hostTurn (.regWrite (s.params.csrBase + off) 4 v) s = .next s) ∧
    (∀ r : Reg, hostTurn (.regRead (s.params.csrBase + r.offset) 4) s = .next { s with readData := readReg r s })

/-- R21 to R30, R67 to R74: each configuration register reads its own field of the state, the one the commands use; the
format and dimension registers give the frames, field by field, and the codes of samplings and kinds stand for what their
tables say; and with BUSY = 0, a write to one is stored and reads back with its reserved bits 0: bits 20:16 and 11:0 of
a format register, ADDR_W bits of a base register, 3 bits of a kind register, and every bit of a dimension or stride
register. No other register changes. -/
def Obligations.ConfigWritesReadBack : Prop :=
  (∀ s : State, readReg .cFmt s = s.cfg.cFmt ∧ readReg .cDim s = s.cfg.cDim ∧ readReg .cYBase s = s.cfg.cYBase ∧
    readReg .cUBase s = s.cfg.cUBase ∧ readReg .cVBase s = s.cfg.cVBase ∧ readReg .cYStride s = s.cfg.cYStride ∧
    readReg .cCStride s = s.cfg.cCStride ∧ readReg .aFmt s = s.cfg.aFmt ∧ readReg .aDim s = s.cfg.aDim ∧
    readReg .aYBase s = s.cfg.aYBase ∧ readReg .aYStride s = s.cfg.aYStride ∧
    readReg .cimgBase s = s.cfg.cimgBase ∧ readReg .cimgKind s = s.cfg.cimgKind ∧
    readReg .aimgBase s = s.cfg.aimgBase ∧ readReg .aimgKind s = s.cfg.aimgKind ∧
    readReg .outBase s = s.cfg.outBase ∧ readReg .outKind s = s.cfg.outKind) ∧
  (let frame : Nat → Word → Word → Frame := fun offset fmt dim => {
      fmtOffset := offset
      w := (dim.extractLsb' 0 16).toNat
      h := (dim.extractLsb' 16 16).toNat
      depth := (fmt.extractLsb' 16 5).toNat
      sampling := samplingOf (fmt.extractLsb' 0 2)
      range := if fmt.getLsbD 2 then .full else .limited
      mc := if fmt.getLsbD 3 then some (fmt.extractLsb' 4 8).toNat else none }
   (∀ s : State, s.colorFrame = frame 0x010 s.cfg.cFmt s.cfg.cDim ∧ s.alphaFrame = frame 0x030 s.cfg.aFmt s.cfg.aDim) ∧
   [0, 1, 2, 3].map samplingOf = [.chroma .c444, .chroma .c420, .chroma .c422, .mono]) ∧
  ((∀ w, kindCode w = w.extractLsb' 0 3) ∧
    [0, 1, 2, 3, 4, 5, 6, 7].map kindOf =
      [some .rgb8, some .rgb16, some .rgba8, some .rgba16, some .gray8, some .gray16, none, none] ∧
    [0, 1, 2, 3, 4, 5, 6, 7].map alphaKindOf = [none, none, none, none, some .gray8, some .gray16, none, none] ∧
    [AlphaKind.gray8, .gray16].map AlphaKind.image = [.gray8, .gray16] ∧
    [ImageKind.rgb8, .rgb16, .rgba8, .rgba16, .gray8, .gray16].map (fun k => (k.code, k.channels, k.size)) =
      [(0, 3, .one), (1, 3, .two), (2, 4, .one), (3, 4, .two), (4, 1, .one), (5, 1, .two)] ∧
    SampleSize.one.bytes = 1 ∧ SampleSize.two.bytes = 2) ∧
  ∀ (s : State) (v : Word) (r : Reg), s.status.busy = false → 0x010 ≤ r.offset → r.offset ≤ 0x054 →
    ∃ t, hostTurn (.regWrite (s.params.csrBase + r.offset) 4 v) s = .next t ∧
      t = { s with cfg := t.cfg } ∧
      (∀ q : Reg, q ≠ r → readReg q t = readReg q s) ∧
      (r = .cFmt ∨ r = .aFmt → readReg r t = v &&& 0x001F0FFF) ∧
      (r = .cimgKind ∨ r = .aimgKind ∨ r = .outKind → readReg r t = v &&& 0x00000007) ∧
      (r = .cDim ∨ r = .aDim ∨ r = .cYStride ∨ r = .cCStride ∨ r = .aYStride → readReg r t = v) ∧
      (r = .cYBase ∨ r = .cUBase ∨ r = .cVBase ∨ r = .aYBase ∨ r = .cimgBase ∨ r = .aimgBase ∨ r = .outBase →
        (readReg r t).toNat = v.toNat % 2 ^ s.params.addrW)

/-- R17, R32, R33: ID is constant; CAPS shows the byte order in bit 0 and ADDR_W in bits 15:8 and nothing else;
MC_CAPS has bit i exactly where code i is supported, and no code from 32 up is; writes to the four read-only
registers are ignored. -/
def Obligations.CapabilityRegisters : Prop :=
  ∀ s : State, s.params.wf = true →
    readReg .id s = 0x43550701 ∧
    (readReg .caps s).getLsbD 0 = decide (s.params.endian = .be) ∧
    ((readReg .caps s).extractLsb' 8 8).toNat = s.params.addrW ∧
    (readReg .caps s).extractLsb' 1 7 = 0 ∧ (readReg .caps s).extractLsb' 16 16 = 0 ∧
    (∀ i, i < 32 → (readReg .mcCaps s).getLsbD i = mcSupported s.params i) ∧
    (∀ i, 32 ≤ i → mcSupported s.params i = false) ∧
    (s.params = Params.default → readReg .caps s = 0x00002000 ∧ readReg .mcCaps s = 0x00000263) ∧
    ∀ v (r : Reg), r = .id ∨ r = .caps ∨ r = .mcCaps ∨ r = .errInfo →
      hostTurn (.regWrite (s.params.csrBase + r.offset) 4 v) s = .next s

/-- R38, R156: the interrupt line, and how it and the flags are cleared. -/
def Obligations.InterruptFollowsFlags : Prop :=
  ∀ (s : State) (v : Word),
    irq s = ((s.status.done && s.ctrl.ieDone) || ((s.status.err || s.status.ovr) && s.ctrl.ieErr)) ∧
    (∃ t, hostTurn (.regWrite (s.params.csrBase + 0x008) 4 v) s = .next t ∧
      t.status.busy = s.status.busy ∧
      t.status.done = (s.status.done && !v.getLsbD 1) ∧
      t.status.err = (s.status.err && !v.getLsbD 2) ∧
      t.status.ovr = (s.status.ovr && !v.getLsbD 3) ∧
      (v.getLsbD 2 = true → t.status.errCode = .none ∧ t.status.errStage = .none ∧ t.errInfo = 0) ∧
      (v.getLsbD 2 = false →
        t.status.errCode = s.status.errCode ∧ t.status.errStage = s.status.errStage ∧ t.errInfo = s.errInfo) ∧
      t = { s with status := t.status, errInfo := t.errInfo } ∧
      (v.getLsbD 1 = true → v.getLsbD 2 = true → v.getLsbD 3 = true → irq t = false)) ∧
    (v.getLsbD 31 = false →
      ∃ t, hostTurn (.regWrite (s.params.csrBase + 0x004) 4 v) s = .next t ∧
        t = { s with ctrl := ⟨v.getLsbD 0, v.getLsbD 1⟩ } ∧
        (v.getLsbD 0 = false → v.getLsbD 1 = false → irq t = false)) ∧
    ((s.accept v).status.done = false ∧ (s.accept v).status.err = false ∧ (s.accept v).status.errCode = .none ∧
      (s.accept v).status.errStage = .none ∧ (s.accept v).errInfo = 0 ∧
      (s.accept v).status.ovr = s.status.ovr) ∧
    s.doReset.status = Status.reset ∧ s.doReset.errInfo = 0 ∧ irq s.doReset = false

/-- R18, R19, R20, R31, R148, R149: the STATUS word has its fields at their bits and 0 elsewhere, with the numbers of the
eleven error codes and the seven stages; CTRL reads IE_DONE in bit 0, IE_ERR in bit 1 and 0 elsewhere; CMD reads the
accepted word and ERRINFO the detail word. -/
def Obligations.StatusWordLayout : Prop :=
  (ErrCode.none.code = 0 ∧ ErrCode.invalidChromaFormat.code = 1 ∧ ErrCode.unsupportedColorMetadata.code = 2 ∧
    ErrCode.dimensionMismatch.code = 3 ∧ ErrCode.contractViolation.code = 4 ∧ ErrCode.illegalCommand.code = 5 ∧
    ErrCode.invalidDepth.code = 6 ∧ ErrCode.invalidImageKind.code = 7 ∧ ErrCode.invalidGeometry.code = 8 ∧
    ErrCode.bufferOverlap.code = 9 ∧ ErrCode.memFault.code = 10) ∧
  (StageCode.none.code = 0 ∧ StageCode.validation.code = 1 ∧ StageCode.cu.code = 2 ∧ StageCode.cscColor.code = 3 ∧
    StageCode.cscGray.code = 4 ∧ StageCode.ac.code = 5 ∧ StageCode.up.code = 6) ∧
  ∀ s : State,
    (readReg .status s).getLsbD 0 = s.status.busy ∧ (readReg .status s).getLsbD 1 = s.status.done ∧
    (readReg .status s).getLsbD 2 = s.status.err ∧ (readReg .status s).getLsbD 3 = s.status.ovr ∧
    (readReg .status s).extractLsb' 4 4 = 0 ∧
    ((readReg .status s).extractLsb' 8 4).toNat = s.status.errCode.code ∧
    ((readReg .status s).extractLsb' 12 3).toNat = s.status.errStage.code ∧
    (readReg .status s).extractLsb' 15 17 = 0 ∧
    (readReg .ctrl s).getLsbD 0 = s.ctrl.ieDone ∧ (readReg .ctrl s).getLsbD 1 = s.ctrl.ieErr ∧
    (readReg .ctrl s).extractLsb' 2 30 = 0 ∧
    readReg .cmd s = s.cmd ∧ (∀ w, readReg .cmd (s.accept w) = w) ∧ readReg .errInfo s = s.errInfo

/-! ## Reset -/

/-- R167: what the registers read after either reset, and that nothing is in flight and irq is 0. -/
def Obligations.ResetRegisterValues : Prop :=
  (∀ r : Reg, r ≠ .id → r ≠ .caps → r ≠ .mcCaps →
    readReg r State.reset = (if r = .aimgKind then 4 else 0) ∧
    ∀ s : State, readReg r s.doReset = (if r = .aimgKind then 4 else 0)) ∧
  (∀ s : State, readReg .id s.doReset = 0x43550701 ∧ readReg .caps s.doReset = readReg .caps s ∧
    readReg .mcCaps s.doReset = readReg .mcCaps s ∧ s.doReset.cur = none ∧ s.doReset.stage = .none ∧
    irq s.doReset = false) ∧
  readReg .id State.reset = 0x43550701 ∧ readReg .caps State.reset = 0x00002000 ∧
  readReg .mcCaps State.reset = 0x00000263 ∧ State.reset.cur = none ∧ irq State.reset = false

/-- R166: a write of CTRL with bit 31 = 1 resets every register whatever else it holds, also while BUSY = 1; an
aborted command's written regions hold freely drawn bytes and every other byte is unchanged. (That a command whose word
is illegal or whose checks will fail has no regions, by R152, is the model's reading, assumption 8.) -/
def Obligations.SoftResetAborts : Prop :=
  ∀ (s : State) (v : Word), v.getLsbD 31 = true →
    ∃ t, hostTurn (.regWrite (s.params.csrBase + 0x004) 4 v) s = .next t ∧
      t = { s with
        ctrl := Ctrl.reset, status := Status.reset, cmd := 0, cfg := ConfigRegs.reset, errInfo := 0, cur := none
        stage := .none, tainted := false, mem := t.mem, draws := t.draws } ∧
      (s.cur = none → t.mem = s.mem) ∧
      (∀ a, s.inWritten a = true → t.mem.read a = Config.freeByte s.draws a) ∧
      (∀ a, s.inWritten a = false → t.mem.read a = s.mem.read a)

/-- R165: a hard reset gives every register its reset value; memory is not written where nothing is in flight.
(That it aborts a command in flight as a soft reset does is the model's reading, assumption 7, and so is that a command
whose checks will fail has no regions, assumption 8.) -/
def Obligations.HardResetRestoresRegisters : Prop :=
  ∀ s : State, ∃ t, hostTurn .hardReset s = .next t ∧
    t = { s with
      ctrl := Ctrl.reset, status := Status.reset, cmd := 0, cfg := ConfigRegs.reset, errInfo := 0, cur := none
      stage := .none, tainted := false, mem := t.mem, draws := t.draws } ∧
    (s.cur = none → t.mem = s.mem) ∧
    (∀ a, s.inWritten a = false → t.mem.read a = s.mem.read a)

/-! ## Host programs -/

/-- R79, R80: the turns each statement and each pseudo-instruction stands for, the word of `cmd`, and that each field of
a `fmt` or `dim` word is the field of the register it stands for. (That `wait` is a number of polls, the block's turn
and a last poll, and a 2-byte store two byte stores, is the model's form, assumptions 12 and 18; that a value too wide
for its store keeps its low bits, and that `cmd` and `run` also take the reserved opcodes 8 to 15, which no mnemonic of
R79 names, is the model's choice, assumption 20.) -/
def Obligations.PseudoInstructionsExpand : Prop :=
  (∀ p : Params,
    let wr := fun (offset : Nat) (v : Word) => Turn.host (.regWrite (p.csrBase + offset) 4 v)
    let poll := Turn.host (.regRead (p.csrBase + 0x008) 4)
    let store := fun (a v : Nat) => Turn.host (.memWrite a (BitVec.ofNat 8 v))
    (∀ r v, (Stmt.wr r v).turns p = [wr r.offset v]) ∧
    (∀ r, (Stmt.rd r).turns p = [.host (.regRead (p.csrBase + r.offset) 4)]) ∧
    (∀ op a b, (Stmt.cmd op a b).turns p = [wr 0x00C (cmdWord op a b)]) ∧
    (∀ n, (Stmt.wait n).turns p = List.replicate n poll ++ [.block, poll]) ∧
    (∀ op a b n, (Stmt.run op a b n).turns p = (Stmt.cmd op a b).turns p ++ (Stmt.wait n).turns p) ∧
    (∀ a vs, (Stmt.memB a vs).turns p = vs.zipIdx.map fun q => store (a + q.2) q.1) ∧
    (∀ a vs, (Stmt.memH a vs).turns p = vs.zipIdx.flatMap fun q =>
      if p.endian = .le then [store (a + 2 * q.2) q.1, store (a + 2 * q.2 + 1) (q.1 / 256)]
      else [store (a + 2 * q.2) (q.1 / 256), store (a + 2 * q.2 + 1) q.1]) ∧
    Stmt.clr.turns p = [wr 0x008 0x0000000E] ∧
    Stmt.sreset.turns p = [wr 0x004 0x80000000] ∧
    (∀ sp rg mc d, (Stmt.fmtC sp rg mc d).turns p = [wr 0x010 (fmtWord sp rg mc d)]) ∧
    (∀ sp rg mc d, (Stmt.fmtA sp rg mc d).turns p = [wr 0x030 (fmtWord sp rg mc d)]) ∧
    (∀ w h, (Stmt.dimC w h).turns p = [wr 0x014 (dimWord w h)]) ∧
    (∀ w h, (Stmt.dimA w h).turns p = [wr 0x034 (dimWord w h)])) ∧
  (∀ i : Instr, cmdWord i.fields.op i.fields.a i.fields.p = encode i) ∧
  (∀ (op : BitVec 4) (a b : Bool), fieldsOf (cmdWord op a b) = ⟨op, a, b, 0⟩) ∧
  (∀ w h, w < 65536 → h < 65536 → dimW (dimWord w h) = w ∧ dimH (dimWord w h) = h) ∧
  ∀ (sp rg depth : Nat) (mc : Option Nat), sp < 4 → rg < 2 → depth < 32 → (∀ m, mc = some m → m < 256) →
    fmtSampling (fmtWord sp rg mc depth) = samplingOf (BitVec.ofNat 2 sp) ∧
    fmtRange (fmtWord sp rg mc depth) = (if rg = 1 then .full else .limited) ∧
    fmtMc (fmtWord sp rg mc depth) = mc ∧ fmtDepth (fmtWord sp rg mc depth) = depth ∧
    fmtMask (fmtWord sp rg mc depth) = fmtWord sp rg mc depth ∧
    (fmtWord sp rg none depth).extractLsb' 4 8 = 0

/-! ## Memory and the host -/

/-- R43: a byte the host stores is the one a read there gives, every other byte reads as before, and an access at
2^ADDR_W or above faults. -/
def Obligations.HostMemoryReadsBack : Prop :=
  ∀ (s : State) (a : Nat) (v : Byte),
    (2 ^ s.params.addrW ≤ a → hostTurn (.memWrite a v) s = .fault .addressOutsideMemory ∧
      hostTurn (.memRead a) s = .fault .addressOutsideMemory) ∧
    (a < 2 ^ s.params.addrW → deviceAt s.params a = false → memOk s.params a = true →
      ∃ t, hostTurn (.memWrite a v) s = .next t ∧ t = { s with mem := t.mem, tainted := t.tainted } ∧
        t.mem.read a = v ∧ (∀ b, b ≠ a → t.mem.read b = s.mem.read b) ∧
        (s.inWritten a = false → ∃ u, hostTurn (.memRead a) t = .next u ∧ u = { t with readData := v.setWidth 32 }))

/-- R44: a 2-byte sample has its low byte first under LE and its high byte first under BE, a 1-byte sample is its
byte, and writing a sample is the inverse of reading it. -/
def Obligations.SampleByteOrder : Prop :=
  ∀ (m : Memory) (a v : Nat),
    m.readSample .le .two a = (m.read a).toNat + 256 * (m.read (a + 1)).toNat ∧
    m.readSample .be .two a = 256 * (m.read a).toNat + (m.read (a + 1)).toNat ∧
    (∀ e, m.readSample e .one a = (m.read a).toNat) ∧
    (v < 65536 → ∀ e, (m.writeAll (sampleCells e .two a v)).readSample e .two a = v) ∧
    (v < 256 → ∀ e, (m.writeAll (sampleCells e .one a v)).readSample e .one a = v)

/-- R171: a host store into a region of the running command marks the command as disturbed, and a disturbed command
whose checks pass ends with every byte of the regions it writes freely drawn and every other byte as it was: completed
with its kind registers written, or failed with MEM_FAULT. Which of the two ends it has, the stage and detail word of
MEM_FAULT, and the model's draw counter are left open here (assumption 15); nothing else changes. -/
def Obligations.DisturbedCommandWritesAnyBytes : Prop :=
  (∀ (s t : State) (a : Nat) (v : Byte), hostTurn (.memWrite a v) s = .next t → s.inUse a = true →
    t.tainted = true) ∧
  ∀ (s : State) (i : Instr) (p : Plan), s.tainted = true → i ≠ .nop → planOf i s = .ok p →
    p.mapsDevice s.params = false →
    ∃ t, exec i s = .next t ∧ t.status.busy = false ∧ t.cur = none ∧ t.tainted = false ∧
      (∀ a, p.writes a = true → t.mem.read a = Config.freeByte s.draws a) ∧
      (∀ a, p.writes a = false → t.mem.read a = s.mem.read a) ∧
      (t = { s.completedWith (s.cfg.withKinds p) t.mem with draws := t.draws } ∨
        t = { s with
          status := { s.status with
            busy := false, err := true, errCode := .memFault, errStage := t.status.errStage }
          errInfo := t.errInfo
          cur := none
          stage := .none
          tainted := false
          mem := t.mem
          draws := t.draws })

/-- R59 item 4, R171: while a command runs, the host's load of a byte in a region it writes answers the old value or a
new one, that is one which some of the command's stages, run in order, leave there. Where the host disturbed the command,
or memory will refuse an access of it, the byte is freely drawn (the model's reading, assumption 14). Nothing else
changes. -/
def Obligations.HostLoadDuringCommand : Prop :=
  ∀ (s : State) (a : Nat), a < 2 ^ s.params.addrW → deviceAt s.params a = false → memOk s.params a = true →
    (s.inWritten a = false → hostTurn (.memRead a) s = .next { s with readData := (s.mem.read a).setWidth 32 }) ∧
    ∀ p, s.inFlight = some p → p.writes a = true →
      (s.tainted = false → (∃ n, runPasses s.params p.passes s.mem = .ok n) →
        ∃ pre post m, p.passes = pre ++ post ∧ runPasses s.params pre s.mem = .ok m ∧
          hostTurn (.memRead a) s =
            .next { s with readData := (m.read a).setWidth 32, draws := s.draws + 1 }) ∧
      (s.tainted = true ∨ (∃ e, runPasses s.params p.passes s.mem = .error e) → hostTurn (.memRead a) s =
        .next { s with readData := (Config.freeByte s.draws a).setWidth 32, draws := s.draws + 1 })

/-! ## The checks before any access -/

/-- R151, R49, R50, R53: `check_geometry` raises INVALID_GEOMETRY for the first bad region, a region being bad when
it is nonempty and misaligned, or has a stride below its row bytes, or ends above the limit; and where a region ends
(R52). -/
def Obligations.GeometryNamesFirstBadRegion : Prop :=
  ∀ (limit : Nat) (bufs : List Buffer),
    (checkGeometry limit bufs = .ok () ↔ ∀ b ∈ bufs, b.badGeometry limit = false) ∧
    (∀ e, checkGeometry limit bufs = .error e → ∃ pre b post, bufs = pre ++ b :: post ∧
      b.badGeometry limit = true ∧ (∀ c ∈ pre, c.badGeometry limit = false) ∧
      e = ⟨.invalidGeometry, .validation, BitVec.ofNat 32 b.offset⟩) ∧
    (∀ b : Buffer, b.badGeometry limit = true ↔
      (0 < b.rowBytes ∧ 0 < b.rows) ∧
        ((b.size = .two ∧ (b.base % 2 = 1 ∨ ∃ st, b.stride = some st ∧ st % 2 = 1)) ∨
          (∃ st, b.stride = some st ∧ st < b.rowBytes) ∨ limit < b.stop)) ∧
    (∀ b : Buffer, b.stop = match b.stride with
      | some st => b.base + (b.rows - 1) * st + b.rowBytes
      | none => b.base + b.rows * b.rowBytes)

/-- R54, R151: `check_overlap` passes exactly when no written region shares a byte with another region, and
otherwise raises BUFFER_OVERLAP naming the conflicting pair with the least (lower, higher) base-register offsets. The
regions stand in the order of their offsets, as they do in every command. R154: a command's two checks are the geometry
check first, then the overlap check; the geometry check of FRAME with A = 1 has its own order (assumption 19). -/
def Obligations.OverlapNamesLeastPair : Prop :=
  (∀ bufs : List Buffer, bufs.Pairwise (fun b c => b.offset < c.offset) →
    (checkOverlap bufs = .ok () ↔ ∀ b ∈ bufs, ∀ c ∈ bufs, b.offset ≠ c.offset → b.written = true →
      ∀ a, ¬ (b.has a = true ∧ c.has a = true)) ∧
    ∀ e, checkOverlap bufs = .error e → ∃ b ∈ bufs, ∃ c ∈ bufs, b.offset < c.offset ∧
      (b.written = true ∨ c.written = true) ∧ (∃ a, b.has a = true ∧ c.has a = true) ∧
      e = ⟨.bufferOverlap, .validation, BitVec.ofNat 32 b.offset ||| (BitVec.ofNat 32 c.offset <<< 16)⟩ ∧
      ∀ b' ∈ bufs, ∀ c' ∈ bufs, b'.offset < c'.offset → (b'.written = true ∨ c'.written = true) →
        (∃ a, b'.has a = true ∧ c'.has a = true) →
        b.offset < b'.offset ∨ (b.offset = b'.offset ∧ c.offset ≤ c'.offset)) ∧
  (∀ (i : Instr) (s : State) (p : Plan), planOf i s = .ok p →
    p.bufs.Pairwise (fun b c => b.offset < c.offset)) ∧
  ∀ (p : Params) (reported bufs : List Buffer),
    (∀ e, checkGeometry (memSize p) bufs = .error e → checkBuffers p bufs = .error e) ∧
    (checkGeometry (memSize p) bufs = .ok () → checkBuffers p bufs = checkOverlap bufs) ∧
    (∀ e, checkGeometry (memSize p) reported = .error e → checkRegions p reported bufs = .error e) ∧
    (checkGeometry (memSize p) reported = .ok () → checkRegions p reported bufs = checkOverlap bufs)

/-- R55: a command one of whose regions maps a device is refused, at its launch and at its execution. -/
def Obligations.DeviceRegionsAreRefused : Prop :=
  ∀ (s : State) (i : Instr) (p : Plan), planOf i s = .ok p →
    (∃ b ∈ p.bufs, ∃ a, b.has a = true ∧ deviceAt s.params a = true) →
    exec i s = .refused .deviceRegion ∧
    (s.status.busy = false →
      hostTurn (.regWrite (s.params.csrBase + 0x00C) 4 (encode i)) s = .refused .deviceRegion)

/-! ## Errors -/

/-- R147: what raising an error leaves, for every error but MEM_FAULT. R152: every error but MEM_FAULT, whether a command's meaning raises it or the block's turn on an illegal word, writes
no memory and changes no register but STATUS (BUSY, ERR, ERRCODE, ERRSTAGE) and ERRINFO; so what it leaves is the state
before acceptance with STATUS, ERRINFO and CMD updated. -/
def Obligations.ErrorsArePrecise : Prop :=
  (∀ (s : State) (e : Err), s.raise e = { s with
    status := { s.status with busy := false, err := true, errCode := e.code, errStage := e.stage }
    errInfo := e.info
    cur := none
    stage := .none
    tainted := false }) ∧
  let precise := fun s t : State => s.status.err = false → t.status.err = true → t.status.errCode ≠ .memFault →
    t = { s with
      status := { s.status with
        busy := false, err := true, errCode := t.status.errCode, errStage := t.status.errStage }
      errInfo := t.errInfo
      cur := none
      stage := .none
      tainted := false }
  (∀ (i : Instr) (s t : State), exec i s = .next t → precise s t) ∧
  (∀ s t : State, blockTurn s = .next t → precise s t) ∧
  ∀ (s t : State) (w : Word), blockTurn (s.accept w) = .next t → t.status.err = true → t.status.errCode ≠ .memFault →
    t = { s with
      status := ⟨false, false, true, s.status.ovr, t.status.errCode, t.status.errStage⟩
      errInfo := t.errInfo
      cmd := w
      cur := none
      stage := .none
      tainted := false }

/-- R153: after MEM_FAULT the written regions hold freely drawn bytes, every other byte is unchanged, every register but
STATUS and ERRINFO, the kind registers among them, keeps its value, ERRSTAGE is the first stage in the command's order
that touches a refused byte (the stages before it ran to their end), and ERRINFO is the address of a refused byte of
that stage, which lies in a region of the command. (Which bytes a stage touches is the model's reading, assumption 9,
and that a disturbed command's are those of the memory at its step, assumption 15.) -/
def Obligations.MemFaultEffects : Prop :=
  ∀ (i : Instr) (s t : State), exec i s = .next t → s.status.err = false → t.status.err = true →
    t.status.errCode = .memFault →
    ∃ p, planOf i s = .ok p ∧
      (∀ a, p.writes a = true → t.mem.read a = Config.freeByte s.draws a) ∧
      (∀ a, p.writes a = false → t.mem.read a = s.mem.read a) ∧
      t = { s with
        status := { s.status with
          busy := false, err := true, errCode := .memFault, errStage := t.status.errStage }
        errInfo := t.errInfo
        cur := none
        stage := .none
        tainted := false
        mem := t.mem
        draws := t.draws } ∧
      ∃ pre q post m, p.passes = pre ++ q :: post ∧ runPasses s.params pre s.mem = .ok m ∧
        t.status.errStage = q.stage ∧
        ∃ b ∈ q.touches m, p.uses b = true ∧ memOk s.params b = false ∧ t.errInfo = BitVec.ofNat 32 b

/-- R56, R153: a stage that touches a refused byte, all stages before it having run to their end, ends the command with
MEM_FAULT under that stage's code. (Which bytes a stage touches is the model's reading, assumption 9, and that a
disturbed command's are those of the memory at its step, assumption 15.) -/
def Obligations.RefusedByteFaults : Prop :=
  ∀ (i : Instr) (s : State) (p : Plan) (pre post : List Pass) (q : Pass) (m : Memory), i ≠ .nop →
    planOf i s = .ok p → p.mapsDevice s.params = false → p.passes = pre ++ q :: post →
    runPasses s.params pre s.mem = .ok m → (∃ b ∈ q.touches m, memOk s.params b = false) →
    ∃ t, exec i s = .next t ∧ t.status.busy = false ∧ t.status.err = true ∧ t.status.errCode = .memFault ∧
      t.status.errStage = q.stage ∧ ∃ b ∈ q.touches m, memOk s.params b = false ∧ t.errInfo = BitVec.ofNat 32 b

/-- R142, R149, R153: the stages each command runs, in their order, and the bytes each of them touches: the samples of
its planes, every byte of its images, and in UP the alpha bytes, and the color bytes of the pixels whose alpha is not 0.
(That padding and the color bytes of pixels with alpha 0 are not touched is the model's reading, assumption 9.) -/
def Obligations.StageOrderOfCommands : Prop :=
  ∀ (s : State) (i : Instr) (p : Plan), planOf i s = .ok p →
    let colorStages := if s.colorFrame.sampling = .mono then [StageCode.cscGray] else [.cu, .cscColor]
    (p.passes.map (fun q => q.stage) = match i with
      | .nop => []
      | .upsample => [.cu]
      | .convert => [.cu, .cscColor]
      | .convertGray => [.cscGray]
      | .extractAlpha => [.cscGray]
      | .composite _ => [.ac]
      | .unpremultiply => [.up]
      | .frame a pm => (if a then [.cscGray] else []) ++ colorStages ++ [.ac] ++ (if a && pm then [.up] else [])) ∧
    let cW := s.colorFrame.w
    let cH := s.colorFrame.h
    let bC := if s.colorFrame.depth = 8 then 1 else 2
    let bA := if s.alphaFrame.depth = 8 then 1 else 2
    let rows := fun (base stride : Word) (w h b a : Nat) =>
      ∃ y < h, ∃ j < w * b, a = base.toNat + y * stride.toNat + j
    let image := fun (base : Word) (w h pixelBytes a : Nat) =>
      base.toNat ≤ a ∧ a < base.toNat + w * h * pixelBytes
    let chroma := fun (base : Word) (a : Nat) => match s.colorFrame.sampling with
      | .mono => False
      | .chroma .c444 => rows base s.cfg.cCStride cW cH bC a
      | .chroma .c422 => rows base s.cfg.cCStride ((cW + 1) / 2) cH bC a
      | .chroma .c420 => rows base s.cfg.cCStride ((cW + 1) / 2) ((cH + 1) / 2) bC a
    let yC := rows s.cfg.cYBase s.cfg.cYStride cW cH bC
    let yA := rows s.cfg.aYBase s.cfg.aYStride s.alphaFrame.w s.alphaFrame.h bA
    let planes := fun a => yC a ∨ chroma s.cfg.cUBase a ∨ chroma s.cfg.cVBase a
    let cimg := fun n => image s.cfg.cimgBase cW cH n
    let aimg := fun n => image s.cfg.aimgBase s.alphaFrame.w s.alphaFrame.h n
    let out := fun n => image s.cfg.outBase cW cH n
    let bytes := fun k : ImageKind => k.channels * k.size.bytes
    let upTouches : SampleSize → Memory → Nat → Prop := fun z m a => ∃ k < cW * cH,
      let pixel := s.cfg.outBase.toNat + k * 4 * z.bytes
      let alpha := pixel + 3 * z.bytes
      (alpha ≤ a ∧ a < alpha + z.bytes) ∨
        (m.readSample s.params.endian z alpha ≠ 0 ∧ pixel ≤ a ∧ a < pixel + 3 * z.bytes)
    let touch := fun stages : List (Memory → Nat → Prop) =>
      List.Forall₂ (fun (q : Pass) t => ∀ (m : Memory) (a : Nat), a ∈ q.touches m ↔ t m a) p.passes stages
    let colorBytes := if s.colorFrame.sampling = .mono then bC else 3 * bC
    let colorTouches : List (Memory → Nat → Prop) := if s.colorFrame.sampling = .mono
      then [fun _ a => yC a ∨ cimg bC a] else [fun _ => planes, fun _ => cimg (3 * bC)]
    let acTouches : (Nat → Prop) → Nat → Memory → Nat → Prop := fun alpha resultBytes _ a =>
      cimg colorBytes a ∨ alpha a ∨ out resultBytes a
    match i with
    | .nop => touch []
    | .upsample => touch [fun _ a => planes a ∨ out (3 * bC) a]
    | .convert => touch [fun _ => planes, fun _ => cimg (3 * bC)]
    | .convertGray => touch [fun _ a => yC a ∨ cimg bC a]
    | .extractAlpha => touch [fun _ a => yA a ∨ aimg bA a]
    | .composite false => ∃ ck, kindOf (kindCode s.cfg.cimgKind) = some ck ∧
        touch [fun _ a => cimg (bytes ck) a ∨ out (bytes ck) a]
    | .composite true => ∃ ck ak row, kindOf (kindCode s.cfg.cimgKind) = some ck ∧
        alphaKindOf (kindCode s.cfg.aimgKind) = some ak ∧ compositeRow ck ak = some row ∧
        touch [fun _ a => cimg (bytes ck) a ∨ aimg ak.image.size.bytes a ∨ out (bytes row.result) a]
    | .unpremultiply => ∃ k, (k = .rgba8 ∨ k = .rgba16) ∧ kindOf (kindCode s.cfg.outKind) = some k ∧
        touch [upTouches k.size]
    | .frame false _ => touch (colorTouches ++ [acTouches (fun _ => False) colorBytes])
    | .frame true pm => ∃ row,
        compositeRow (frameColorKind s.colorFrame) (grayKind s.alphaFrame.depth) = some row ∧
        touch ((fun _ a => yA a ∨ aimg bA a) :: (colorTouches ++
          acTouches (aimg bA) (bytes row.result) ::
            (if pm then [upTouches row.result.size] else [])))

/-- R153 (which bytes of a plane count is assumption 9), CONVERT's row of the stage table: a refused byte of a plane
faults in stage 2; where all of those are admitted, a refused byte of CIMG faults in stage 3; ERRINFO is a refused byte
of that stage. -/
def Obligations.ConvertMemFaultStage : Prop :=
  ∀ (s : State) (c : Chroma) (mx : Matrix),
    8 ≤ s.colorFrame.depth → s.colorFrame.depth ≤ 16 → s.colorFrame.sampling = .chroma c →
    matrixOf s.params (resolveMc s.colorFrame.mc s.params.defaultMcColor) = some mx →
    RegionsReady s.params (convertBufs s c) →
    ((∃ a ∈ cuTouches s c, memOk s.params a = false) →
      ∃ t, exec .convert s = .next t ∧ t.status.err = true ∧ t.status.errCode = .memFault ∧ t.status.errStage = .cu ∧
        ∃ a ∈ cuTouches s c, memOk s.params a = false ∧ t.errInfo = BitVec.ofNat 32 a) ∧
    (BytesOk s.params (cuTouches s c) → (∃ a ∈ s.rgbImage.touched, memOk s.params a = false) →
      ∃ t, exec .convert s = .next t ∧ t.status.err = true ∧ t.status.errCode = .memFault ∧
        t.status.errStage = .cscColor ∧
        ∃ a ∈ s.rgbImage.touched, memOk s.params a = false ∧ t.errInfo = BitVec.ofNat 32 a)

/-- R52: the regions of every command, computed from the registers, are the bytes it reads or writes and the bytes it
writes; the lists of regions that the checks of each command see, with base-register offset (R148), base, sample size
(R49), stride, row bytes, rows and whether it is written; and a command changes no byte outside the regions it writes, however it ends. -/
def Obligations.CommandsWriteOnlyTheirRegions : Prop :=
  (∀ (i : Instr) (s : State) (p : Plan), planOf i s = .ok p →
    let cW := s.colorFrame.w
    let cH := s.colorFrame.h
    let aW := s.alphaFrame.w
    let aH := s.alphaFrame.h
    let bC := if s.colorFrame.depth = 8 then 1 else 2
    let bA := if s.alphaFrame.depth = 8 then 1 else 2
    let plane := fun (base stride : Word) (w h b a : Nat) =>
      0 < w ∧ 0 < h ∧ base.toNat ≤ a ∧ a < base.toNat + (h - 1) * stride.toNat + w * b
    let image := fun (base : Word) (w h pixelBytes a : Nat) =>
      base.toNat ≤ a ∧ a < base.toNat + w * h * pixelBytes
    let chroma := fun (base : Word) (a : Nat) => match s.colorFrame.sampling with
      | .mono => False
      | .chroma .c444 => plane base s.cfg.cCStride cW cH bC a
      | .chroma .c422 => plane base s.cfg.cCStride ((cW + 1) / 2) cH bC a
      | .chroma .c420 => plane base s.cfg.cCStride ((cW + 1) / 2) ((cH + 1) / 2) bC a
    let yC := plane s.cfg.cYBase s.cfg.cYStride cW cH bC
    let yA := plane s.cfg.aYBase s.cfg.aYStride aW aH bA
    let cimg := fun n => image s.cfg.cimgBase cW cH n
    let aimg := fun n => image s.cfg.aimgBase aW aH n
    let out := fun n => image s.cfg.outBase cW cH n
    let bytes := fun k : ImageKind => k.channels * k.size.bytes
    let regions := fun (reads writes : Nat → Prop) => ∀ a : Nat,
      (p.writes a = true ↔ writes a) ∧ (p.uses a = true ↔ reads a ∨ writes a)
    let colorBytes := if s.colorFrame.sampling = .mono then bC else 3 * bC
    match i with
    | .nop => regions (fun _ => False) (fun _ => False)
    | .upsample => regions (fun a => yC a ∨ chroma s.cfg.cUBase a ∨ chroma s.cfg.cVBase a) (out (3 * bC))
    | .convert => regions (fun a => yC a ∨ chroma s.cfg.cUBase a ∨ chroma s.cfg.cVBase a) (cimg (3 * bC))
    | .convertGray => regions yC (cimg bC)
    | .extractAlpha => regions yA (aimg bA)
    | .composite false => ∃ ck, kindOf (kindCode s.cfg.cimgKind) = some ck ∧
        regions (cimg (bytes ck)) (out (bytes ck))
    | .composite true => ∃ ck ak row, kindOf (kindCode s.cfg.cimgKind) = some ck ∧
        alphaKindOf (kindCode s.cfg.aimgKind) = some ak ∧ compositeRow ck ak = some row ∧
        regions (fun a => cimg (bytes ck) a ∨ aimg ak.image.size.bytes a) (out (bytes row.result))
    | .unpremultiply => ∃ k, (k = .rgba8 ∨ k = .rgba16) ∧ kindOf (kindCode s.cfg.outKind) = some k ∧
        regions (out (bytes k)) (out (bytes k))
    | .frame false _ => regions (fun a => yC a ∨ chroma s.cfg.cUBase a ∨ chroma s.cfg.cVBase a)
        (fun a => cimg colorBytes a ∨ out colorBytes a)
    | .frame true _ => ∃ row, compositeRow (frameColorKind s.colorFrame) (grayKind s.alphaFrame.depth) = some row ∧
        regions (fun a => yA a ∨ yC a ∨ chroma s.cfg.cUBase a ∨ chroma s.cfg.cVBase a)
          (fun a => aimg bA a ∨ cimg colorBytes a ∨ out (bytes row.result) a)) ∧
  (∀ s : State,
    let size := fun f : Frame => if f.depth = 8 then SampleSize.one else .two
    let plane := fun (offset : Nat) (base stride : Word) (w h : Nat) (z : SampleSize) =>
      (⟨offset, base.toNat, z, some stride.toNat, w * z.bytes, h, false⟩ : Buffer)
    let image := fun (offset : Nat) (base : Word) (f : Frame) (ch : Nat) (z : SampleSize) (written : Bool) =>
      (⟨offset, base.toNat, z, none, f.w * ch * z.bytes, f.h, written⟩ : Buffer)
    let color := s.colorFrame
    let alpha := s.alphaFrame
    let yC := plane 0x018 s.cfg.cYBase s.cfg.cYStride color.w color.h (size color)
    let chromaPlane := fun (offset : Nat) (base : Word) (c : Chroma) =>
      let halfW := (color.w + 1) / 2
      let halfH := (color.h + 1) / 2
      match c with
      | .c444 => plane offset base s.cfg.cCStride color.w color.h (size color)
      | .c422 => plane offset base s.cfg.cCStride halfW color.h (size color)
      | .c420 => plane offset base s.cfg.cCStride halfW halfH (size color)
    let uC := chromaPlane 0x01C s.cfg.cUBase
    let vC := chromaPlane 0x020 s.cfg.cVBase
    let yA := plane 0x038 s.cfg.aYBase s.cfg.aYStride alpha.w alpha.h (size alpha)
    let cimg := image 0x040 s.cfg.cimgBase color
    let aimg := image 0x048 s.cfg.aimgBase alpha
    let out := image 0x050 s.cfg.outBase color
    let framePlanes := match color.sampling with
      | .mono => [yC]
      | .chroma c => [yC, uC c, vC c]
    let frameChannels := if color.sampling = .mono then 1 else 3
    (s.planeYC.buffer = yC ∧ (∀ c, (s.planeUC c).buffer = uC c ∧ (s.planeVC c).buffer = vC c) ∧
      s.planeYA.buffer = yA ∧ s.alphaImage.buffer true = aimg 1 (size alpha) true ∧
      s.frameCimg.buffer true = cimg frameChannels (size color) true ∧
      (∀ k, (s.out k).buffer true = out k.channels k.size true)) ∧
    (∀ c, upsampleBufs s c = [yC, uC c, vC c, out 3 (size color) true]) ∧
    (∀ c, convertBufs s c = [yC, uC c, vC c, cimg 3 (size color) true]) ∧
    convertGrayBufs s = [yC, cimg 1 (size color) true] ∧
    extractAlphaBufs s = [yA, aimg 1 (size alpha) true] ∧
    (∀ k, copyBufs s k = [cimg k.channels k.size false, out k.channels k.size true]) ∧
    (∀ k ak rk, blendBufs s k ak rk =
      [cimg k.channels k.size false, aimg 1 ak.image.size false, out rk.channels rk.size true]) ∧
    (∀ k, unpremulBufs s k = [out k.channels k.size true]) ∧
    framePlainBufs s = framePlanes ++
      [cimg frameChannels (size color) true, out frameChannels (size color) true] ∧
    (∀ rk, frameAlphaBufs s rk = framePlanes ++
      [yA, cimg frameChannels (size color) true, aimg 1 (size alpha) true, out rk.channels rk.size true])) ∧
  ∀ (i : Instr) (s t : State) (a : Nat), exec i s = .next t →
    (∀ p, planOf i s = .ok p → p.writes a = false) → t.mem.read a = s.mem.read a

/-- R90, R110, R154: the errors of UPSAMPLE and CONVERT in their priority: DEPTH, then Monochrome, then (CONVERT) the
matrix, then geometry and overlap. -/
def Obligations.ColorCommandErrorPriority : Prop :=
  ∀ s : State,
    (¬ (8 ≤ s.colorFrame.depth ∧ s.colorFrame.depth ≤ 16) → ∀ i, i = .upsample ∨ i = .convert →
      exec i s = .next (s.raise ⟨.invalidDepth, .cu, BitVec.ofNat 32 (s.colorFrame.depth + 0x010 * 65536)⟩)) ∧
    (8 ≤ s.colorFrame.depth → s.colorFrame.depth ≤ 16 →
      (s.colorFrame.sampling = .mono → ∀ i, i = .upsample ∨ i = .convert →
        exec i s = .next (s.raise ⟨.invalidChromaFormat, .cu, 3⟩)) ∧
      ∀ c, s.colorFrame.sampling = .chroma c →
        (∀ e, checkBuffers s.params (upsampleBufs s c) = .error e → exec .upsample s = .next (s.raise e)) ∧
        (matrixOf s.params (resolveMc s.colorFrame.mc s.params.defaultMcColor) = none →
          ∃ e, exec .convert s = .next (s.raise e) ∧ e.code = .unsupportedColorMetadata ∧ e.stage = .cscColor ∧
            e.info.extractLsb' 0 8 = BitVec.ofNat 8 (resolveMc s.colorFrame.mc s.params.defaultMcColor) ∧
            e.info.getLsbD 8 = decide (s.colorFrame.range = .full) ∧ e.info.extractLsb' 9 23 = 0) ∧
        (∀ mx, matrixOf s.params (resolveMc s.colorFrame.mc s.params.defaultMcColor) = some mx →
          ∀ e, checkBuffers s.params (convertBufs s c) = .error e → exec .convert s = .next (s.raise e)))

/-- R95, R111, R112, R154: the errors of CONVERT_GRAY and EXTRACT_ALPHA in their priority. -/
def Obligations.GrayCommandErrorPriority : Prop :=
  ∀ s : State,
    (¬ (8 ≤ s.colorFrame.depth ∧ s.colorFrame.depth ≤ 16) → exec .convertGray s =
      .next (s.raise ⟨.invalidDepth, .cscGray, BitVec.ofNat 32 (s.colorFrame.depth + 0x010 * 65536)⟩)) ∧
    (¬ (8 ≤ s.alphaFrame.depth ∧ s.alphaFrame.depth ≤ 16) → exec .extractAlpha s =
      .next (s.raise ⟨.invalidDepth, .cscGray, BitVec.ofNat 32 (s.alphaFrame.depth + 0x030 * 65536)⟩)) ∧
    (8 ≤ s.colorFrame.depth → s.colorFrame.depth ≤ 16 →
      (matrixOf s.params (resolveMc s.colorFrame.mc s.params.defaultMcGray) = none →
        ∃ e, exec .convertGray s = .next (s.raise e) ∧ e.code = .unsupportedColorMetadata ∧ e.stage = .cscGray ∧
          e.info.extractLsb' 0 8 = BitVec.ofNat 8 (resolveMc s.colorFrame.mc s.params.defaultMcGray) ∧
          e.info.getLsbD 8 = decide (s.colorFrame.range = .full) ∧ e.info.extractLsb' 9 23 = 0) ∧
      ∀ mx, matrixOf s.params (resolveMc s.colorFrame.mc s.params.defaultMcGray) = some mx →
        ∀ e, checkBuffers s.params (convertGrayBufs s) = .error e → exec .convertGray s = .next (s.raise e)) ∧
    (8 ≤ s.alphaFrame.depth → s.alphaFrame.depth ≤ 16 →
      (matrixOf s.params (resolveMc s.alphaFrame.mc s.params.defaultMcGray) = none →
        ∃ e, exec .extractAlpha s = .next (s.raise e) ∧ e.code = .unsupportedColorMetadata ∧ e.stage = .cscGray ∧
          e.info.extractLsb' 0 8 = BitVec.ofNat 8 (resolveMc s.alphaFrame.mc s.params.defaultMcGray) ∧
          e.info.getLsbD 8 = decide (s.alphaFrame.range = .full) ∧ e.info.extractLsb' 9 23 = 0) ∧
      ∀ mx, matrixOf s.params (resolveMc s.alphaFrame.mc s.params.defaultMcGray) = some mx →
        ∀ e, checkBuffers s.params (extractAlphaBufs s) = .error e → exec .extractAlpha s = .next (s.raise e))

/-- R119 to R122, R127, R154: COMPOSITE's errors, in their priority: the kinds, the dimensions, the pair of kinds, then
geometry and overlap. -/
def Obligations.CompositeErrorPriority : Prop :=
  ∀ s : State,
    (kindOf (kindCode s.cfg.cimgKind) = none → ∀ a, exec (.composite a) s =
      .next (s.raise ⟨.invalidImageKind, .ac, BitVec.ofNat 32 ((kindCode s.cfg.cimgKind).toNat + 0x044 * 65536)⟩)) ∧
    ∀ ck, kindOf (kindCode s.cfg.cimgKind) = some ck →
      (∀ e, checkBuffers s.params (copyBufs s ck) = .error e → exec (.composite false) s = .next (s.raise e)) ∧
      (alphaKindOf (kindCode s.cfg.aimgKind) = none → exec (.composite true) s =
        .next (s.raise
          ⟨.invalidImageKind, .ac, BitVec.ofNat 32 ((kindCode s.cfg.aimgKind).toNat + 0x04C * 65536)⟩)) ∧
      ∀ ak, alphaKindOf (kindCode s.cfg.aimgKind) = some ak →
        (¬ (s.colorFrame.w = s.alphaFrame.w ∧ s.colorFrame.h = s.alphaFrame.h) →
          exec (.composite true) s = .next (s.raise ⟨.dimensionMismatch, .ac, s.cfg.aDim⟩)) ∧
        (s.colorFrame.w = s.alphaFrame.w → s.colorFrame.h = s.alphaFrame.h →
          (ck = .rgba8 ∧ ak = .gray16) ∨ (ck = .rgba16 ∧ ak = .gray16) ∨ (ck = .rgba16 ∧ ak = .gray8) →
          exec (.composite true) s =
            .next (s.raise ⟨.contractViolation, .ac, BitVec.ofNat 32 (ck.code + 16 * ak.image.code)⟩)) ∧
        (s.colorFrame.w = s.alphaFrame.w → s.colorFrame.h = s.alphaFrame.h →
          ∀ row, compositeRow ck ak = some row →
          ∀ e, checkBuffers s.params (blendBufs s ck ak row.result) = .error e →
            exec (.composite true) s = .next (s.raise e))

/-- R135: UNPREMULTIPLY refuses an OUT_KIND other than Rgba8 and Rgba16, and then a bad region; it never raises
BUFFER_OVERLAP. -/
def Obligations.UnpremultiplyErrors : Prop :=
  ∀ s : State,
    (kindOf (kindCode s.cfg.outKind) ≠ some .rgba8 → kindOf (kindCode s.cfg.outKind) ≠ some .rgba16 →
      exec .unpremultiply s =
        .next (s.raise ⟨.invalidImageKind, .up, BitVec.ofNat 32 ((kindCode s.cfg.outKind).toNat + 0x054 * 65536)⟩)) ∧
    (∀ k, k = .rgba8 ∨ k = .rgba16 → kindOf (kindCode s.cfg.outKind) = some k →
      ((s.out k).buffer true).badGeometry (memSize s.params) = true →
      exec .unpremultiply s = .next (s.raise ⟨.invalidGeometry, .validation, 0x050⟩)) ∧
    (∀ t, exec .unpremultiply s = .next t → s.status.errCode ≠ .bufferOverlap → t.status.errCode ≠ .bufferOverlap)

/-- R143, R95, R154: FRAME's validation: within each class the stages in order, so the alpha stage before the color
stage; of the bad regions the first in the order S1, S2, S3, by offset within a stage, and of the overlaps the least
pair of offsets (how R143, R151 and R154 fit together is the model's reading, assumption 19). -/
def Obligations.FrameErrorPriority : Prop :=
  ∀ (s : State) (p : Bool),
    let depthErr := fun (f : Frame) (k : StageCode) (off : Nat) =>
      s.raise ⟨.invalidDepth, k, BitVec.ofNat 32 (f.depth + off * 65536)⟩
    let colorStage := fun (m n : StageCode) => if s.colorFrame.sampling = .mono then m else n
    let colorDefault := if s.colorFrame.sampling = .mono then s.params.defaultMcGray else s.params.defaultMcColor
    let legal := fun (f : Frame) => 8 ≤ f.depth ∧ f.depth ≤ 16
    let supported := fun (f : Frame) (d : Nat) => mcSupported s.params (resolveMc f.mc d) = true
    let metadataErr := fun (e : Err) (f : Frame) (d : Nat) (k : StageCode) =>
      e.code = .unsupportedColorMetadata ∧ e.stage = k ∧ e.info.extractLsb' 0 8 = BitVec.ofNat 8 (resolveMc f.mc d) ∧
        e.info.getLsbD 8 = decide (f.range = .full) ∧ e.info.extractLsb' 9 23 = 0
    (¬ legal s.alphaFrame → exec (.frame true p) s = .next (depthErr s.alphaFrame .cscGray 0x030)) ∧
    (¬ legal s.colorFrame → exec (.frame false p) s = .next (depthErr s.colorFrame (colorStage .cscGray .cu) 0x010) ∧
      (legal s.alphaFrame →
        exec (.frame true p) s = .next (depthErr s.colorFrame (colorStage .cscGray .cu) 0x010))) ∧
    (legal s.colorFrame →
      (¬ supported s.colorFrame colorDefault →
        (∃ e, exec (.frame false p) s = .next (s.raise e) ∧
          metadataErr e s.colorFrame colorDefault (colorStage .cscGray .cscColor)) ∧
        (legal s.alphaFrame → supported s.alphaFrame s.params.defaultMcGray →
          ∃ e, exec (.frame true p) s = .next (s.raise e) ∧
            metadataErr e s.colorFrame colorDefault (colorStage .cscGray .cscColor))) ∧
      (legal s.alphaFrame → ¬ supported s.alphaFrame s.params.defaultMcGray →
        ∃ e, exec (.frame true p) s = .next (s.raise e) ∧
          metadataErr e s.alphaFrame s.params.defaultMcGray .cscGray) ∧
      (supported s.colorFrame colorDefault →
        (∀ e, checkBuffers s.params (framePlainBufs s) = .error e →
          exec (.frame false p) s = .next (s.raise e)) ∧
        (legal s.alphaFrame → supported s.alphaFrame s.params.defaultMcGray →
          (¬ (s.colorFrame.w = s.alphaFrame.w ∧ s.colorFrame.h = s.alphaFrame.h) →
            exec (.frame true p) s = .next (s.raise ⟨.dimensionMismatch, .ac, s.cfg.aDim⟩)) ∧
          (s.colorFrame.w = s.alphaFrame.w → s.colorFrame.h = s.alphaFrame.h → ∀ row,
            compositeRow (frameColorKind s.colorFrame) (grayKind s.alphaFrame.depth) = some row →
            let color := match s.colorFrame.sampling with
              | .mono => [s.planeYC.buffer]
              | .chroma c => [s.planeYC.buffer, (s.planeUC c).buffer, (s.planeVC c).buffer]
            let byStage := [s.planeYA.buffer, s.alphaImage.buffer true] ++ color ++
              [s.frameCimg.buffer true, (s.out row.result).buffer true]
            let bad := fun b : Buffer => b.badGeometry (memSize s.params)
            (∀ pre b post, byStage = pre ++ b :: post → (∀ c ∈ pre, bad c = false) → bad b = true →
              exec (.frame true p) s =
                .next (s.raise ⟨.invalidGeometry, .validation, BitVec.ofNat 32 b.offset⟩)) ∧
            ((∀ b ∈ byStage, bad b = false) → ∀ e, checkOverlap (frameAlphaBufs s row.result) = .error e →
              exec (.frame true p) s = .next (s.raise e))))))

/-- R142: FRAME raises neither INVALID_CHROMA_FORMAT nor INVALID_IMAGE_KIND nor CONTRACT_VIOLATION. -/
def Obligations.FrameNeverRaises : Prop :=
  ∀ (s t : State) (a p : Bool), exec (.frame a p) s = .next t → s.status.err = false → t.status.err = true →
    t.status.errCode ≠ .invalidChromaFormat ∧ t.status.errCode ≠ .invalidImageKind ∧
      t.status.errCode ≠ .contractViolation ∧ t.status.errCode ≠ .illegalCommand

/-! ## The commands' effects -/

/-- R140: NOP, the word 0 alone, completes in every state and changes STATUS alone; launched from reset it leaves STATUS
reading 0x0000_0002. -/
def Obligations.NopCompletes : Prop :=
  (∀ w : Word, decode w = .ok .nop ↔ w = 0) ∧
  (∀ s : State, exec .nop s = .next (s.completedWith s.cfg s.mem)) ∧
  ∃ t, exec .nop (State.reset.accept 0) = .next t ∧ readReg .status t = 0x00000002

/-- R48, R84, R85: UPSAMPLE writes the triple of every luma position, unmodified containers, at its place in the
triple buffer, and changes no other byte and no register but STATUS. (That only the planes' samples need be admitted,
not the bytes between rows, is the model's reading, assumption 9.) -/
def Obligations.UpsampleWritesTriples : Prop :=
  ∀ (s : State) (c : Chroma),
    8 ≤ s.colorFrame.depth → s.colorFrame.depth ≤ 16 → s.colorFrame.sampling = .chroma c →
    RegionsReady s.params (upsampleBufs s c) → BytesOk s.params (cuTouches s c ++ s.tri.touched) →
    s.tainted = false →
    let e := s.params.endian
    let z := if s.colorFrame.depth = 8 then SampleSize.one else SampleSize.two
    let w := s.colorFrame.w
    let h := s.colorFrame.h
    let out := s.cfg.outBase.toNat
    ∃ m, exec .upsample s = .next (s.completedWith s.cfg m) ∧
      (∀ x y, x < w → y < h →
        let cx := match c with | .c444 => x | .c422 => x / 2 | .c420 => x / 2
        let cy := match c with | .c444 => y | .c422 => y | .c420 => y / 2
        m.readSample e z (out + ((y * w + x) * 3 + 0) * z.bytes) =
          s.mem.readSample e z (s.cfg.cYBase.toNat + y * s.cfg.cYStride.toNat + x * z.bytes) ∧
        m.readSample e z (out + ((y * w + x) * 3 + 1) * z.bytes) =
          s.mem.readSample e z (s.cfg.cUBase.toNat + cy * s.cfg.cCStride.toNat + cx * z.bytes) ∧
        m.readSample e z (out + ((y * w + x) * 3 + 2) * z.bytes) =
          s.mem.readSample e z (s.cfg.cVBase.toNat + cy * s.cfg.cCStride.toNat + cx * z.bytes)) ∧
      (∀ a, a < out ∨ out + w * h * 3 * z.bytes ≤ a → m.read a = s.mem.read a)

/-- R47, R92, R110: CONVERT writes CSC of every pixel's triple, sets CIMG_KIND to Rgb8 or Rgb16, and changes nothing
else. (That only the planes' samples need be admitted is the model's reading, assumption 9.) -/
def Obligations.ConvertWritesColorImage : Prop :=
  ∀ (s : State) (c : Chroma) (mx : Matrix), s.params.wf = true →
    8 ≤ s.colorFrame.depth → s.colorFrame.depth ≤ 16 → s.colorFrame.sampling = .chroma c →
    matrixOf s.params (resolveMc s.colorFrame.mc s.params.defaultMcColor) = some mx →
    RegionsReady s.params (convertBufs s c) → BytesOk s.params (cuTouches s c ++ s.rgbImage.touched) →
    s.tainted = false →
    let e := s.params.endian
    let n := s.colorFrame.depth
    let z := if n = 8 then SampleSize.one else SampleSize.two
    let w := s.colorFrame.w
    let h := s.colorFrame.h
    let img := s.cfg.cimgBase.toNat
    ∃ m, exec .convert s =
        .next (s.completedWith { s.cfg with cimgKind := if n = 8 then 0 else 1 } m) ∧
      (∀ x y, x < w → y < h →
        let cx := match c with | .c444 => x | .c422 => x / 2 | .c420 => x / 2
        let cy := match c with | .c444 => y | .c422 => y | .c420 => y / 2
        let rgb := csc s.params n s.colorFrame.range (resolveMc s.colorFrame.mc s.params.defaultMcColor) mx
          ⟨s.mem.readSample e z (s.cfg.cYBase.toNat + y * s.cfg.cYStride.toNat + x * z.bytes),
           s.mem.readSample e z (s.cfg.cUBase.toNat + cy * s.cfg.cCStride.toNat + cx * z.bytes),
           s.mem.readSample e z (s.cfg.cVBase.toNat + cy * s.cfg.cCStride.toNat + cx * z.bytes)⟩
        m.readSample e z (img + ((y * w + x) * 3 + 0) * z.bytes) = rgb.r ∧
        m.readSample e z (img + ((y * w + x) * 3 + 1) * z.bytes) = rgb.g ∧
        m.readSample e z (img + ((y * w + x) * 3 + 2) * z.bytes) = rgb.b) ∧
      (∀ a, a < img ∨ img + w * h * 3 * z.bytes ≤ a → m.read a = s.mem.read a)

/-- R106, R108, R111: CONVERT_GRAY writes the gray value of every luma sample whatever SAMPLING holds, sets CIMG_KIND
to Gray8 or Gray16, and changes nothing else. (That only the plane's samples need be admitted is the model's reading,
assumption 9.) -/
def Obligations.ConvertGrayWritesGrayImage : Prop :=
  ∀ (s : State) (mx : Matrix), s.params.wf = true →
    8 ≤ s.colorFrame.depth → s.colorFrame.depth ≤ 16 →
    matrixOf s.params (resolveMc s.colorFrame.mc s.params.defaultMcGray) = some mx →
    RegionsReady s.params (convertGrayBufs s) → BytesOk s.params (s.planeYC.touched ++ s.grayImage.touched) →
    s.tainted = false →
    let e := s.params.endian
    let n := s.colorFrame.depth
    let z := if n = 8 then SampleSize.one else SampleSize.two
    let w := s.colorFrame.w
    let h := s.colorFrame.h
    let img := s.cfg.cimgBase.toNat
    ∃ m, exec .convertGray s =
        .next (s.completedWith { s.cfg with cimgKind := if n = 8 then 4 else 5 } m) ∧
      (∀ x y, x < w → y < h → m.readSample e z (img + (y * w + x) * z.bytes) =
        (csc s.params n s.colorFrame.range (resolveMc s.colorFrame.mc s.params.defaultMcGray) mx
          ⟨s.mem.readSample e z (s.cfg.cYBase.toNat + y * s.cfg.cYStride.toNat + x * z.bytes),
            2 ^ (n - 1), 2 ^ (n - 1)⟩).g) ∧
      (∀ a, a < img ∨ img + w * h * z.bytes ≤ a → m.read a = s.mem.read a)

/-- R106, R108, R112: EXTRACT_ALPHA does to the alpha frame and AIMG what CONVERT_GRAY does to the color frame and
CIMG. (That only the plane's samples need be admitted is the model's reading, assumption 9.) -/
def Obligations.ExtractAlphaWritesAlphaImage : Prop :=
  ∀ (s : State) (mx : Matrix), s.params.wf = true →
    8 ≤ s.alphaFrame.depth → s.alphaFrame.depth ≤ 16 →
    matrixOf s.params (resolveMc s.alphaFrame.mc s.params.defaultMcGray) = some mx →
    RegionsReady s.params (extractAlphaBufs s) → BytesOk s.params (s.planeYA.touched ++ s.alphaImage.touched) →
    s.tainted = false →
    let e := s.params.endian
    let n := s.alphaFrame.depth
    let z := if n = 8 then SampleSize.one else SampleSize.two
    let w := s.alphaFrame.w
    let h := s.alphaFrame.h
    let img := s.cfg.aimgBase.toNat
    ∃ m, exec .extractAlpha s =
        .next (s.completedWith { s.cfg with aimgKind := if n = 8 then 4 else 5 } m) ∧
      (∀ x y, x < w → y < h → m.readSample e z (img + (y * w + x) * z.bytes) =
        (csc s.params n s.alphaFrame.range (resolveMc s.alphaFrame.mc s.params.defaultMcGray) mx
          ⟨s.mem.readSample e z (s.cfg.aYBase.toNat + y * s.cfg.aYStride.toNat + x * z.bytes),
            2 ^ (n - 1), 2 ^ (n - 1)⟩).g) ∧
      (∀ a, a < img ∨ img + w * h * z.bytes ≤ a → m.read a = s.mem.read a)

/-- R118: COMPOSITE with A = 0 copies CIMG byte for byte to OUT and sets OUT_KIND to CIMG_KIND, for every legal kind,
and changes nothing else. -/
def Obligations.CompositeWithoutAlphaCopies : Prop :=
  ∀ (s : State) (ck : ImageKind), kindOf (kindCode s.cfg.cimgKind) = some ck →
    RegionsReady s.params (copyBufs s ck) → BytesOk s.params ((s.cimg ck).touched ++ (s.out ck).touched) →
    s.tainted = false →
    let len := s.colorFrame.w * s.colorFrame.h * ck.channels * ck.size.bytes
    ∃ m, exec (.composite false) s =
        .next (s.completedWith { s.cfg with outKind := BitVec.ofNat 32 (kindCode s.cfg.cimgKind).toNat } m) ∧
      (∀ j, j < len → m.read (s.cfg.outBase.toNat + j) = s.mem.read (s.cfg.cimgBase.toNat + j)) ∧
      (∀ a, a < s.cfg.outBase.toNat ∨ s.cfg.outBase.toNat + len ≤ a → m.read a = s.mem.read a)

/-- R116, R123: the compositing table, row by row, with w the widening `(v << 8) | v`. -/
def Obligations.CompositingTable : Prop :=
  ∀ (px : Nat → Nat) (a : Nat),
    let w := fun v : Nat => (v <<< 8) ||| v
    let row := fun ck ak => (compositeRow ck ak).map fun r => (r.result, r.pixel px a)
    row .rgb8 .gray8 = some (.rgba8, [px 0, px 1, px 2, a]) ∧
    row .rgb8 .gray16 = some (.rgba16, [w (px 0), w (px 1), w (px 2), a]) ∧
    row .rgb16 .gray8 = some (.rgba16, [px 0, px 1, px 2, w a]) ∧
    row .rgb16 .gray16 = some (.rgba16, [px 0, px 1, px 2, a]) ∧
    row .rgba8 .gray8 = some (.rgba8, [px 0, px 1, px 2, a]) ∧
    row .rgba8 .gray16 = none ∧ row .rgba16 .gray8 = none ∧ row .rgba16 .gray16 = none ∧
    row .gray8 .gray8 = some (.rgba8, [px 0, px 0, px 0, a]) ∧
    row .gray8 .gray16 = some (.rgba16, [w (px 0), w (px 0), w (px 0), a]) ∧
    row .gray16 .gray8 = some (.rgba16, [px 0, px 0, px 0, w a]) ∧
    row .gray16 .gray16 = some (.rgba16, [px 0, px 0, px 0, a])

/-- R123, R124, R127: COMPOSITE with A = 1 writes the table's pixel at every pixel of OUT, sets OUT_KIND to the result
kind, and changes nothing else. -/
def Obligations.CompositeWithAlphaBlends : Prop :=
  ∀ (s : State) (ck : ImageKind) (ak : AlphaKind) (row : Composition),
    kindOf (kindCode s.cfg.cimgKind) = some ck → alphaKindOf (kindCode s.cfg.aimgKind) = some ak →
    s.colorFrame.w = s.alphaFrame.w → s.colorFrame.h = s.alphaFrame.h → compositeRow ck ak = some row →
    RegionsReady s.params (blendBufs s ck ak row.result) →
    BytesOk s.params ((s.cimg ck).touched ++ (s.aimg ak).touched ++ (s.out row.result).touched) →
    s.tainted = false →
    let e := s.params.endian
    let zr := row.result.size
    let out := s.cfg.outBase.toNat
    let npx := s.colorFrame.w * s.colorFrame.h
    ∃ m, exec (.composite true) s =
        .next (s.completedWith { s.cfg with outKind := BitVec.ofNat 32 row.result.code } m) ∧
      (row.result = .rgba8 ↔ ck.size = .one ∧ ak = .gray8) ∧
      (∀ k c, k < npx → c < 4 →
        (row.pixel
          (fun j => s.mem.readSample e ck.size (s.cfg.cimgBase.toNat + (k * ck.channels + j) * ck.size.bytes))
          (s.mem.readSample e ak.image.size (s.cfg.aimgBase.toNat + k * ak.image.size.bytes)))[c]? =
          some (m.readSample e zr (out + (k * 4 + c) * zr.bytes))) ∧
      (∀ a, a < out ∨ out + npx * 4 * zr.bytes ≤ a → m.read a = s.mem.read a)

/-- R129, R130, R131, R135: UNPREMULTIPLY replaces each color channel of a pixel whose alpha is not 0 by
min(MAX, round half up of v·MAX/a), leaves pixels with alpha 0 and every alpha alone, and changes nothing else. (That the
color bytes of pixels with alpha 0 need not be admitted is the model's reading, assumption 9.) -/
def Obligations.UnpremultiplyDividesColor : Prop :=
  ∀ (s : State) (k : ImageKind), k = .rgba8 ∨ k = .rgba16 → kindOf (kindCode s.cfg.outKind) = some k →
    RegionsReady s.params (unpremulBufs s k) →
    (∀ j, j < s.colorFrame.w * s.colorFrame.h →
      BytesOk s.params (unpremulTouches s.params.endian (s.out k) s.mem j)) →
    s.tainted = false →
    let e := s.params.endian
    let z := k.size
    let max := if k = .rgba8 then 255 else 65535
    let out := s.cfg.outBase.toNat
    let npx := s.colorFrame.w * s.colorFrame.h
    let before := fun j c => s.mem.readSample e z (out + (j * 4 + c) * z.bytes)
    ∃ m, exec .unpremultiply s = .next (s.completedWith s.cfg m) ∧
      (∀ j c, j < npx → c < 4 →
        m.readSample e z (out + (j * 4 + c) * z.bytes) =
          if before j 3 = 0 ∨ c = 3 then before j c
          else Nat.min max ((2 * (before j c * max) + before j 3) / (2 * before j 3))) ∧
      (∀ a, a < out ∨ out + npx * 4 * z.bytes ≤ a → m.read a = s.mem.read a)

/-- R142, R145: FRAME with A = 0 completes, and leaves the memory and the configuration registers that CONVERT (or,
for Monochrome, CONVERT_GRAY) and then COMPOSITE with A = 0 leave, whatever P is. (That only the planes' samples need be
admitted is the model's reading, assumption 9.) -/
def Obligations.FrameWithoutAlphaIsItsStages : Prop :=
  ∀ (s : State) (p : Bool) (mx : Matrix),
    8 ≤ s.colorFrame.depth → s.colorFrame.depth ≤ 16 →
    matrixOf s.params (resolveMc s.colorFrame.mc (if s.colorFrame.sampling = .mono then s.params.defaultMcGray
      else s.params.defaultMcColor)) = some mx →
    RegionsReady s.params (framePlainBufs s) →
    BytesOk s.params
      (frameColorReads s ++ s.frameCimg.touched ++ (s.out (frameColorKind s.colorFrame)).touched) →
    s.tainted = false →
    ∃ s₂ s₃, exec (if s.colorFrame.sampling = .mono then .convertGray else .convert) s = .next s₂ ∧
      exec (.composite false) s₂ = .next s₃ ∧
      exec (.frame false p) s = .next (s.completedWith s₃.cfg s₃.mem)

/-- R142, R145: FRAME with A = 1 completes, and leaves the memory and the configuration registers that EXTRACT_ALPHA,
then CONVERT (or CONVERT_GRAY), then COMPOSITE with A = 1, then with P = 1 UNPREMULTIPLY leave. (That only the planes'
samples need be admitted is the model's reading, assumption 9.) -/
def Obligations.FrameWithAlphaIsItsStages : Prop :=
  ∀ (s : State) (p : Bool) (ma mx : Matrix) (row : Composition),
    8 ≤ s.alphaFrame.depth → s.alphaFrame.depth ≤ 16 → 8 ≤ s.colorFrame.depth → s.colorFrame.depth ≤ 16 →
    matrixOf s.params (resolveMc s.alphaFrame.mc s.params.defaultMcGray) = some ma →
    matrixOf s.params (resolveMc s.colorFrame.mc (if s.colorFrame.sampling = .mono then s.params.defaultMcGray
      else s.params.defaultMcColor)) = some mx →
    s.colorFrame.w = s.alphaFrame.w → s.colorFrame.h = s.alphaFrame.h →
    compositeRow (frameColorKind s.colorFrame) (grayKind s.alphaFrame.depth) = some row →
    RegionsReady s.params (frameAlphaBufs s row.result) →
    BytesOk s.params (s.planeYA.touched ++ s.alphaImage.touched ++
      (frameColorReads s ++ s.frameCimg.touched ++ (s.out row.result).touched)) →
    s.tainted = false →
    ∃ s₁ s₂ s₃ s₄, exec .extractAlpha s = .next s₁ ∧
      exec (if s.colorFrame.sampling = .mono then .convertGray else .convert) s₁ = .next s₂ ∧
      exec (.composite true) s₂ = .next s₃ ∧
      (if p then exec .unpremultiply s₃ = .next s₄ else s₄ = s₃) ∧
      exec (.frame true p) s = .next (s.completedWith s₄.cfg s₄.mem)

/-- R114: a command whose frames are empty, its metadata legal, completes with DONE and its kind registers written,
and changes no memory, whatever the base and stride registers hold. -/
def Obligations.EmptyFramesComplete : Prop :=
  ∀ s : State, s.tainted = false →
    let gray := fun n : Nat => if n = 8 then (4 : Word) else 5
    let rgb := fun n : Nat => if n = 8 then (0 : Word) else 1
    let emptyC := s.colorFrame.w = 0 ∨ s.colorFrame.h = 0
    let emptyA := s.alphaFrame.w = 0 ∨ s.alphaFrame.h = 0
    let legal := fun f : Frame => 8 ≤ f.depth ∧ f.depth ≤ 16
    let supported := fun (f : Frame) (d : Nat) => mcSupported s.params (resolveMc f.mc d) = true
    (emptyC → legal s.colorFrame → s.colorFrame.sampling ≠ .mono →
      exec .upsample s = .next (s.completedWith s.cfg s.mem)) ∧
    (emptyC → legal s.colorFrame → s.colorFrame.sampling ≠ .mono →
      supported s.colorFrame s.params.defaultMcColor →
      exec .convert s = .next (s.completedWith { s.cfg with cimgKind := rgb s.colorFrame.depth } s.mem)) ∧
    (emptyC → legal s.colorFrame → supported s.colorFrame s.params.defaultMcGray →
      exec .convertGray s = .next (s.completedWith { s.cfg with cimgKind := gray s.colorFrame.depth } s.mem)) ∧
    (emptyA → legal s.alphaFrame → supported s.alphaFrame s.params.defaultMcGray →
      exec .extractAlpha s = .next (s.completedWith { s.cfg with aimgKind := gray s.alphaFrame.depth } s.mem)) ∧
    (emptyC → ∀ k, kindOf (kindCode s.cfg.cimgKind) = some k → exec (.composite false) s =
      .next (s.completedWith { s.cfg with outKind := (kindCode s.cfg.cimgKind).setWidth 32 } s.mem)) ∧
    (emptyC → s.colorFrame.w = s.alphaFrame.w → s.colorFrame.h = s.alphaFrame.h →
      ∀ ck ak row, kindOf (kindCode s.cfg.cimgKind) = some ck → alphaKindOf (kindCode s.cfg.aimgKind) = some ak →
        compositeRow ck ak = some row → exec (.composite true) s =
          .next (s.completedWith { s.cfg with outKind := if ck.size = .one ∧ ak = .gray8 then 2 else 3 } s.mem)) ∧
    (emptyC → kindCode s.cfg.outKind = 2 ∨ kindCode s.cfg.outKind = 3 →
      exec .unpremultiply s = .next (s.completedWith s.cfg s.mem)) ∧
    (emptyC → legal s.colorFrame →
      supported s.colorFrame (if s.colorFrame.sampling = .mono then s.params.defaultMcGray
        else s.params.defaultMcColor) → ∀ p : Bool,
      let colorKind := if s.colorFrame.sampling = .mono then gray s.colorFrame.depth else rgb s.colorFrame.depth
      exec (.frame false p) s =
        .next (s.completedWith { s.cfg with cimgKind := colorKind, outKind := colorKind } s.mem) ∧
      (s.colorFrame.w = s.alphaFrame.w → s.colorFrame.h = s.alphaFrame.h → legal s.alphaFrame →
        supported s.alphaFrame s.params.defaultMcGray →
        exec (.frame true p) s = .next (s.completedWith
          { s.cfg with
            cimgKind := colorKind
            aimgKind := gray s.alphaFrame.depth
            outKind := if s.colorFrame.depth = 8 ∧ s.alphaFrame.depth = 8 then 2 else 3 } s.mem)))

/-! ## The arithmetic -/

/-- R96 to R103: CSC_REF is the function the rules give over the exact rationals, for every legal depth, both ranges,
Identity and every pair of rationals Kr and Kb, of either sign, whose Kg is not 0. -/
def Obligations.ReferenceConversionIsExact : Prop :=
  ∀ (n : Nat) (range : ColorRange) (t : Yuv), 8 ≤ n → n ≤ 16 →
    let mIn : ℚ := 2 ^ n - 1
    let mOut : Nat := if n = 8 then 255 else 65535
    let y : ℚ := min (t.y : ℚ) mIn
    let u : ℚ := min (t.u : ℚ) mIn
    let v : ℚ := min (t.v : ℚ) mIn
    let sc : ℚ := 2 ^ (n - 8)
    let yn : ℚ := match range with | .full => y / mIn | .limited => (y - 16 * sc) / (219 * sc)
    let pb : ℚ := match range with | .full => (u - 2 ^ (n - 1)) / mIn | .limited => (u - 128 * sc) / (224 * sc)
    let pr : ℚ := match range with | .full => (v - 2 ^ (n - 1)) / mIn | .limited => (v - 128 * sc) / (224 * sc)
    let q : ℚ → Int := fun x => min (max ⌊x * mOut + 1 / 2⌋ 0) mOut
    ((cscRef n range .identity t).r = q yn ∧ (cscRef n range .identity t).g = q yn ∧
      (cscRef n range .identity t).b = q yn) ∧
    ∀ k : KrKb, 0 < k.den → k.kr + k.kb ≠ k.den →
      let kr : ℚ := (k.kr : ℚ) / k.den
      let kb : ℚ := (k.kb : ℚ) / k.den
      let kg : ℚ := 1 - kr - kb
      let rn : ℚ := yn + 2 * (1 - kr) * pr
      let bn : ℚ := yn + 2 * (1 - kb) * pb
      let gn : ℚ := (yn - kr * rn - kb * bn) / kg
      ((cscRef n range (.ncl k) t).r : Int) = q rn ∧ ((cscRef n range (.ncl k) t).g : Int) = q gn ∧
        ((cscRef n range (.ncl k) t).b : Int) = q bn

/-- R8, R103, R104: CSC is CSC_REF but at the points the parameters list, where it is what they list; and for every
admitted choice of the parameters, CSC has the properties P1, P3, P4 and P5 (it is a function of the depth, range, matrix
and triple, which is P2). (The list is the model's form of the parameter, assumption 1.) -/
def Obligations.ConversionHasProperties : Prop :=
  (∀ (p : Params) (n : Nat) (range : ColorRange) (mc : Nat) (mx : Matrix) (t : Yuv),
    let listed := fun c : CscRow =>
      c.depth = n ∧ c.range = range ∧ c.mc = mc ∧ c.y = t.y ∧ c.u = t.u ∧ c.v = t.v
    ((∀ c ∈ p.cscRows, ¬ listed c) → csc p n range mc mx t = cscRef n range mx t) ∧
    ((∃ c ∈ p.cscRows, listed c) → ∃ c ∈ p.cscRows, listed c ∧ csc p n range mc mx t = ⟨c.r, c.g, c.b⟩)) ∧
  Params.default.cscRows = [] ∧
  ∀ p : Params, p.wf = true →
    (∀ n range mc mx t, (csc p n range mc mx t).r ≤ (if n = 8 then 255 else 65535) ∧
      (csc p n range mc mx t).g ≤ (if n = 8 then 255 else 65535) ∧
      (csc p n range mc mx t).b ≤ (if n = 8 then 255 else 65535)) ∧
    (∀ mx, matrixOf p 1 = some mx → csc p 8 .full 1 mx ⟨255, 128, 128⟩ = ⟨255, 255, 255⟩ ∧
      csc p 8 .full 1 mx ⟨0, 128, 128⟩ = ⟨0, 0, 0⟩) ∧
    (∀ n range mx t, matrixOf p 0 = some mx → (csc p n range 0 mx t).r = (csc p n range 0 mx t).g ∧
      (csc p n range 0 mx t).g = (csc p n range 0 mx t).b) ∧
    (∀ mx t, matrixOf p 0 = some mx → t.y < 256 → csc p 8 .full 0 mx t = ⟨t.y, t.y, t.y⟩)

/-- R107: under CSC_REF the gray function depends on no matrix, and the rule's three examples. -/
def Obligations.GrayIgnoresMatrix : Prop :=
  (∀ (n : Nat) (range : ColorRange) (k : KrKb) (y : Nat), 8 ≤ n → n ≤ 16 → 0 < k.den →
    k.kr + k.kb ≠ k.den →
    (cscRef n range (.ncl k) ⟨y, 2 ^ (n - 1), 2 ^ (n - 1)⟩).g =
      (cscRef n range .identity ⟨y, 2 ^ (n - 1), 2 ^ (n - 1)⟩).g) ∧
  (∀ y, y < 256 → (cscRef 8 .full .identity ⟨y, 128, 128⟩).g = y) ∧
  (cscRef 8 .limited .identity ⟨128, 128, 128⟩).g = 130 ∧ (cscRef 10 .full .identity ⟨512, 512, 512⟩).g = 32800

/-- R94, R95: how a frame's matrix resolves, that it is supported exactly when MC_SUPPORTED has its code, whatever RANGE
is, and what the check raises otherwise: UNSUPPORTED_COLOR_METADATA with the code in ERRINFO[7:0] and RANGE in bit 8.
R99, R100: code 0 is Identity, any other code has its own pair of KRKB, and the default table. (That MC_SUPPORTED is a
Bool for Identity and a list of codes from 1 to 31, R33, is the model's form, assumption 1.) -/
def Obligations.MatrixResolution : Prop :=
  (∀ w d, w.getLsbD 3 = false ∨ (w.extractLsb' 4 8).toNat = 2 → resolveMc (fmtMc w) d = d) ∧
  (∀ w d, w.getLsbD 3 = true → (w.extractLsb' 4 8).toNat ≠ 2 → resolveMc (fmtMc w) d = (w.extractLsb' 4 8).toNat) ∧
  ∀ (p : Params) (f : Frame) (d : Nat) (k : StageCode),
    ((∃ m, checkMatrix p f d k = .ok m) ↔ mcSupported p (resolveMc f.mc d) = true) ∧
    (∀ e, checkMatrix p f d k = .error e → e.code = .unsupportedColorMetadata ∧ e.stage = k ∧
      e.info.extractLsb' 0 8 = BitVec.ofNat 8 (resolveMc f.mc d) ∧
      e.info.getLsbD 8 = decide (f.range = .full) ∧ e.info.extractLsb' 9 23 = 0) ∧
    (∀ mc, mcSupported p mc = true ↔
      (mc = 0 ∧ p.identity = true) ∨ (0 < mc ∧ mc < 32 ∧ ∃ e ∈ p.krkb, e.code = mc)) ∧
    (∀ r, checkMatrix p f d k = .ok r → r.1 = resolveMc f.mc d ∧ matrixOf p r.1 = some r.2) ∧
    (∀ mc mx, matrixOf p mc = some mx →
      (mc = 0 ∧ mx = .identity) ∨ (0 < mc ∧ ∃ e ∈ p.krkb, e.code = mc ∧ mx = .ncl e)) ∧
    (let ratios := fun (mc : Nat) (kr kb : ℚ) => ∃ e, matrixOf Params.default mc = some (.ncl e) ∧
        (e.kr : ℚ) / e.den = kr ∧ (e.kb : ℚ) / e.den = kb
     matrixOf Params.default 0 = some .identity ∧ ratios 1 0.2126 0.0722 ∧ ratios 5 0.299 0.114 ∧
      ratios 6 0.299 0.114 ∧ ratios 9 0.2627 0.0593 ∧ Params.default.defaultMcColor = 1 ∧
      Params.default.defaultMcGray = 0)

/-- R87, R89: positions that share a chroma sample get the same U and V, and every chroma sample read is inside its
plane. -/
def Obligations.ChromaIsShared : Prop :=
  (∀ (s : State) (m : Memory) (i j dx dy : Nat), dx < 2 → dy < 2 →
    (upsample s m .c420 (2 * i + dx) (2 * j + dy)).u = (upsample s m .c420 (2 * i) (2 * j)).u ∧
    (upsample s m .c420 (2 * i + dx) (2 * j + dy)).v = (upsample s m .c420 (2 * i) (2 * j)).v) ∧
  (∀ (s : State) (m : Memory) (i y dx : Nat), dx < 2 →
    (upsample s m .c422 (2 * i + dx) y).u = (upsample s m .c422 (2 * i) y).u ∧
    (upsample s m .c422 (2 * i + dx) y).v = (upsample s m .c422 (2 * i) y).v) ∧
  ∀ (s : State) (c : Chroma) (x y : Nat), x < s.colorFrame.w → y < s.colorFrame.h →
    chromaX c x < (s.planeUC c).w ∧ chromaY c y < (s.planeUC c).h ∧
    chromaX c x < (s.planeVC c).w ∧ chromaY c y < (s.planeVC c).h

/-- R116, R117: widening is `(v << 8) | v`, that is v × 257, and fits 16 bits; it has the stated endpoints, is strictly
increasing (so injective) and keeps the sample as its high byte. -/
def Obligations.WideningLaws : Prop :=
  widen 0 = 0 ∧ widen 255 = 65535 ∧ widen 0xAB = 0xABAB ∧
  (∀ v, v < 256 → widen v = (v <<< 8 ||| v) ∧ widen v = v * 257 ∧ widen v < 65536 ∧ widen v >>> 8 = v) ∧
  (∀ v w, v < w → w < 256 → widen v < widen w)

/-- R132, R133, R134: unpremultiplying saturates where v > a or where rounding passes MAX, is the identity for an opaque
pixel, and undoes premultiplication within 1 wherever a > MAX / 3; at 8 bits the bound holds from a = 85 on and fails
for every a from 1 to 84. -/
def Obligations.UnpremultiplyArithmetic : Prop :=
  (∀ max, max = 255 ∨ max = 65535 →
    (∀ v a, 0 < a → a ≤ max → a ≤ v ∨ max < rhu (v * max) a → unpremul max v a = max) ∧
    (∀ v, v ≤ max → unpremul max v max = v) ∧
    (∀ c a, c ≤ max → a ≤ max → max < 3 * a →
      unpremul max (rhu (c * a) max) a ≤ c + 1 ∧ c ≤ unpremul max (rhu (c * a) max) a + 1)) ∧
  unpremul 255 255 128 = 255 ∧ rhu (128 * 1) 255 = 1 ∧ unpremul 255 1 1 = 255 ∧
  (∀ c a, c ≤ 255 → 85 ≤ a → a ≤ 255 →
    unpremul 255 (rhu (c * a) 255) a ≤ c + 1 ∧ c ≤ unpremul 255 (rhu (c * a) 255) a + 1) ∧
  (∀ a, 0 < a → a ≤ 84 → ∃ c ≤ 255,
    ¬ (unpremul 255 (rhu (c * a) 255) a ≤ c + 1 ∧ c ≤ unpremul 255 (rhu (c * a) 255) a + 1))

/-! ## Invariants -/

/-- The invariant holds right after reset. -/
def Obligations.InvariantHoldsAtReset : Prop := Inv State.reset

/-- Every step keeps the invariant (R19, R20, R31, R34, R36, R37, R43). -/
def Obligations.StepKeepsInvariant : Prop := ∀ s t : State, Inv s → step s = .next t → Inv t

/-- R8: no step changes a parameter; and every step takes one turn off the agenda. -/
def Obligations.StepKeepsParameters : Prop :=
  ∀ s t : State, step s = .next t → t.params = s.params ∧ t.agenda = s.agenda.tail

/-- R35, R109: only these steps change a configuration register: a host write of that register while BUSY = 0, a
reset, and a command's completion, which changes kind registers only. -/
def Obligations.ConfigRegistersAreHeld : Prop :=
  ∀ s t : State, step s = .next t → t.cfg ≠ s.cfg →
    (∃ addr bytes v rest, s.agenda = .host (.regWrite addr bytes v) :: rest ∧
      (s.status.busy = false ∨ t.cfg = ConfigRegs.reset)) ∨
    (∃ rest, s.agenda = .host .hardReset :: rest) ∨
    (s.cur.isSome = true ∧ t.status.done = true ∧
      t.cfg = { s.cfg with
        cimgKind := t.cfg.cimgKind, aimgKind := t.cfg.aimgKind, outKind := t.cfg.outKind })
end

