-- ==== Sys2Proof/Laws/Memory.lean ====
section
/-! SUPPORT. The laws of memory: reading after writing, the canonical form, and the bytes of samples. -/

namespace Sys2Proof.Machine

/-! ### One byte -/

@[simp] theorem Memory.read_nil (a : Nat) : Memory.read [] a = 0 := rfl

theorem Memory.read_filter_same (m : Memory) (a : Nat) :
    Memory.read (m.filter (fun c => c.1 != a)) a = 0 := by
  induction m with
  | nil => rfl
  | cons c rest ih =>
    obtain ⟨k, v⟩ := c
    by_cases h : k = a
    · simpa [h] using ih
    · simp [h, Memory.read, Ne.symm h, ih]

theorem Memory.read_filter_other (m : Memory) {a b : Nat} (h : b ≠ a) :
    Memory.read (m.filter (fun c => c.1 != a)) b = Memory.read m b := by
  induction m with
  | nil => rfl
  | cons c rest ih =>
    obtain ⟨k, v⟩ := c
    by_cases hk : k = a
    · simp [hk, Memory.read, h, ih]
    · simp [hk, Memory.read, ih]

theorem Memory.read_insert_same (m : Memory) (a : Nat) (v : Byte) : Memory.read (m.insert a v) a = v := by
  induction m with
  | nil => simp [Memory.insert, Memory.read]
  | cons c rest ih =>
    obtain ⟨k, w⟩ := c
    unfold Memory.insert
    split
    · simp [Memory.read]
    · split
      · simp [Memory.read]
      · simp [Memory.read, *]

theorem Memory.read_insert_other (m : Memory) {a b : Nat} (v : Byte) (h : b ≠ a) :
    Memory.read (m.insert a v) b = Memory.read m b := by
  induction m with
  | nil => simp [Memory.insert, Memory.read, h]
  | cons c rest ih =>
    obtain ⟨k, w⟩ := c
    unfold Memory.insert
    split
    · simp [Memory.read, h]
    · split
      · subst k; simp [Memory.read, h]
      · simp [Memory.read, ih]

/-- A read after a write to the same address gives the byte written. -/
@[simp] theorem Memory.read_write_same (m : Memory) (a : Nat) (v : Byte) : Memory.read (m.write a v) a = v := by
  unfold Memory.write
  split
  · next h => rw [Memory.read_filter_same, h]
  · exact Memory.read_insert_same m a v

/-- A write leaves every other address alone. -/
theorem Memory.read_write_other (m : Memory) {a b : Nat} (v : Byte) (h : b ≠ a) :
    Memory.read (m.write a v) b = Memory.read m b := by
  unfold Memory.write
  split
  · exact Memory.read_filter_other m h
  · exact Memory.read_insert_other m v h

theorem Memory.read_write (m : Memory) (a b : Nat) (v : Byte) :
    Memory.read (m.write a v) b = if b = a then v else Memory.read m b := by
  split
  · next h => rw [h, Memory.read_write_same]
  · next h => exact Memory.read_write_other m v h

/-! ### Many bytes -/

@[simp] theorem Memory.writeAll_nil (m : Memory) : m.writeAll [] = m := rfl

@[simp] theorem Memory.writeAll_cons (m : Memory) (c : Host.Cell) (cs : List Host.Cell) :
    m.writeAll (c :: cs) = Memory.writeAll (m.write c.1 c.2) cs := rfl

theorem Memory.writeAll_append (m : Memory) (cs ds : List Host.Cell) :
    m.writeAll (cs ++ ds) = Memory.writeAll (m.writeAll cs) ds := by
  simp [Memory.writeAll, List.foldl_append]

/-- Bytes at addresses not written keep their value. -/
theorem Memory.read_writeAll_other (cs : List Host.Cell) (m : Memory) (a : Nat) (h : ∀ c ∈ cs, c.1 ≠ a) :
    Memory.read (m.writeAll cs) a = Memory.read m a := by
  induction cs generalizing m with
  | nil => rfl
  | cons c cs ih =>
    simp only [List.mem_cons, forall_eq_or_imp] at h
    rw [Memory.writeAll_cons, ih _ h.2, Memory.read_write_other _ _ (Ne.symm h.1)]

/-- A byte written once and at no later cell reads as written. -/
theorem Memory.read_writeAll_mem (cs : List Host.Cell) (m : Memory) (a : Nat) (v : Byte) (hm : (a, v) ∈ cs)
    (hv : ∀ c ∈ cs, c.1 = a → c.2 = v) : Memory.read (m.writeAll cs) a = v := by
  induction cs generalizing m with
  | nil => cases hm
  | cons c cs ih =>
    rw [Memory.writeAll_cons]
    by_cases hin : ∃ d ∈ cs, d.1 = a
    · obtain ⟨d, hd, hda⟩ := hin
      have hdv := hv d (List.mem_cons_of_mem _ hd) hda
      refine ih _ ?_ (fun e he => hv e (List.mem_cons_of_mem _ he))
      rw [← hda, ← hdv]
      exact hd
    · push Not at hin
      rw [Memory.read_writeAll_other _ _ _ hin]
      rcases List.mem_cons.1 hm with h | h
      · subst h; exact Memory.read_write_same _ _ _
      · exact absurd rfl (hin _ h)

/-- Two memories that agree on an address before a store agree on it after the same store. -/
theorem Memory.read_writeAll_congr (cs : List Host.Cell) (m n : Memory) (a : Nat)
    (h : Memory.read m a = Memory.read n a) : Memory.read (m.writeAll cs) a = Memory.read (n.writeAll cs) a := by
  induction cs generalizing m n with
  | nil => exact h
  | cons c cs ih =>
    rw [Memory.writeAll_cons, Memory.writeAll_cons]
    refine ih _ _ ?_
    rw [Memory.read_write, Memory.read_write, h]

/-! ### The canonical form -/

/-- The canonical form as a statement about the pairs. -/
theorem Memory.wf_iff (m : Memory) :
    m.wf = true ↔ (∀ c ∈ m, c.2 ≠ 0) ∧ m.Pairwise (fun c d => c.1 < d.1) := by
  induction m with
  | nil => simp [Memory.wf]
  | cons c rest ih =>
    obtain ⟨k, v⟩ := c
    cases rest with
    | nil => simp [Memory.wf]
    | cons d rest =>
      obtain ⟨k', v'⟩ := d
      simp only [Memory.wf, Bool.and_eq_true, bne_iff_ne, ne_eq, decide_eq_true_eq, ih, List.mem_cons,
        forall_eq_or_imp, List.pairwise_cons]
      constructor
      · rintro ⟨⟨h1, h2⟩, ⟨h3, h4⟩, h5, h6⟩
        exact ⟨⟨h1, h3, h4⟩, ⟨h2, fun c hc => lt_trans h2 (h5 c hc)⟩, h5, h6⟩
      · rintro ⟨⟨h1, h3, h4⟩, ⟨h2, -⟩, h5, h6⟩
        exact ⟨⟨h1, h2⟩, ⟨h3, h4⟩, h5, h6⟩

theorem Memory.mem_insert {m : Memory} {a : Nat} {v : Byte} {c : Host.Cell} (h : c ∈ m.insert a v) :
    c = (a, v) ∨ c ∈ m := by
  induction m with
  | nil => simpa [Memory.insert] using h
  | cons d rest ih =>
    obtain ⟨k, w⟩ := d
    unfold Memory.insert at h
    split at h
    · exact List.mem_cons.1 h
    · split at h
      · rcases List.mem_cons.1 h with h | h
        · exact .inl h
        · exact .inr (List.mem_cons_of_mem _ h)
      · rcases List.mem_cons.1 h with h | h
        · exact .inr (h ▸ List.mem_cons_self)
        · exact (ih h).imp_right (List.mem_cons_of_mem _)

theorem Memory.pairwise_insert {m : Memory} (a : Nat) (v : Byte) (h : m.Pairwise (fun c d => c.1 < d.1)) :
    (m.insert a v).Pairwise (fun c d => c.1 < d.1) := by
  induction m with
  | nil => simp [Memory.insert]
  | cons d rest ih =>
    obtain ⟨k, w⟩ := d
    obtain ⟨hk, hr⟩ := List.pairwise_cons.1 h
    unfold Memory.insert
    split
    · next hlt =>
      refine List.pairwise_cons.2 ⟨fun c hc => ?_, h⟩
      rcases List.mem_cons.1 hc with rfl | hc
      · exact hlt
      · exact lt_trans hlt (hk c hc)
    · split
      · next heq => subst heq; exact List.pairwise_cons.2 ⟨hk, hr⟩
      · next hnl hne =>
        refine List.pairwise_cons.2 ⟨fun c hc => ?_, ih hr⟩
        rcases Memory.mem_insert hc with rfl | hc
        · show k < a; omega
        · exact hk c hc

/-- A write keeps the canonical form. -/
theorem Memory.wf_write {m : Memory} (a : Nat) (v : Byte) (h : m.wf = true) : (m.write a v).wf = true := by
  rw [Memory.wf_iff] at h ⊢
  unfold Memory.write
  split
  · exact ⟨fun c hc => h.1 c (List.mem_of_mem_filter hc), h.2.filter _⟩
  · next hv =>
    refine ⟨fun c hc => ?_, Memory.pairwise_insert a v h.2⟩
    rcases Memory.mem_insert hc with rfl | hc
    · exact hv
    · exact h.1 c hc

theorem Memory.wf_writeAll {m : Memory} (cs : List Host.Cell) (h : m.wf = true) : (m.writeAll cs).wf = true := by
  induction cs generalizing m with
  | nil => exact h
  | cons c cs ih => exact ih (Memory.wf_write _ _ h)

/-- A write below the bound keeps every listed address below it. -/
theorem Memory.below_write {m : Memory} {bound a : Nat} (v : Byte) (h : m.below bound = true) (ha : a < bound) :
    (m.write a v).below bound = true := by
  simp only [Memory.below, List.all_eq_true, decide_eq_true_eq] at h ⊢
  intro c hc
  unfold Memory.write at hc
  split at hc
  · exact h c (List.mem_of_mem_filter hc)
  · rcases Memory.mem_insert hc with rfl | hc
    · exact ha
    · exact h c hc

theorem Memory.below_writeAll {m : Memory} {bound : Nat} (cs : List Host.Cell) (h : m.below bound = true)
    (hc : ∀ c ∈ cs, c.1 < bound) : (m.writeAll cs).below bound = true := by
  induction cs generalizing m with
  | nil => exact h
  | cons c cs ih =>
    simp only [List.mem_cons, forall_eq_or_imp] at hc
    exact ih (Memory.below_write _ h hc.1) hc.2

/-! ### Samples -/

theorem SampleSize.bytes_pos (z : SampleSize) : 0 < z.bytes := by cases z <;> decide

/-- A sample is below 256 to the number of its bytes. -/
theorem Memory.readSample_lt (m : Memory) (e : Endian) (z : SampleSize) (a : Nat) :
    m.readSample e z a < 256 ^ z.bytes := by
  cases z <;> cases e <;> simp only [Memory.readSample, SampleSize.bytes] <;> omega

/-- A sample depends on its own bytes only. -/
theorem Memory.readSample_congr {m n : Memory} (e : Endian) (z : SampleSize) (a : Nat)
    (h : ∀ j, j < z.bytes → Memory.read m (a + j) = Memory.read n (a + j)) :
    m.readSample e z a = n.readSample e z a := by
  cases z
  · have h0 := h 0 (by decide)
    cases e <;> simp_all [Memory.readSample]
  · have h0 := h 0 (by decide)
    have h1 := h 1 (by decide)
    cases e <;> simp_all [Memory.readSample]

/-- The addresses of a sample's bytes. -/
theorem sampleCells_addr {e : Endian} {z : SampleSize} {a v : Nat} {c : Host.Cell} (h : c ∈ sampleCells e z a v) :
    a ≤ c.1 ∧ c.1 < a + z.bytes := by
  cases z <;> cases e <;> simp [sampleCells, SampleSize.bytes] at h ⊢ <;> rcases h with rfl | rfl <;> simp

/-- `MemRead` after `MemWrite` gives the low bits of the value (R12, R44). -/
theorem readSample_sampleCells (m : Memory) (e : Endian) (z : SampleSize) (a v : Nat) :
    Memory.readSample (m.writeAll (sampleCells e z a v)) e z a = v % 256 ^ z.bytes := by
  have h1 : a + 1 ≠ a := by omega
  have h2 : a ≠ a + 1 := by omega
  cases z <;> cases e <;>
    simp [sampleCells, Memory.readSample, SampleSize.bytes, Memory.read_write] <;> omega

theorem runCells_addr {e : Endian} {z : SampleSize} {vs : List Nat} {a : Nat} {c : Host.Cell}
    (h : c ∈ runCells e z a vs) : a ≤ c.1 ∧ c.1 < a + vs.length * z.bytes := by
  induction vs generalizing a with
  | nil => cases h
  | cons v vs ih =>
    have hz := SampleSize.bytes_pos z
    rw [runCells, List.mem_append] at h
    rw [List.length_cons, Nat.add_one_mul]
    rcases h with h | h
    · have := sampleCells_addr h
      generalize vs.length * z.bytes = q
      omega
    · have := ih h
      generalize hq : vs.length * z.bytes = q at *
      omega

/-- A run of samples leaves every byte outside it alone. -/
theorem Memory.read_runCells_other (m : Memory) (e : Endian) (z : SampleSize) (a : Nat) (vs : List Nat) (b : Nat)
    (h : b < a ∨ a + vs.length * z.bytes ≤ b) :
    Memory.read (m.writeAll (runCells e z a vs)) b = Memory.read m b := by
  refine Memory.read_writeAll_other _ _ _ fun c hc => ?_
  have := runCells_addr hc
  omega

/-- Sample i of a run reads as the value written, reduced to its bytes. -/
theorem Memory.readSample_runCells (m : Memory) (e : Endian) (z : SampleSize) (a : Nat) (vs : List Nat) (i : Nat)
    (v : Nat) (h : vs[i]? = some v) :
    Memory.readSample (m.writeAll (runCells e z a vs)) e z (a + i * z.bytes) = v % 256 ^ z.bytes := by
  induction vs generalizing m a i with
  | nil => simp at h
  | cons w vs ih =>
    rw [runCells, Memory.writeAll_append]
    cases i with
    | zero =>
      simp only [List.getElem?_cons_zero, Option.some.injEq] at h
      subst h
      rw [Nat.zero_mul, Nat.add_zero, ← readSample_sampleCells m e z a w]
      refine Memory.readSample_congr e z a fun j hj => ?_
      exact Memory.read_runCells_other _ _ _ _ _ _ (by omega)
    | succ i =>
      rw [List.getElem?_cons_succ] at h
      have := ih (m.writeAll (sampleCells e z a w)) (a + z.bytes) i h
      rwa [show a + (i + 1) * z.bytes = a + z.bytes + i * z.bytes by rw [Nat.add_one_mul]; omega]

/-! ### Lists of pixels -/

/-- A run of equally long pixels, by pixel and channel. -/
theorem getElem?_flatMap_range {f : Nat → List Nat} {ch n : Nat} (hf : ∀ k, (f k).length = ch) (k c : Nat)
    (hk : k < n) (hc : c < ch) : ((List.range n).flatMap f)[k * ch + c]? = (f k)[c]? := by
  induction n generalizing k f with
  | zero => omega
  | succ n ih =>
    rw [List.range_succ_eq_map, List.flatMap_cons, List.flatMap_map]
    cases k with
    | zero => rw [Nat.zero_mul, Nat.zero_add, List.getElem?_append_left (by rw [hf]; exact hc)]
    | succ k =>
      have hle : (f 0).length ≤ (k + 1) * ch + c := by rw [hf, Nat.add_one_mul]; omega
      rw [List.getElem?_append_right hle, hf,
        show (k + 1) * ch + c - ch = k * ch + c by rw [Nat.add_one_mul]; omega]
      exact ih (f := fun j => f (j + 1)) (fun j => hf (j + 1)) k (by omega)

theorem length_flatMap_range {f : Nat → List Nat} {ch : Nat} (hf : ∀ k, (f k).length = ch) (n : Nat) :
    ((List.range n).flatMap f).length = n * ch := by
  simp [List.length_flatMap, hf]

end Sys2Proof.Machine
end

