-- ==== Sys2Proof/Laws/State.lean ====
section
/-! SUPPORT. For each update of the state, what every field is after it; and what the operands of a command depend
on. -/

namespace Sys2Proof.Machine

/-! ### enterStage -/

@[simp] theorem State.enterStage_ctrl (s : State) (k : StageCode) : (s.enterStage k).ctrl = s.ctrl := rfl
@[simp] theorem State.enterStage_status (s : State) (k : StageCode) : (s.enterStage k).status = s.status := rfl
@[simp] theorem State.enterStage_cmd (s : State) (k : StageCode) : (s.enterStage k).cmd = s.cmd := rfl
@[simp] theorem State.enterStage_cfg (s : State) (k : StageCode) : (s.enterStage k).cfg = s.cfg := rfl
@[simp] theorem State.enterStage_errInfo (s : State) (k : StageCode) : (s.enterStage k).errInfo = s.errInfo := rfl
@[simp] theorem State.enterStage_cur (s : State) (k : StageCode) : (s.enterStage k).cur = s.cur := rfl
@[simp] theorem State.enterStage_stage (s : State) (k : StageCode) : (s.enterStage k).stage = k := rfl
@[simp] theorem State.enterStage_mem (s : State) (k : StageCode) : (s.enterStage k).mem = s.mem := rfl
@[simp] theorem State.enterStage_tainted (s : State) (k : StageCode) : (s.enterStage k).tainted = s.tainted := rfl
@[simp] theorem State.enterStage_draws (s : State) (k : StageCode) : (s.enterStage k).draws = s.draws := rfl
@[simp] theorem State.enterStage_readData (s : State) (k : StageCode) : (s.enterStage k).readData = s.readData := rfl
@[simp] theorem State.enterStage_agenda (s : State) (k : StageCode) : (s.enterStage k).agenda = s.agenda := rfl
@[simp] theorem State.enterStage_params (s : State) (k : StageCode) : (s.enterStage k).params = s.params := rfl

/-! ### endCommand -/

@[simp] theorem State.endCommand_ctrl (s : State) : (s.endCommand).ctrl = s.ctrl := rfl
@[simp] theorem State.endCommand_status (s : State) : (s.endCommand).status = { s.status with busy := false } := rfl
@[simp] theorem State.endCommand_cmd (s : State) : (s.endCommand).cmd = s.cmd := rfl
@[simp] theorem State.endCommand_cfg (s : State) : (s.endCommand).cfg = s.cfg := rfl
@[simp] theorem State.endCommand_errInfo (s : State) : (s.endCommand).errInfo = s.errInfo := rfl
@[simp] theorem State.endCommand_cur (s : State) : (s.endCommand).cur = none := rfl
@[simp] theorem State.endCommand_stage (s : State) : (s.endCommand).stage = StageCode.none := rfl
@[simp] theorem State.endCommand_mem (s : State) : (s.endCommand).mem = s.mem := rfl
@[simp] theorem State.endCommand_tainted (s : State) : (s.endCommand).tainted = false := rfl
@[simp] theorem State.endCommand_draws (s : State) : (s.endCommand).draws = s.draws := rfl
@[simp] theorem State.endCommand_readData (s : State) : (s.endCommand).readData = s.readData := rfl
@[simp] theorem State.endCommand_agenda (s : State) : (s.endCommand).agenda = s.agenda := rfl
@[simp] theorem State.endCommand_params (s : State) : (s.endCommand).params = s.params := rfl

/-! ### fail -/

@[simp] theorem State.fail_ctrl (s : State) (c : ErrCode) (w : Word) : (s.fail c w).ctrl = s.ctrl := rfl
@[simp] theorem State.fail_status (s : State) (c : ErrCode) (w : Word) : (s.fail c w).status = { s.status with busy := false, err := true, errCode := c, errStage := s.stage } := rfl
@[simp] theorem State.fail_cmd (s : State) (c : ErrCode) (w : Word) : (s.fail c w).cmd = s.cmd := rfl
@[simp] theorem State.fail_cfg (s : State) (c : ErrCode) (w : Word) : (s.fail c w).cfg = s.cfg := rfl
@[simp] theorem State.fail_errInfo (s : State) (c : ErrCode) (w : Word) : (s.fail c w).errInfo = w := rfl
@[simp] theorem State.fail_cur (s : State) (c : ErrCode) (w : Word) : (s.fail c w).cur = none := rfl
@[simp] theorem State.fail_stage (s : State) (c : ErrCode) (w : Word) : (s.fail c w).stage = StageCode.none := rfl
@[simp] theorem State.fail_mem (s : State) (c : ErrCode) (w : Word) : (s.fail c w).mem = s.mem := rfl
@[simp] theorem State.fail_tainted (s : State) (c : ErrCode) (w : Word) : (s.fail c w).tainted = false := rfl
@[simp] theorem State.fail_draws (s : State) (c : ErrCode) (w : Word) : (s.fail c w).draws = s.draws := rfl
@[simp] theorem State.fail_readData (s : State) (c : ErrCode) (w : Word) : (s.fail c w).readData = s.readData := rfl
@[simp] theorem State.fail_agenda (s : State) (c : ErrCode) (w : Word) : (s.fail c w).agenda = s.agenda := rfl
@[simp] theorem State.fail_params (s : State) (c : ErrCode) (w : Word) : (s.fail c w).params = s.params := rfl

/-! ### raise -/

@[simp] theorem State.raise_ctrl (s : State) (e : Err) : (s.raise e).ctrl = s.ctrl := rfl
@[simp] theorem State.raise_status (s : State) (e : Err) : (s.raise e).status = { s.status with busy := false, err := true, errCode := e.code, errStage := e.stage } := rfl
@[simp] theorem State.raise_cmd (s : State) (e : Err) : (s.raise e).cmd = s.cmd := rfl
@[simp] theorem State.raise_cfg (s : State) (e : Err) : (s.raise e).cfg = s.cfg := rfl
@[simp] theorem State.raise_errInfo (s : State) (e : Err) : (s.raise e).errInfo = e.info := rfl
@[simp] theorem State.raise_cur (s : State) (e : Err) : (s.raise e).cur = none := rfl
@[simp] theorem State.raise_stage (s : State) (e : Err) : (s.raise e).stage = StageCode.none := rfl
@[simp] theorem State.raise_mem (s : State) (e : Err) : (s.raise e).mem = s.mem := rfl
@[simp] theorem State.raise_tainted (s : State) (e : Err) : (s.raise e).tainted = false := rfl
@[simp] theorem State.raise_draws (s : State) (e : Err) : (s.raise e).draws = s.draws := rfl
@[simp] theorem State.raise_readData (s : State) (e : Err) : (s.raise e).readData = s.readData := rfl
@[simp] theorem State.raise_agenda (s : State) (e : Err) : (s.raise e).agenda = s.agenda := rfl
@[simp] theorem State.raise_params (s : State) (e : Err) : (s.raise e).params = s.params := rfl

/-! ### complete -/

@[simp] theorem State.complete_ctrl (s : State) : (s.complete).ctrl = s.ctrl := rfl
@[simp] theorem State.complete_status (s : State) : (s.complete).status = { s.status with busy := false, done := true } := rfl
@[simp] theorem State.complete_cmd (s : State) : (s.complete).cmd = s.cmd := rfl
@[simp] theorem State.complete_cfg (s : State) : (s.complete).cfg = s.cfg := rfl
@[simp] theorem State.complete_errInfo (s : State) : (s.complete).errInfo = s.errInfo := rfl
@[simp] theorem State.complete_cur (s : State) : (s.complete).cur = none := rfl
@[simp] theorem State.complete_stage (s : State) : (s.complete).stage = StageCode.none := rfl
@[simp] theorem State.complete_mem (s : State) : (s.complete).mem = s.mem := rfl
@[simp] theorem State.complete_tainted (s : State) : (s.complete).tainted = false := rfl
@[simp] theorem State.complete_draws (s : State) : (s.complete).draws = s.draws := rfl
@[simp] theorem State.complete_readData (s : State) : (s.complete).readData = s.readData := rfl
@[simp] theorem State.complete_agenda (s : State) : (s.complete).agenda = s.agenda := rfl
@[simp] theorem State.complete_params (s : State) : (s.complete).params = s.params := rfl

/-! ### clearErr -/

@[simp] theorem State.clearErr_ctrl (s : State) : (s.clearErr).ctrl = s.ctrl := rfl
@[simp] theorem State.clearErr_status (s : State) : (s.clearErr).status = { s.status with err := false, errCode := ErrCode.none, errStage := StageCode.none } := rfl
@[simp] theorem State.clearErr_cmd (s : State) : (s.clearErr).cmd = s.cmd := rfl
@[simp] theorem State.clearErr_cfg (s : State) : (s.clearErr).cfg = s.cfg := rfl
@[simp] theorem State.clearErr_errInfo (s : State) : (s.clearErr).errInfo = 0 := rfl
@[simp] theorem State.clearErr_cur (s : State) : (s.clearErr).cur = s.cur := rfl
@[simp] theorem State.clearErr_stage (s : State) : (s.clearErr).stage = s.stage := rfl
@[simp] theorem State.clearErr_mem (s : State) : (s.clearErr).mem = s.mem := rfl
@[simp] theorem State.clearErr_tainted (s : State) : (s.clearErr).tainted = s.tainted := rfl
@[simp] theorem State.clearErr_draws (s : State) : (s.clearErr).draws = s.draws := rfl
@[simp] theorem State.clearErr_readData (s : State) : (s.clearErr).readData = s.readData := rfl
@[simp] theorem State.clearErr_agenda (s : State) : (s.clearErr).agenda = s.agenda := rfl
@[simp] theorem State.clearErr_params (s : State) : (s.clearErr).params = s.params := rfl

/-! ### accept -/

@[simp] theorem State.accept_ctrl (s : State) (w : Word) : (s.accept w).ctrl = s.ctrl := rfl
@[simp] theorem State.accept_status (s : State) (w : Word) : (s.accept w).status = ⟨true, false, false, s.status.ovr, ErrCode.none, StageCode.none⟩ := rfl
@[simp] theorem State.accept_cmd (s : State) (w : Word) : (s.accept w).cmd = w := rfl
@[simp] theorem State.accept_cfg (s : State) (w : Word) : (s.accept w).cfg = s.cfg := rfl
@[simp] theorem State.accept_errInfo (s : State) (w : Word) : (s.accept w).errInfo = 0 := rfl
@[simp] theorem State.accept_cur (s : State) (w : Word) : (s.accept w).cur = some w := rfl
@[simp] theorem State.accept_stage (s : State) (w : Word) : (s.accept w).stage = StageCode.none := rfl
@[simp] theorem State.accept_mem (s : State) (w : Word) : (s.accept w).mem = s.mem := rfl
@[simp] theorem State.accept_tainted (s : State) (w : Word) : (s.accept w).tainted = false := rfl
@[simp] theorem State.accept_draws (s : State) (w : Word) : (s.accept w).draws = s.draws := rfl
@[simp] theorem State.accept_readData (s : State) (w : Word) : (s.accept w).readData = s.readData := rfl
@[simp] theorem State.accept_agenda (s : State) (w : Word) : (s.accept w).agenda = s.agenda := rfl
@[simp] theorem State.accept_params (s : State) (w : Word) : (s.accept w).params = s.params := rfl

/-! ### resetRegs -/

@[simp] theorem State.resetRegs_ctrl (s : State) : (s.resetRegs).ctrl = Ctrl.reset := rfl
@[simp] theorem State.resetRegs_status (s : State) : (s.resetRegs).status = Status.reset := rfl
@[simp] theorem State.resetRegs_cmd (s : State) : (s.resetRegs).cmd = 0 := rfl
@[simp] theorem State.resetRegs_cfg (s : State) : (s.resetRegs).cfg = ConfigRegs.reset := rfl
@[simp] theorem State.resetRegs_errInfo (s : State) : (s.resetRegs).errInfo = 0 := rfl
@[simp] theorem State.resetRegs_cur (s : State) : (s.resetRegs).cur = none := rfl
@[simp] theorem State.resetRegs_stage (s : State) : (s.resetRegs).stage = StageCode.none := rfl
@[simp] theorem State.resetRegs_mem (s : State) : (s.resetRegs).mem = s.mem := rfl
@[simp] theorem State.resetRegs_tainted (s : State) : (s.resetRegs).tainted = false := rfl
@[simp] theorem State.resetRegs_draws (s : State) : (s.resetRegs).draws = s.draws := rfl
@[simp] theorem State.resetRegs_readData (s : State) : (s.resetRegs).readData = s.readData := rfl
@[simp] theorem State.resetRegs_agenda (s : State) : (s.resetRegs).agenda = s.agenda := rfl
@[simp] theorem State.resetRegs_params (s : State) : (s.resetRegs).params = s.params := rfl

/-! ### popTurn -/

@[simp] theorem State.popTurn_ctrl (s : State) : (s.popTurn).ctrl = s.ctrl := rfl
@[simp] theorem State.popTurn_status (s : State) : (s.popTurn).status = s.status := rfl
@[simp] theorem State.popTurn_cmd (s : State) : (s.popTurn).cmd = s.cmd := rfl
@[simp] theorem State.popTurn_cfg (s : State) : (s.popTurn).cfg = s.cfg := rfl
@[simp] theorem State.popTurn_errInfo (s : State) : (s.popTurn).errInfo = s.errInfo := rfl
@[simp] theorem State.popTurn_cur (s : State) : (s.popTurn).cur = s.cur := rfl
@[simp] theorem State.popTurn_stage (s : State) : (s.popTurn).stage = s.stage := rfl
@[simp] theorem State.popTurn_mem (s : State) : (s.popTurn).mem = s.mem := rfl
@[simp] theorem State.popTurn_tainted (s : State) : (s.popTurn).tainted = s.tainted := rfl
@[simp] theorem State.popTurn_draws (s : State) : (s.popTurn).draws = s.draws := rfl
@[simp] theorem State.popTurn_readData (s : State) : (s.popTurn).readData = s.readData := rfl
@[simp] theorem State.popTurn_agenda (s : State) : (s.popTurn).agenda = s.agenda.tail := rfl
@[simp] theorem State.popTurn_params (s : State) : (s.popTurn).params = s.params := rfl

/-! ### setOvr -/

@[simp] theorem State.setOvr_ctrl (s : State) : (s.setOvr).ctrl = s.ctrl := rfl
@[simp] theorem State.setOvr_status (s : State) : (s.setOvr).status = { s.status with ovr := true } := rfl
@[simp] theorem State.setOvr_cmd (s : State) : (s.setOvr).cmd = s.cmd := rfl
@[simp] theorem State.setOvr_cfg (s : State) : (s.setOvr).cfg = s.cfg := rfl
@[simp] theorem State.setOvr_errInfo (s : State) : (s.setOvr).errInfo = s.errInfo := rfl
@[simp] theorem State.setOvr_cur (s : State) : (s.setOvr).cur = s.cur := rfl
@[simp] theorem State.setOvr_stage (s : State) : (s.setOvr).stage = s.stage := rfl
@[simp] theorem State.setOvr_mem (s : State) : (s.setOvr).mem = s.mem := rfl
@[simp] theorem State.setOvr_tainted (s : State) : (s.setOvr).tainted = s.tainted := rfl
@[simp] theorem State.setOvr_draws (s : State) : (s.setOvr).draws = s.draws := rfl
@[simp] theorem State.setOvr_readData (s : State) : (s.setOvr).readData = s.readData := rfl
@[simp] theorem State.setOvr_agenda (s : State) : (s.setOvr).agenda = s.agenda := rfl
@[simp] theorem State.setOvr_params (s : State) : (s.setOvr).params = s.params := rfl

/-! ### scramble -/

@[simp] theorem State.scramble_ctrl (s : State) (p : Plan) : (s.scramble p).ctrl = s.ctrl := rfl
@[simp] theorem State.scramble_status (s : State) (p : Plan) : (s.scramble p).status = s.status := rfl
@[simp] theorem State.scramble_cmd (s : State) (p : Plan) : (s.scramble p).cmd = s.cmd := rfl
@[simp] theorem State.scramble_cfg (s : State) (p : Plan) : (s.scramble p).cfg = s.cfg := rfl
@[simp] theorem State.scramble_errInfo (s : State) (p : Plan) : (s.scramble p).errInfo = s.errInfo := rfl
@[simp] theorem State.scramble_cur (s : State) (p : Plan) : (s.scramble p).cur = s.cur := rfl
@[simp] theorem State.scramble_stage (s : State) (p : Plan) : (s.scramble p).stage = s.stage := rfl
@[simp] theorem State.scramble_mem (s : State) (p : Plan) : (s.scramble p).mem = s.mem.writeAll (p.writtenBytes.map fun a => (a, Config.freeByte s.draws a)) := rfl
@[simp] theorem State.scramble_tainted (s : State) (p : Plan) : (s.scramble p).tainted = s.tainted := rfl
@[simp] theorem State.scramble_draws (s : State) (p : Plan) : (s.scramble p).draws = s.draws + 1 := rfl
@[simp] theorem State.scramble_readData (s : State) (p : Plan) : (s.scramble p).readData = s.readData := rfl
@[simp] theorem State.scramble_agenda (s : State) (p : Plan) : (s.scramble p).agenda = s.agenda := rfl
@[simp] theorem State.scramble_params (s : State) (p : Plan) : (s.scramble p).params = s.params := rfl

/-! ### memFault -/

@[simp] theorem State.memFault_ctrl (s : State) (p : Plan) (k : StageCode) (bad : List Nat) : (s.memFault p k bad).ctrl = s.ctrl := rfl
@[simp] theorem State.memFault_status (s : State) (p : Plan) (k : StageCode) (bad : List Nat) : (s.memFault p k bad).status = { s.status with busy := false, err := true, errCode := ErrCode.memFault, errStage := k } := rfl
@[simp] theorem State.memFault_cmd (s : State) (p : Plan) (k : StageCode) (bad : List Nat) : (s.memFault p k bad).cmd = s.cmd := rfl
@[simp] theorem State.memFault_cfg (s : State) (p : Plan) (k : StageCode) (bad : List Nat) : (s.memFault p k bad).cfg = s.cfg := rfl
@[simp] theorem State.memFault_errInfo (s : State) (p : Plan) (k : StageCode) (bad : List Nat) : (s.memFault p k bad).errInfo = BitVec.ofNat 32 (pickRefused s.draws bad) := rfl
@[simp] theorem State.memFault_cur (s : State) (p : Plan) (k : StageCode) (bad : List Nat) : (s.memFault p k bad).cur = none := rfl
@[simp] theorem State.memFault_stage (s : State) (p : Plan) (k : StageCode) (bad : List Nat) : (s.memFault p k bad).stage = StageCode.none := rfl
@[simp] theorem State.memFault_mem (s : State) (p : Plan) (k : StageCode) (bad : List Nat) : (s.memFault p k bad).mem = (s.scramble p).mem := rfl
@[simp] theorem State.memFault_tainted (s : State) (p : Plan) (k : StageCode) (bad : List Nat) : (s.memFault p k bad).tainted = false := rfl
@[simp] theorem State.memFault_draws (s : State) (p : Plan) (k : StageCode) (bad : List Nat) : (s.memFault p k bad).draws = s.draws + 1 := rfl
@[simp] theorem State.memFault_readData (s : State) (p : Plan) (k : StageCode) (bad : List Nat) : (s.memFault p k bad).readData = s.readData := rfl
@[simp] theorem State.memFault_agenda (s : State) (p : Plan) (k : StageCode) (bad : List Nat) : (s.memFault p k bad).agenda = s.agenda := rfl
@[simp] theorem State.memFault_params (s : State) (p : Plan) (k : StageCode) (bad : List Nat) : (s.memFault p k bad).params = s.params := rfl

/-! ### commit -/

@[simp] theorem State.commit_ctrl (s : State) (p : Plan) (m : Memory) : (s.commit p m).ctrl = s.ctrl := by
  unfold State.commit; dsimp only; split <;> rfl
@[simp] theorem State.commit_status (s : State) (p : Plan) (m : Memory) : (s.commit p m).status = s.status := by
  unfold State.commit; dsimp only; split <;> rfl
@[simp] theorem State.commit_cmd (s : State) (p : Plan) (m : Memory) : (s.commit p m).cmd = s.cmd := by
  unfold State.commit; dsimp only; split <;> rfl
@[simp] theorem State.commit_cfg (s : State) (p : Plan) (m : Memory) : (s.commit p m).cfg = s.cfg.withKinds p := by
  unfold State.commit; dsimp only; split <;> rfl
@[simp] theorem State.commit_errInfo (s : State) (p : Plan) (m : Memory) : (s.commit p m).errInfo = s.errInfo := by
  unfold State.commit; dsimp only; split <;> rfl
@[simp] theorem State.commit_cur (s : State) (p : Plan) (m : Memory) : (s.commit p m).cur = s.cur := by
  unfold State.commit; dsimp only; split <;> rfl
@[simp] theorem State.commit_stage (s : State) (p : Plan) (m : Memory) : (s.commit p m).stage = s.stage := by
  unfold State.commit; dsimp only; split <;> rfl
@[simp] theorem State.commit_tainted (s : State) (p : Plan) (m : Memory) : (s.commit p m).tainted = s.tainted := by
  unfold State.commit; dsimp only; split <;> rfl
@[simp] theorem State.commit_readData (s : State) (p : Plan) (m : Memory) : (s.commit p m).readData = s.readData := by
  unfold State.commit; dsimp only; split <;> rfl
@[simp] theorem State.commit_agenda (s : State) (p : Plan) (m : Memory) : (s.commit p m).agenda = s.agenda := by
  unfold State.commit; dsimp only; split <;> rfl
@[simp] theorem State.commit_params (s : State) (p : Plan) (m : Memory) : (s.commit p m).params = s.params := by
  unfold State.commit; dsimp only; split <;> rfl

theorem State.commit_mem_clean {s : State} (h : s.tainted = false) (p : Plan) (m : Memory) :
    (s.commit p m).mem = m := by
  unfold State.commit; rw [h]; rfl

theorem State.commit_draws_clean {s : State} (h : s.tainted = false) (p : Plan) (m : Memory) :
    (s.commit p m).draws = s.draws := by
  unfold State.commit; rw [h]; rfl

theorem State.commit_mem_tainted {s : State} (h : s.tainted = true) (p : Plan) (m : Memory) :
    (s.commit p m).mem = (s.scramble p).mem := by
  unfold State.commit; rw [h]; rfl

/-! ### writeStatus -/

@[simp] theorem State.writeStatus_ctrl (s : State) (v : Word) : (s.writeStatus v).ctrl = s.ctrl := by
  unfold State.writeStatus; split <;> rfl
@[simp] theorem State.writeStatus_cmd (s : State) (v : Word) : (s.writeStatus v).cmd = s.cmd := by
  unfold State.writeStatus; split <;> rfl
@[simp] theorem State.writeStatus_cfg (s : State) (v : Word) : (s.writeStatus v).cfg = s.cfg := by
  unfold State.writeStatus; split <;> rfl
@[simp] theorem State.writeStatus_cur (s : State) (v : Word) : (s.writeStatus v).cur = s.cur := by
  unfold State.writeStatus; split <;> rfl
@[simp] theorem State.writeStatus_stage (s : State) (v : Word) : (s.writeStatus v).stage = s.stage := by
  unfold State.writeStatus; split <;> rfl
@[simp] theorem State.writeStatus_mem (s : State) (v : Word) : (s.writeStatus v).mem = s.mem := by
  unfold State.writeStatus; split <;> rfl
@[simp] theorem State.writeStatus_tainted (s : State) (v : Word) : (s.writeStatus v).tainted = s.tainted := by
  unfold State.writeStatus; split <;> rfl
@[simp] theorem State.writeStatus_draws (s : State) (v : Word) : (s.writeStatus v).draws = s.draws := by
  unfold State.writeStatus; split <;> rfl
@[simp] theorem State.writeStatus_readData (s : State) (v : Word) : (s.writeStatus v).readData = s.readData := by
  unfold State.writeStatus; split <;> rfl
@[simp] theorem State.writeStatus_agenda (s : State) (v : Word) : (s.writeStatus v).agenda = s.agenda := by
  unfold State.writeStatus; split <;> rfl
@[simp] theorem State.writeStatus_params (s : State) (v : Word) : (s.writeStatus v).params = s.params := by
  unfold State.writeStatus; split <;> rfl

/-- Writing STATUS clears a flag by a 1 and keeps it by a 0 (R19). -/
theorem State.writeStatus_status (s : State) (v : Word) : (s.writeStatus v).status =
    { busy := s.status.busy
      done := s.status.done && !v.getLsbD 1
      err := s.status.err && !v.getLsbD 2
      ovr := s.status.ovr && !v.getLsbD 3
      errCode := if v.getLsbD 2 then ErrCode.none else s.status.errCode
      errStage := if v.getLsbD 2 then StageCode.none else s.status.errStage } := by
  unfold State.writeStatus; cases v.getLsbD 2 <;> simp

theorem State.writeStatus_errInfo (s : State) (v : Word) :
    (s.writeStatus v).errInfo = if v.getLsbD 2 then 0 else s.errInfo := by
  unfold State.writeStatus; split <;> rfl

/-! ### The abort and the resets -/

@[simp] theorem State.abort_ctrl (s : State) : s.abort.ctrl = s.ctrl := by
  unfold State.abort; split <;> rfl
@[simp] theorem State.abort_status (s : State) : s.abort.status = s.status := by
  unfold State.abort; split <;> rfl
@[simp] theorem State.abort_cmd (s : State) : s.abort.cmd = s.cmd := by
  unfold State.abort; split <;> rfl
@[simp] theorem State.abort_cfg (s : State) : s.abort.cfg = s.cfg := by
  unfold State.abort; split <;> rfl
@[simp] theorem State.abort_errInfo (s : State) : s.abort.errInfo = s.errInfo := by
  unfold State.abort; split <;> rfl
@[simp] theorem State.abort_cur (s : State) : s.abort.cur = s.cur := by
  unfold State.abort; split <;> rfl
@[simp] theorem State.abort_stage (s : State) : s.abort.stage = s.stage := by
  unfold State.abort; split <;> rfl
@[simp] theorem State.abort_tainted (s : State) : s.abort.tainted = s.tainted := by
  unfold State.abort; split <;> rfl
@[simp] theorem State.abort_readData (s : State) : s.abort.readData = s.readData := by
  unfold State.abort; split <;> rfl
@[simp] theorem State.abort_agenda (s : State) : s.abort.agenda = s.agenda := by
  unfold State.abort; split <;> rfl
@[simp] theorem State.abort_params (s : State) : s.abort.params = s.params := by
  unfold State.abort; split <;> rfl
@[simp] theorem State.doReset_agenda (s : State) : s.doReset.agenda = s.agenda := by
  simp [State.doReset]
@[simp] theorem State.doReset_params (s : State) : s.doReset.params = s.params := by
  simp [State.doReset]
@[simp] theorem State.doReset_readData (s : State) : s.doReset.readData = s.readData := by
  simp [State.doReset]
@[simp] theorem State.doReset_mem (s : State) : s.doReset.mem = s.abort.mem := rfl

/-! ### The configuration registers a plan writes -/

@[simp] theorem ConfigRegs.withKinds_cFmt (c : ConfigRegs) (p : Plan) : (c.withKinds p).cFmt = c.cFmt := rfl
@[simp] theorem ConfigRegs.withKinds_cDim (c : ConfigRegs) (p : Plan) : (c.withKinds p).cDim = c.cDim := rfl
@[simp] theorem ConfigRegs.withKinds_cYBase (c : ConfigRegs) (p : Plan) : (c.withKinds p).cYBase = c.cYBase := rfl
@[simp] theorem ConfigRegs.withKinds_cUBase (c : ConfigRegs) (p : Plan) : (c.withKinds p).cUBase = c.cUBase := rfl
@[simp] theorem ConfigRegs.withKinds_cVBase (c : ConfigRegs) (p : Plan) : (c.withKinds p).cVBase = c.cVBase := rfl
@[simp] theorem ConfigRegs.withKinds_cYStride (c : ConfigRegs) (p : Plan) : (c.withKinds p).cYStride = c.cYStride := rfl
@[simp] theorem ConfigRegs.withKinds_cCStride (c : ConfigRegs) (p : Plan) : (c.withKinds p).cCStride = c.cCStride := rfl
@[simp] theorem ConfigRegs.withKinds_aFmt (c : ConfigRegs) (p : Plan) : (c.withKinds p).aFmt = c.aFmt := rfl
@[simp] theorem ConfigRegs.withKinds_aDim (c : ConfigRegs) (p : Plan) : (c.withKinds p).aDim = c.aDim := rfl
@[simp] theorem ConfigRegs.withKinds_aYBase (c : ConfigRegs) (p : Plan) : (c.withKinds p).aYBase = c.aYBase := rfl
@[simp] theorem ConfigRegs.withKinds_aYStride (c : ConfigRegs) (p : Plan) : (c.withKinds p).aYStride = c.aYStride := rfl
@[simp] theorem ConfigRegs.withKinds_cimgBase (c : ConfigRegs) (p : Plan) : (c.withKinds p).cimgBase = c.cimgBase := rfl
@[simp] theorem ConfigRegs.withKinds_aimgBase (c : ConfigRegs) (p : Plan) : (c.withKinds p).aimgBase = c.aimgBase := rfl
@[simp] theorem ConfigRegs.withKinds_outBase (c : ConfigRegs) (p : Plan) : (c.withKinds p).outBase = c.outBase := rfl

/-! ### What the operands depend on -/

section Operands
variable {s t : State}

theorem State.colorFrame_congr (h : s.cfg = t.cfg) : s.colorFrame = t.colorFrame := by
  unfold State.colorFrame; rw [h]

theorem State.alphaFrame_congr (h : s.cfg = t.cfg) : s.alphaFrame = t.alphaFrame := by
  unfold State.alphaFrame; rw [h]

end Operands

end Sys2Proof.Machine
end

