-- ==== Sys2Proof/Laws/Plan.lean ====
section
/-! SUPPORT. What the checks, the plans and the running of a plan can do, said once. -/

namespace Sys2Proof.Machine

/-! ### Sequenced checks -/

theorem bind_ok_iff {ε α β : Type} {x : Except ε α} {f : α → Except ε β} {r : β} :
    (x >>= f) = .ok r ↔ ∃ a, x = .ok a ∧ f a = .ok r := by
  cases x <;> simp [bind, Except.bind]

theorem bind_error_iff {ε α β : Type} {x : Except ε α} {f : α → Except ε β} {e : ε} :
    (x >>= f) = .error e ↔ x = .error e ∨ ∃ a, x = .ok a ∧ f a = .error e := by
  cases x <;> simp [bind, Except.bind]

@[simp] theorem ok_bind {ε α β : Type} (a : α) (f : α → Except ε β) : ((Except.ok a : Except ε α) >>= f) = f a := rfl

@[simp] theorem error_bind {ε α β : Type} (e : ε) (f : α → Except ε β) :
    ((Except.error e : Except ε α) >>= f) = .error e := rfl

theorem exists_unit {q : Unit → Prop} : (∃ u, q u) ↔ q () := ⟨fun ⟨_, h⟩ => h, fun h => ⟨_, h⟩⟩

theorem checkDepth_ok_iff {f : Frame} {k : StageCode} : checkDepth f k = .ok () ↔ depthLegal f.depth = true := by
  unfold checkDepth; split <;> simp_all

theorem checkDepth_error {f : Frame} {k : StageCode} {e : Err} (h : checkDepth f k = .error e) :
    e.code = .invalidDepth ∧ e.stage = k := by
  unfold checkDepth at h; split at h <;> simp at h; subst h; exact ⟨rfl, rfl⟩

theorem checkChroma_ok_iff {f : Frame} {c : Chroma} : checkChroma f = .ok c ↔ f.sampling = .chroma c := by
  unfold checkChroma; split <;> simp_all

theorem checkChroma_error {f : Frame} {e : Err} (h : checkChroma f = .error e) :
    e.code = .invalidChromaFormat ∧ e.stage = .cu := by
  unfold checkChroma at h; split at h <;> simp at h; subst h; exact ⟨rfl, rfl⟩

theorem checkMatrix_ok_iff {p : Params} {f : Frame} {d : Nat} {k : StageCode} {m : Nat × Matrix} :
    checkMatrix p f d k = .ok m ↔ m.1 = resolveMc f.mc d ∧ matrixOf p m.1 = some m.2 := by
  obtain ⟨mc, mx⟩ := m
  unfold checkMatrix
  dsimp only
  split
  · next m hm =>
    simp only [Except.ok.injEq, Prod.mk.injEq]
    constructor
    · rintro ⟨rfl, rfl⟩; exact ⟨rfl, hm⟩
    · rintro ⟨rfl, h⟩; exact ⟨rfl, Option.some.inj (hm.symm.trans h)⟩
  · next hm =>
    simp only [reduceCtorEq, false_iff, not_and]
    rintro rfl h
    rw [hm] at h; cases h

theorem checkMatrix_error {p : Params} {f : Frame} {d : Nat} {k : StageCode} {e : Err}
    (h : checkMatrix p f d k = .error e) : e.code = .unsupportedColorMetadata ∧ e.stage = k := by
  unfold checkMatrix at h; dsimp only at h; split at h <;> simp at h; subst h; exact ⟨rfl, rfl⟩

theorem checkGeometry_ok_iff {limit : Nat} {bufs : List Buffer} :
    checkGeometry limit bufs = .ok () ↔ ∀ b ∈ bufs, b.badGeometry limit = false := by
  unfold checkGeometry
  split
  · next b h =>
    simp only [reduceCtorEq, false_iff, not_forall, Bool.not_eq_false]
    exact ⟨b, List.mem_of_find?_eq_some h, List.find?_some h⟩
  · next h => simpa using h

theorem checkGeometry_error {limit : Nat} {bufs : List Buffer} {e : Err} (h : checkGeometry limit bufs = .error e) :
    e.code = .invalidGeometry ∧ e.stage = .validation := by
  unfold checkGeometry at h; split at h <;> simp at h; subst h; exact ⟨rfl, rfl⟩

theorem checkOverlap_ok_iff {bufs : List Buffer} :
    checkOverlap bufs = .ok () ↔ ∀ q ∈ pairsOf bufs, q.1.conflict q.2 = false := by
  unfold checkOverlap
  split
  · next q h =>
    simp only [reduceCtorEq, false_iff, not_forall, Bool.not_eq_false]
    exact ⟨q, List.mem_of_find?_eq_some h, List.find?_some (p := fun q : Buffer × Buffer => q.1.conflict q.2) h⟩
  · next h =>
    simp only [List.find?_eq_none, Bool.not_eq_true] at h
    simpa using h

theorem checkOverlap_error {bufs : List Buffer} {e : Err} (h : checkOverlap bufs = .error e) :
    e.code = .bufferOverlap ∧ e.stage = .validation := by
  unfold checkOverlap at h; split at h <;> simp at h; subst h; exact ⟨rfl, rfl⟩

theorem checkRegions_ok_iff {p : Params} {reported bufs : List Buffer} :
    checkRegions p reported bufs = .ok () ↔ (∀ b ∈ reported, b.badGeometry (memSize p) = false) ∧
      ∀ q ∈ pairsOf bufs, q.1.conflict q.2 = false := by
  rw [← checkGeometry_ok_iff, ← checkOverlap_ok_iff]
  unfold checkRegions
  split <;> simp_all

theorem checkRegions_error {p : Params} {reported bufs : List Buffer} {e : Err}
    (h : checkRegions p reported bufs = .error e) :
    (e.code = .invalidGeometry ∨ e.code = .bufferOverlap) ∧ e.stage = .validation := by
  unfold checkRegions at h
  split at h
  · next e' h' => cases h; exact (checkGeometry_error h').imp_left .inl
  · exact (checkOverlap_error h).imp_left .inr

theorem checkBuffers_ok_iff {p : Params} {bufs : List Buffer} :
    checkBuffers p bufs = .ok () ↔ (∀ b ∈ bufs, b.badGeometry (memSize p) = false) ∧
      ∀ q ∈ pairsOf bufs, q.1.conflict q.2 = false := checkRegions_ok_iff

theorem checkBuffers_error {p : Params} {bufs : List Buffer} {e : Err} (h : checkBuffers p bufs = .error e) :
    (e.code = .invalidGeometry ∨ e.code = .bufferOverlap) ∧ e.stage = .validation := checkRegions_error h

/-- The regions FRAME reports stage by stage are its regions. -/
theorem mem_frameAlphaByStage {s : State} {rk : ImageKind} {b : Buffer} :
    b ∈ frameAlphaByStage s rk ↔ b ∈ frameAlphaBufs s rk := by
  simp only [frameAlphaByStage, frameAlphaBufs, List.mem_append, List.mem_cons, List.not_mem_nil, or_false]
  tauto

/-- Which order bad regions are reported in does not decide whether FRAME passes its checks. -/
theorem checkFrameRegions_ok_iff {s : State} {rk : ImageKind} :
    checkRegions s.params (frameAlphaByStage s rk) (frameAlphaBufs s rk) = .ok () ↔
      checkBuffers s.params (frameAlphaBufs s rk) = .ok () := by
  simp only [checkRegions_ok_iff, checkBuffers_ok_iff, mem_frameAlphaByStage]

theorem RegionsReady.checks {p : Params} {bufs : List Buffer} (h : RegionsReady p bufs) :
    checkBuffers p bufs = .ok () := checkBuffers_ok_iff.2 ⟨h.geometry, h.disjoint⟩

theorem checkCimgKind_ok_iff {s : State} {k : ImageKind} :
    checkCimgKind s = .ok k ↔ kindOf (kindCode s.cfg.cimgKind) = some k := by
  unfold checkCimgKind; split <;> simp_all

theorem checkCimgKind_error {s : State} {e : Err} (h : checkCimgKind s = .error e) :
    e.code = .invalidImageKind ∧ e.stage = .ac := by
  unfold checkCimgKind at h; split at h <;> simp at h; subst h; exact ⟨rfl, rfl⟩

theorem checkAimgKind_ok_iff {s : State} {k : AlphaKind} :
    checkAimgKind s = .ok k ↔ alphaKindOf (kindCode s.cfg.aimgKind) = some k := by
  unfold checkAimgKind; split <;> simp_all

theorem checkAimgKind_error {s : State} {e : Err} (h : checkAimgKind s = .error e) :
    e.code = .invalidImageKind ∧ e.stage = .ac := by
  unfold checkAimgKind at h; split at h <;> simp at h; subst h; exact ⟨rfl, rfl⟩

theorem checkDims_ok_iff {s : State} :
    checkDims s = .ok () ↔ s.colorFrame.w = s.alphaFrame.w ∧ s.colorFrame.h = s.alphaFrame.h := by
  unfold checkDims; split <;> simp_all

theorem checkDims_error {s : State} {e : Err} (h : checkDims s = .error e) :
    e.code = .dimensionMismatch ∧ e.stage = .ac := by
  unfold checkDims at h; split at h <;> simp at h; subst h; exact ⟨rfl, rfl⟩

theorem checkRow_ok_iff {ck : ImageKind} {ak : AlphaKind} {r : Composition} :
    checkRow ck ak = .ok r ↔ compositeRow ck ak = some r := by
  unfold checkRow; split <;> simp_all

theorem checkRow_error {ck : ImageKind} {ak : AlphaKind} {e : Err} (h : checkRow ck ak = .error e) :
    e.code = .contractViolation ∧ e.stage = .ac := by
  unfold checkRow at h; split at h <;> simp at h; subst h; exact ⟨rfl, rfl⟩

theorem checkOutKind_ok_iff {s : State} {k : ImageKind} : checkOutKind s = .ok k ↔
    (k = .rgba8 ∨ k = .rgba16) ∧ kindOf (kindCode s.cfg.outKind) = some k := by
  unfold checkOutKind
  split
  · next h => rw [h]; constructor <;> rintro h' <;> simp_all
  · next h => rw [h]; constructor <;> rintro h' <;> simp_all
  · next h1 h2 =>
    simp only [reduceCtorEq, false_iff, not_and]
    rintro (rfl | rfl) h
    · exact h1 h
    · exact h2 h

theorem checkOutKind_error {s : State} {e : Err} (h : checkOutKind s = .error e) :
    e.code = .invalidImageKind ∧ e.stage = .up := by
  unfold checkOutKind at h; split at h <;> simp at h; subst h; exact ⟨rfl, rfl⟩

/-! ### What a plan is -/

theorem planUpsample_ok_iff {s : State} {p : Plan} : planUpsample s = .ok p ↔
    depthLegal s.colorFrame.depth = true ∧ ∃ c, s.colorFrame.sampling = .chroma c ∧
      checkBuffers s.params (upsampleBufs s c) = .ok () ∧
      p = ⟨upsampleBufs s c, [upsamplePass s c], none, none, none⟩ := by
  simp only [planUpsample, bind_ok_iff, checkChroma_ok_iff, exists_unit, checkDepth_ok_iff, pure,
    Except.pure, Except.ok.injEq, eq_comm (a := p)]

theorem planConvert_ok_iff {s : State} {p : Plan} : planConvert s = .ok p ↔
    depthLegal s.colorFrame.depth = true ∧ ∃ c, s.colorFrame.sampling = .chroma c ∧ ∃ m : Nat × Matrix,
      (m.1 = resolveMc s.colorFrame.mc s.params.defaultMcColor ∧ matrixOf s.params m.1 = some m.2) ∧
      checkBuffers s.params (convertBufs s c) = .ok () ∧
      p = ⟨convertBufs s c, convertPasses s c m.1 m.2, some (rgbKind s.colorFrame.depth), none, none⟩ := by
  simp only [planConvert, bind_ok_iff, checkChroma_ok_iff, exists_unit, checkDepth_ok_iff, checkMatrix_ok_iff, pure,
    Except.pure, Except.ok.injEq, eq_comm (a := p)]

theorem planConvertGray_ok_iff {s : State} {p : Plan} : planConvertGray s = .ok p ↔
    depthLegal s.colorFrame.depth = true ∧ ∃ m : Nat × Matrix,
      (m.1 = resolveMc s.colorFrame.mc s.params.defaultMcGray ∧ matrixOf s.params m.1 = some m.2) ∧
      checkBuffers s.params (convertGrayBufs s) = .ok () ∧
      p = ⟨convertGrayBufs s, [colorGrayPass s m.1 m.2], some (grayKind s.colorFrame.depth).image, none, none⟩ := by
  simp only [planConvertGray, bind_ok_iff, exists_unit, checkDepth_ok_iff, checkMatrix_ok_iff, pure,
    Except.pure, Except.ok.injEq, eq_comm (a := p)]

theorem planExtractAlpha_ok_iff {s : State} {p : Plan} : planExtractAlpha s = .ok p ↔
    depthLegal s.alphaFrame.depth = true ∧ ∃ m : Nat × Matrix,
      (m.1 = resolveMc s.alphaFrame.mc s.params.defaultMcGray ∧ matrixOf s.params m.1 = some m.2) ∧
      checkBuffers s.params (extractAlphaBufs s) = .ok () ∧
      p = ⟨extractAlphaBufs s, [alphaPass s m.1 m.2], none, some (grayKind s.alphaFrame.depth), none⟩ := by
  simp only [planExtractAlpha, bind_ok_iff, exists_unit, checkDepth_ok_iff, checkMatrix_ok_iff, pure,
    Except.pure, Except.ok.injEq, eq_comm (a := p)]

theorem planCopy_ok_iff {s : State} {p : Plan} : planCopy s = .ok p ↔
    ∃ ck, kindOf (kindCode s.cfg.cimgKind) = some ck ∧ checkBuffers s.params (copyBufs s ck) = .ok () ∧
      p = ⟨copyBufs s ck, [copyPass (s.cimg ck) (s.out ck)], none, none, some ck⟩ := by
  simp only [planCopy, bind_ok_iff, exists_unit, checkCimgKind_ok_iff, pure, Except.pure, Except.ok.injEq,
    eq_comm (a := p)]

theorem planBlend_ok_iff {s : State} {p : Plan} : planBlend s = .ok p ↔
    ∃ ck, kindOf (kindCode s.cfg.cimgKind) = some ck ∧ ∃ ak, alphaKindOf (kindCode s.cfg.aimgKind) = some ak ∧
      (s.colorFrame.w = s.alphaFrame.w ∧ s.colorFrame.h = s.alphaFrame.h) ∧
      ∃ row, compositeRow ck ak = some row ∧ checkBuffers s.params (blendBufs s ck ak row.result) = .ok () ∧
      p = ⟨blendBufs s ck ak row.result,
        [blendPass s.params.endian (s.cimg ck) (s.aimg ak) (s.out row.result) row], none, none,
        some row.result⟩ := by
  simp only [planBlend, bind_ok_iff, exists_unit, checkCimgKind_ok_iff, checkAimgKind_ok_iff, checkDims_ok_iff,
    checkRow_ok_iff, pure, Except.pure, Except.ok.injEq, eq_comm (a := p)]

theorem planUnpremultiply_ok_iff {s : State} {p : Plan} : planUnpremultiply s = .ok p ↔
    ∃ k, ((k = .rgba8 ∨ k = .rgba16) ∧ kindOf (kindCode s.cfg.outKind) = some k) ∧
      (∀ b ∈ unpremulBufs s k, b.badGeometry (memSize s.params) = false) ∧
      p = ⟨unpremulBufs s k, [unpremulPass s.params.endian (s.out k)], none, none, none⟩ := by
  simp only [planUnpremultiply, bind_ok_iff, exists_unit, checkOutKind_ok_iff, checkGeometry_ok_iff, pure,
    Except.pure, Except.ok.injEq, eq_comm (a := p)]

/-- The code FRAME's color frame resolves to (R143): each routing has its own default (R93). -/
theorem checkFrameMatrix_ok_iff {s : State} {m : Nat × Matrix} : checkFrameMatrix s = .ok m ↔
    m.1 = resolveMc s.colorFrame.mc (match s.colorFrame.sampling with
      | .mono => s.params.defaultMcGray
      | .chroma _ => s.params.defaultMcColor) ∧ matrixOf s.params m.1 = some m.2 := by
  unfold checkFrameMatrix
  cases s.colorFrame.sampling <;> exact checkMatrix_ok_iff

theorem checkFrameMatrix_error {s : State} {e : Err} (h : checkFrameMatrix s = .error e) :
    e.code = .unsupportedColorMetadata ∧ (e.stage = .cscGray ∨ e.stage = .cscColor) := by
  unfold checkFrameMatrix at h
  split at h
  · exact (checkMatrix_error h).imp_right .inl
  · exact (checkMatrix_error h).imp_right .inr

theorem planFramePlain_ok_iff {s : State} {p : Plan} : planFramePlain s = .ok p ↔
    depthLegal s.colorFrame.depth = true ∧ ∃ m, checkFrameMatrix s = .ok m ∧
      checkBuffers s.params (framePlainBufs s) = .ok () ∧
      p = ⟨framePlainBufs s, framePlainPasses s m.1 m.2, some (frameColorKind s.colorFrame), none,
        some (frameColorKind s.colorFrame)⟩ := by
  simp only [planFramePlain, bind_ok_iff, exists_unit, checkDepth_ok_iff, pure, Except.pure, Except.ok.injEq,
    eq_comm (a := p)]

theorem planFrameAlpha_ok_iff {pm : Bool} {s : State} {p : Plan} : planFrameAlpha pm s = .ok p ↔
    depthLegal s.alphaFrame.depth = true ∧ depthLegal s.colorFrame.depth = true ∧ ∃ ma : Nat × Matrix,
      (ma.1 = resolveMc s.alphaFrame.mc s.params.defaultMcGray ∧ matrixOf s.params ma.1 = some ma.2) ∧
      ∃ m, checkFrameMatrix s = .ok m ∧
      (s.colorFrame.w = s.alphaFrame.w ∧ s.colorFrame.h = s.alphaFrame.h) ∧
      ∃ row, compositeRow (frameColorKind s.colorFrame) (grayKind s.alphaFrame.depth) = some row ∧
      checkBuffers s.params (frameAlphaBufs s row.result) = .ok () ∧
      p = ⟨frameAlphaBufs s row.result, frameAlphaPasses s pm m.1 m.2 ⟨ma.1, ma.2, row⟩,
        some (frameColorKind s.colorFrame), some (grayKind s.alphaFrame.depth), some row.result⟩ := by
  simp only [planFrameAlpha, bind_ok_iff, exists_unit, checkDepth_ok_iff, checkMatrix_ok_iff, checkDims_ok_iff,
    checkRow_ok_iff, checkFrameRegions_ok_iff, pure, Except.pure, Except.ok.injEq, eq_comm (a := p)]

/-! ### Running a plan -/

theorem Pass.refusedBytes_mem {ps : Pass} {p : Params} {m : Memory} {a : Nat} :
    a ∈ ps.refusedBytes p m ↔ a ∈ ps.touches m ∧ memOk p a = false := by
  simp [Pass.refusedBytes]

theorem Pass.refusedBytes_nil {ps : Pass} {p : Params} {m : Memory} :
    ps.refusedBytes p m = [] ↔ BytesOk p (ps.touches m) := by
  simp [Pass.refusedBytes, BytesOk]

/-- The stages of a plan end in a memory, or at a stage with refused bytes among those it touches. -/
theorem runPasses_error {p : Params} {ps : List Pass} {m : Memory} {k : StageCode} {bad : List Nat}
    (h : runPasses p ps m = .error (k, bad)) :
    bad ≠ [] ∧ ∃ q ∈ ps, q.stage = k ∧ ∃ m', ∀ a ∈ bad, a ∈ q.touches m' ∧ memOk p a = false := by
  induction ps generalizing m with
  | nil => cases h
  | cons q rest ih =>
    unfold runPasses at h
    split at h
    · obtain ⟨h1, q', hq, h2⟩ := ih h
      exact ⟨h1, q', List.mem_cons_of_mem _ hq, h2⟩
    · next a more heq =>
      cases h
      refine ⟨List.cons_ne_nil _ _, q, List.mem_cons_self, rfl, m, fun b hb => ?_⟩
      exact Pass.refusedBytes_mem.1 (heq ▸ hb)

/-- A stage that touches no refused byte leaves its stores. -/
theorem runPasses_cons {p : Params} {q : Pass} {rest : List Pass} {m : Memory} (h : BytesOk p (q.touches m)) :
    runPasses p (q :: rest) m = runPasses p rest (m.writeAll (q.cells m)) := by
  rw [runPasses, Pass.refusedBytes_nil.2 h]

theorem runPasses_append_ok {p : Params} {ps qs : List Pass} {m n : Memory} (h : runPasses p ps m = .ok n) :
    runPasses p (ps ++ qs) m = runPasses p qs n := by
  induction ps generalizing m with
  | nil => cases h; rfl
  | cons q rest ih =>
    rw [runPasses] at h
    rw [List.cons_append, runPasses]
    split at h
    · exact ih h
    · cases h

/-- What the stages leave alone: a byte no stage stores. -/
theorem runPasses_read_other {p : Params} {ps : List Pass} {m n : Memory} (h : runPasses p ps m = .ok n) {a : Nat}
    (hc : ∀ q ∈ ps, ∀ m' : Memory, ∀ c ∈ q.cells m', c.1 ≠ a) : n.read a = m.read a := by
  induction ps generalizing m with
  | nil => cases h; rfl
  | cons q rest ih =>
    unfold runPasses at h
    split at h
    · rw [ih h (fun q' hq => hc q' (List.mem_cons_of_mem _ hq))]
      exact Memory.read_writeAll_other _ _ _ (hc q List.mem_cons_self m)
    · cases h

theorem runPasses_wf {p : Params} {ps : List Pass} {m n : Memory} (h : runPasses p ps m = .ok n)
    (hm : m.wf = true) : n.wf = true := by
  induction ps generalizing m with
  | nil => cases h; exact hm
  | cons q rest ih =>
    unfold runPasses at h
    split at h
    · exact ih h (Memory.wf_writeAll _ hm)
    · cases h

theorem runPasses_below {p : Params} {ps : List Pass} {m n : Memory} {bound : Nat} (h : runPasses p ps m = .ok n)
    (hm : m.below bound = true) (hc : ∀ q ∈ ps, ∀ m' : Memory, ∀ c ∈ q.cells m', c.1 < bound) :
    n.below bound = true := by
  induction ps generalizing m with
  | nil => cases h; exact hm
  | cons q rest ih =>
    unfold runPasses at h
    split at h
    · exact ih h (Memory.below_writeAll _ hm (hc q List.mem_cons_self m))
        (fun q' hq => hc q' (List.mem_cons_of_mem _ hq))
    · cases h

/-- Everything the execution step of a command can do. -/
theorem runPlan_next {r : Except Err Plan} {s t : State} (h : runPlan r s = .next t) :
    (∃ e, r = .error e ∧ t = s.raise e) ∨
    ∃ p, r = .ok p ∧ p.mapsDevice s.params = false ∧
      ((∃ k bad, runPasses s.params p.passes s.mem = .error (k, bad) ∧ t = s.memFault p k bad) ∨
        ∃ m, runPasses s.params p.passes s.mem = .ok m ∧ t = (s.commit p m).complete) := by
  unfold runPlan at h
  split at h
  · next e => cases h; exact .inl ⟨e, rfl, rfl⟩
  · next p =>
    refine .inr ⟨p, rfl, ?_⟩
    unfold State.perform at h
    split at h
    · cases h
    · next hd =>
      refine ⟨by simpa using hd, ?_⟩
      split at h
      · next k bad heq => cases h; exact .inl ⟨k, bad, heq, rfl⟩
      · next m heq => cases h; exact .inr ⟨m, heq, rfl⟩

theorem runPlan_ok {s : State} {p : Plan} {m : Memory} (hd : p.mapsDevice s.params = false)
    (hm : runPasses s.params p.passes s.mem = .ok m) : runPlan (.ok p) s = .next (s.commit p m).complete := by
  simp [runPlan, State.perform, hd, hm]

theorem runPlan_not_fault {r : Except Err Plan} {s : State} {f : Fault} : runPlan r s ≠ .fault f := by
  unfold runPlan State.perform; intro h
  split at h
  · cases h
  · split at h
    · cases h
    · split at h <;> cases h

theorem runPlan_refused {r : Except Err Plan} {s : State} {q : Refusal} (h : runPlan r s = .refused q) :
    q = .deviceRegion ∧ ∃ p, r = .ok p ∧ p.mapsDevice s.params = true := by
  unfold runPlan at h
  split at h
  · cases h
  · next p =>
    unfold State.perform at h
    split at h
    · next hd => cases h; exact ⟨rfl, p, rfl, hd⟩
    · split at h <;> cases h

/-- Every command but NOP runs its plan. -/
theorem exec_eq_runPlan {i : Instr} (hi : i ≠ .nop) (s : State) : exec i s = runPlan (planOf i s) s := by
  cases i <;> first | exact absurd rfl hi | rfl

@[simp] theorem exec_nop (s : State) : exec .nop s = .next s.complete := rfl

/-! ### Buffers -/

theorem Buffer.nonempty_iff {b : Buffer} : b.nonempty = true ↔ 0 < b.rowBytes ∧ 0 < b.rows := by
  simp [Buffer.nonempty]

theorem Buffer.has_iff {b : Buffer} {a : Nat} :
    b.has a = true ↔ b.nonempty = true ∧ b.base ≤ a ∧ a < b.stop := by
  simp [Buffer.has, and_assoc]

theorem deviceAt_iff {p : Params} {a : Nat} : deviceAt p a = true ↔ ∃ r ∈ p.devices, r.lo ≤ a ∧ a < r.hi := by
  simp [deviceAt, addrIn]

/-- A region ends after it begins. -/
theorem Buffer.base_lt_stop {b : Buffer} (h : b.nonempty = true) : b.base < b.stop := by
  rw [Buffer.nonempty_iff] at h
  unfold Buffer.stop
  split
  · omega
  · have := Nat.mul_pos h.2 h.1; omega

/-- A plan maps a device exactly when one of its regions has a device byte (R55). -/
theorem Plan.mapsDevice_iff {p : Plan} {pr : Params} :
    p.mapsDevice pr = true ↔ ∃ b ∈ p.bufs, ∃ a, b.has a = true ∧ deviceAt pr a = true := by
  simp only [Plan.mapsDevice, List.any_eq_true, Bool.and_eq_true, decide_eq_true_eq, Buffer.has_iff, deviceAt_iff]
  constructor
  · rintro ⟨b, hb, hne, r, hr, ⟨h1, h2⟩, h3⟩
    have := Buffer.base_lt_stop hne
    exact ⟨b, hb, max b.base r.lo, ⟨hne, by omega, by omega⟩, r, hr, by omega, by omega⟩
  · rintro ⟨b, hb, a, ⟨hne, h1, h2⟩, r, hr, h3, h4⟩
    exact ⟨b, hb, hne, r, hr, ⟨by omega, by omega⟩, by omega⟩

theorem RegionsReady.mapsDevice {pr : Params} {p : Plan} (h : RegionsReady pr p.bufs) :
    p.mapsDevice pr = false := by
  by_contra hne
  obtain ⟨b, hb, a, ha, hd⟩ := Plan.mapsDevice_iff.1 (Bool.not_eq_false _ ▸ hne)
  rw [h.noDevice b hb a ha] at hd
  cases hd

theorem Plan.mem_writtenBytes {p : Plan} {a : Nat} : a ∈ p.writtenBytes ↔ p.writes a = true := by
  simp only [Plan.writtenBytes, Plan.writes, List.mem_flatMap, List.mem_filter, Bool.and_eq_true, List.mem_map,
    List.mem_range, List.any_eq_true, Buffer.has_iff]
  constructor
  · rintro ⟨b, ⟨hb, hw, hne⟩, j, hj, rfl⟩
    exact ⟨b, hb, hw, hne, by omega, by omega⟩
  · rintro ⟨b, hb, hw, hne, h1, h2⟩
    exact ⟨b, ⟨hb, hw, hne⟩, a - b.base, by omega, by omega⟩

/-- Scrambling leaves every byte outside the written regions alone (R153, R166). -/
theorem State.scramble_read_other (s : State) (p : Plan) {a : Nat} (h : p.writes a = false) :
    (s.scramble p).mem.read a = s.mem.read a := by
  refine Memory.read_writeAll_other _ _ _ fun c hc => ?_
  obtain ⟨b, hb, rfl⟩ := List.mem_map.1 hc
  rintro rfl
  rw [Plan.mem_writtenBytes.1 hb] at h
  cases h

/-- Scrambling gives every byte of the written regions the value drawn for it. -/
theorem State.scramble_read_written (s : State) (p : Plan) {a : Nat} (h : p.writes a = true) :
    (s.scramble p).mem.read a = Config.freeByte s.draws a := by
  refine Memory.read_writeAll_mem _ _ _ _ (List.mem_map.2 ⟨a, Plan.mem_writtenBytes.2 h, rfl⟩) ?_
  rintro c hc rfl
  obtain ⟨b, -, rfl⟩ := List.mem_map.1 hc
  rfl

/-- A free choice is a choice of a member. -/
theorem pickFrom_mem {α : Type} (draw : Nat) {l : List α} (other : α) (h : l ≠ []) : pickFrom draw l other ∈ l := by
  rw [pickFrom, List.getD_eq_getElem _ _ (Nat.mod_lt _ (List.length_pos_of_ne_nil h))]
  exact List.getElem_mem _

theorem pickRefused_mem (draw : Nat) {bad : List Nat} (h : bad ≠ []) : pickRefused draw bad ∈ bad :=
  pickFrom_mem draw 0 h

/-- The memories between the stages: each is what the stages of a prefix leave. -/
theorem stageMemories_mem {p : Params} {ps : List Pass} {m n : Memory} {later : List Memory}
    (h : stageMemories p ps m = some later) (hn : n ∈ m :: later) :
    ∃ pre post, ps = pre ++ post ∧ runPasses p pre m = .ok n := by
  induction ps generalizing m later with
  | nil =>
    cases h
    exact ⟨[], [], rfl, congrArg _ (List.mem_singleton.1 hn).symm⟩
  | cons q rest ih =>
    rcases List.mem_cons.1 hn with rfl | hn
    · exact ⟨[], q :: rest, rfl, rfl⟩
    · simp only [stageMemories] at h
      split at h
      · next hq =>
        obtain ⟨l, hl, rfl⟩ := Option.map_eq_some_iff.1 h
        obtain ⟨pre, post, rfl, hr⟩ := ih hl hn
        exact ⟨q :: pre, post, rfl, by rw [runPasses_cons (Pass.refusedBytes_nil.1 hq)]; exact hr⟩
      · cases h

/-- The memories between the stages are missing exactly where running the stages ends at a refused byte. -/
theorem stageMemories_none {p : Params} {ps : List Pass} {m : Memory} :
    stageMemories p ps m = none ↔ ∃ e, runPasses p ps m = .error e := by
  induction ps generalizing m with
  | nil => simp [stageMemories, runPasses]
  | cons q rest ih =>
    simp only [stageMemories, runPasses]
    cases q.refusedBytes p m with
    | nil => simp [ih]
    | cons a more => simp

/-! ### Images and planes as regions -/

theorem Image.buffer_stop (i : Image) (w : Bool) : (i.buffer w).stop = i.base + i.bytes := by
  simp only [Image.buffer, Buffer.stop, Image.bytes]
  ring

theorem Image.buffer_nonempty (i : Image) (w : Bool) : (i.buffer w).nonempty = true ↔ 0 < i.bytes := by
  rw [Buffer.nonempty_iff]
  show 0 < i.w * i.ch * i.size.bytes ∧ 0 < i.h ↔ _
  rw [Image.bytes, show i.w * i.h * i.ch * i.size.bytes = i.h * (i.w * i.ch * i.size.bytes) by ring]
  exact ⟨fun h => Nat.mul_pos h.2 h.1, fun h => ⟨Nat.pos_of_mul_pos_left h, Nat.pos_of_mul_pos_right h⟩⟩

/-- The bytes of an image's region. -/
theorem Image.buffer_has {i : Image} {w : Bool} {a : Nat} :
    (i.buffer w).has a = true ↔ i.base ≤ a ∧ a < i.base + i.bytes := by
  rw [Buffer.has_iff, Image.buffer_stop, Image.buffer_nonempty]
  show 0 < i.bytes ∧ i.base ≤ a ∧ _ ↔ _
  omega

theorem Image.mem_touched {i : Image} {a : Nat} : a ∈ i.touched ↔ i.base ≤ a ∧ a < i.base + i.bytes := by
  simp only [Image.touched, List.mem_map, List.mem_range]
  constructor
  · rintro ⟨j, hj, rfl⟩; omega
  · rintro ⟨h1, h2⟩; exact ⟨a - i.base, by omega, by omega⟩

theorem Plane.mem_touched {p : Plane} {a : Nat} : a ∈ p.touched ↔
    ∃ y < p.h, ∃ i < p.w * p.size.bytes, a = p.base + y * p.stride + i := by
  simp only [Plane.touched, List.mem_flatMap, List.mem_map, List.mem_range, eq_comm (b := a)]

/-- The bytes of a plane's samples lie in its region (R52). -/
theorem Plane.buffer_has_of_touched {p : Plane} {a : Nat} (h : a ∈ p.touched) : p.buffer.has a = true := by
  obtain ⟨y, hy, i, hi, rfl⟩ := Plane.mem_touched.1 h
  rw [Buffer.has_iff]
  refine ⟨?_, ?_, ?_⟩
  · rw [Buffer.nonempty_iff]; exact ⟨(Nat.zero_le i).trans_lt hi, (Nat.zero_le y).trans_lt hy⟩
  · simp only [Plane.buffer]; omega
  · simp only [Plane.buffer, Buffer.stop]
    have : y * p.stride ≤ (p.h - 1) * p.stride := Nat.mul_le_mul_right _ (by omega)
    omega

/-- Two regions of a command that passed its overlap check, one of them written, share no byte (R54). -/
theorem Buffer.disjoint_of_no_conflict {b c : Buffer} (h : b.conflict c = false)
    (hw : b.written = true ∨ c.written = true) {a : Nat} (hb : b.has a = true) : c.has a = false := by
  by_contra hc
  rw [Bool.not_eq_false] at hc
  rw [Buffer.has_iff] at hb hc
  simp only [Buffer.conflict, hb.1, hc.1, Bool.and_true, Bool.and_eq_false_iff, Bool.or_eq_false_iff,
    decide_eq_false_iff_not] at h
  rcases hw with hw | hw <;> simp [hw] at h <;> omega

end Sys2Proof.Machine
end

