-- ==== Sys2Proof/Laws/Footprint.lean ====
section
/-! SUPPORT. Every command stores only to the regions it writes and accesses only its regions (R52), and those end
inside the address space (R53). -/

namespace Sys2Proof.Machine

/-- The stages of a plan store only to the regions it writes. -/
def Plan.StoresInside (p : Plan) : Prop := ∀ q ∈ p.passes, ∀ m : Memory, ∀ c ∈ q.cells m, p.writes c.1 = true

/-- The stages of a plan access only its regions. -/
def Plan.TouchesInside (p : Plan) : Prop := ∀ q ∈ p.passes, ∀ m : Memory, ∀ a ∈ q.touches m, p.uses a = true

/-- The written regions of a plan end inside the address space. -/
def Plan.WritesBelow (p : Plan) (limit : Nat) : Prop := ∀ a, p.writes a = true → a < limit

theorem Plan.writes_of {p : Plan} {b : Buffer} {a : Nat} (hb : b ∈ p.bufs) (hw : b.written = true)
    (ha : b.has a = true) : p.writes a = true := by
  simp only [Plan.writes, List.any_eq_true, Bool.and_eq_true]; exact ⟨b, hb, hw, ha⟩

theorem Plan.uses_of {p : Plan} {b : Buffer} {a : Nat} (hb : b ∈ p.bufs) (ha : b.has a = true) :
    p.uses a = true := by
  simp only [Plan.uses, List.any_eq_true]; exact ⟨b, hb, ha⟩

theorem Plan.uses_of_writes {p : Plan} {a : Nat} (h : p.writes a = true) : p.uses a = true := by
  simp only [Plan.writes, List.any_eq_true, Bool.and_eq_true] at h
  obtain ⟨b, hb, -, ha⟩ := h
  exact Plan.uses_of hb ha

theorem Plan.writesBelow_of_geometry {p : Plan} {limit : Nat}
    (h : ∀ b ∈ p.bufs, b.badGeometry limit = false) : p.WritesBelow limit := by
  intro a ha
  simp only [Plan.writes, List.any_eq_true, Bool.and_eq_true] at ha
  obtain ⟨b, hb, -, hba⟩ := ha
  rw [Buffer.has_iff] at hba
  have := h b hb
  simp only [Buffer.badGeometry, hba.1, Bool.true_and, Bool.or_eq_false_iff, decide_eq_false_iff_not] at this
  omega

/-! ### Samples of an image lie in it -/

theorem Image.bytes_eq (i : Image) : i.bytes = i.pixels * i.ch * i.size.bytes := rfl

/-- The last byte of a channel of a pixel is inside the image. -/
theorem Image.addr_lt {i : Image} {k c : Nat} (hk : k < i.pixels) (hc : c < i.ch) :
    i.addr k c + i.size.bytes ≤ i.base + i.bytes := by
  have h1 : (k + 1) * i.ch ≤ i.pixels * i.ch := Nat.mul_le_mul_right _ hk
  have h2 : (k * i.ch + c + 1) * i.size.bytes ≤ i.pixels * i.ch * i.size.bytes :=
    Nat.mul_le_mul_right _ (by rw [Nat.add_one_mul] at h1; omega)
  rw [Image.addr, Image.bytes_eq]
  rw [Nat.add_one_mul] at h2
  omega

theorem Image.addr_ge (i : Image) (k c : Nat) : i.base ≤ i.addr k c := Nat.le_add_right _ _

/-- A run of as many samples as the image has stays in it. -/
theorem Image.runCells_inside {i : Image} {e : Endian} {vs : List Nat} (h : vs.length = i.pixels * i.ch)
    {c : Host.Cell} (hc : c ∈ runCells e i.size i.base vs) : i.base ≤ c.1 ∧ c.1 < i.base + i.bytes := by
  have := runCells_addr hc
  rw [h] at this
  exact this

theorem Image.sampleCells_inside {i : Image} {e : Endian} {k ch v : Nat} (hk : k < i.pixels) (hc : ch < i.ch)
    {c : Host.Cell} (h : c ∈ sampleCells e i.size (i.addr k ch) v) : i.base ≤ c.1 ∧ c.1 < i.base + i.bytes := by
  have h1 := sampleCells_addr h
  have h2 := Image.addr_lt hk hc
  have h3 := Image.addr_ge i k ch
  omega

/-! ### The lengths of what the stages write -/

theorem tripleSamples_length (s : State) (c : Chroma) (m : Memory) :
    (tripleSamples s c m).length = s.tri.pixels * s.tri.ch :=
  length_flatMap_range (ch := 3)
    (f := fun k => [(upsampleAt s m c k).y, (upsampleAt s m c k).u, (upsampleAt s m c k).v]) (fun _ => rfl) _

theorem rgbKind_channels (n : Nat) : (rgbKind n).channels = 3 := by unfold rgbKind; split <;> rfl

theorem grayKind_channels (n : Nat) : (grayKind n).image.channels = 1 := by unfold grayKind; split <;> rfl

theorem rgbKind_size (n : Nat) : (rgbKind n).size = depthSize n := by unfold rgbKind depthSize; split <;> rfl

theorem grayKind_size (n : Nat) : (grayKind n).image.size = depthSize n := by
  unfold grayKind depthSize; split <;> rfl

theorem rgbSamples_length (s : State) (c : Chroma) (mc : Nat) (mx : Matrix) (m : Memory) :
    (rgbSamples s c mc mx m).length = s.rgbImage.pixels * s.rgbImage.ch := by
  show _ = _ * (rgbKind _).channels
  rw [rgbKind_channels]
  exact length_flatMap_range (ch := 3)
    (f := fun k => [(convertAt s m c mc mx k).r, (convertAt s m c mc mx k).g, (convertAt s m c mc mx k).b])
    (fun _ => rfl) _

theorem graySamples_length (p : Params) (f : Frame) (l : Plane) (mc : Nat) (mx : Matrix) (m : Memory) :
    (graySamples p f l mc mx m).length = f.w * f.h := by
  simp [graySamples]

theorem colorGray_length (s : State) (mc : Nat) (mx : Matrix) (m : Memory) :
    (graySamples s.params s.colorFrame s.planeYC mc mx m).length = s.grayImage.pixels * s.grayImage.ch := by
  rw [graySamples_length]
  show _ = _ * (grayKind _).image.channels
  rw [grayKind_channels, Nat.mul_one]; rfl

theorem alphaGray_length (s : State) (mc : Nat) (mx : Matrix) (m : Memory) :
    (graySamples s.params s.alphaFrame s.planeYA mc mx m).length = s.alphaImage.pixels * s.alphaImage.ch := by
  rw [graySamples_length]
  show _ = _ * (grayKind _).image.channels
  rw [grayKind_channels, Nat.mul_one]; rfl

/-- A row of the compositing table gives four channels, and its result is an Rgba kind. -/
theorem compositeRow_rgba {ck : ImageKind} {ak : AlphaKind} {r : Composition} (h : compositeRow ck ak = some r) :
    (∀ c a, (r.pixel c a).length = 4) ∧ (r.result = .rgba8 ∨ r.result = .rgba16) := by
  cases ck <;> cases ak <;> simp only [compositeRow, Option.some.injEq, reduceCtorEq] at h <;> subst h <;>
    exact ⟨fun _ _ => rfl, by simp⟩

theorem compositeRow_channels {ck : ImageKind} {ak : AlphaKind} {r : Composition}
    (h : compositeRow ck ak = some r) : r.result.channels = 4 := by
  rcases (compositeRow_rgba h).2 with h | h <;> rw [h] <;> rfl

theorem blendSamples_length {ck : ImageKind} {ak : AlphaKind} {r : Composition} (h : compositeRow ck ak = some r)
    (e : Endian) (s : State) (m : Memory) (ai : Image) :
    (blendSamples e (s.cimg ck) ai r m).length = (s.out r.result).pixels * (s.out r.result).ch := by
  show _ = _ * r.result.channels
  rw [compositeRow_channels h]
  exact length_flatMap_range (fun k => (compositeRow_rgba h).1 _ _) _

/-! ### Each plan stays inside its regions -/

theorem Image.has_buffer {i : Image} {w : Bool} {c : Nat} (h : i.base ≤ c ∧ c < i.base + i.bytes) :
    (i.buffer w).has c = true := Image.buffer_has.2 h

theorem upsamplePass_stores (s : State) (c : Chroma) (m : Memory) {x : Host.Cell}
    (hx : x ∈ (upsamplePass s c).cells m) : (s.tri.buffer true).has x.1 = true :=
  Image.has_buffer (Image.runCells_inside (tripleSamples_length s c m) hx)

theorem convertPass_stores (s : State) (c : Chroma) (mc : Nat) (mx : Matrix) (m : Memory) {q : Pass}
    (hq : q ∈ convertPasses s c mc mx) {x : Host.Cell} (hx : x ∈ q.cells m) :
    (s.rgbImage.buffer true).has x.1 = true := by
  simp only [convertPasses, List.mem_cons, List.not_mem_nil, or_false] at hq
  rcases hq with rfl | rfl
  · cases hx
  · exact Image.has_buffer (Image.runCells_inside (rgbSamples_length s c mc mx m) hx)

theorem colorGrayPass_stores (s : State) (mc : Nat) (mx : Matrix) (m : Memory) {x : Host.Cell}
    (hx : x ∈ (colorGrayPass s mc mx).cells m) : (s.grayImage.buffer true).has x.1 = true :=
  Image.has_buffer (Image.runCells_inside (colorGray_length s mc mx m) hx)

theorem alphaPass_stores (s : State) (mc : Nat) (mx : Matrix) (m : Memory) {x : Host.Cell}
    (hx : x ∈ (alphaPass s mc mx).cells m) : (s.alphaImage.buffer true).has x.1 = true :=
  Image.has_buffer (Image.runCells_inside (alphaGray_length s mc mx m) hx)

theorem copyPass_stores {src dst : Image} (h : dst.bytes = src.bytes) (m : Memory) {x : Host.Cell}
    (hx : x ∈ (copyPass src dst).cells m) : (dst.buffer true).has x.1 = true := by
  simp only [copyPass, List.mem_map, List.mem_range] at hx
  obtain ⟨j, hj, rfl⟩ := hx
  exact Image.has_buffer ⟨Nat.le_add_right _ _, by dsimp only; omega⟩

theorem blendPass_stores {ck : ImageKind} {ak : AlphaKind} {r : Composition} (h : compositeRow ck ak = some r)
    (s : State) (e : Endian) (ai : Image) (m : Memory) {x : Host.Cell}
    (hx : x ∈ (blendPass e (s.cimg ck) ai (s.out r.result) r).cells m) :
    ((s.out r.result).buffer true).has x.1 = true :=
  Image.has_buffer (Image.runCells_inside (blendSamples_length h e s m ai) hx)

theorem unpremulPass_stores {img : Image} (h : img.ch = 4) (e : Endian) (m : Memory) {x : Host.Cell}
    (hx : x ∈ (unpremulPass e img).cells m) : (img.buffer true).has x.1 = true := by
  simp only [unpremulPass, List.mem_flatMap, List.mem_range] at hx
  obtain ⟨k, hk, hx⟩ := hx
  unfold unpremulCells at hx
  split at hx
  · cases hx
  · simp only [List.mem_flatMap, List.mem_range] at hx
    obtain ⟨c, hc, hx⟩ := hx
    exact Image.has_buffer (Image.sampleCells_inside hk (by omega) hx)

theorem cuTouches_inside (s : State) (c : Chroma) {a : Nat} (h : a ∈ cuTouches s c) :
    s.planeYC.buffer.has a = true ∨ (s.planeUC c).buffer.has a = true ∨ (s.planeVC c).buffer.has a = true := by
  simp only [cuTouches, List.mem_append, or_assoc] at h
  exact h.imp Plane.buffer_has_of_touched (.imp Plane.buffer_has_of_touched Plane.buffer_has_of_touched)

theorem Image.has_of_touched {i : Image} {w : Bool} {a : Nat} (h : a ∈ i.touched) : (i.buffer w).has a = true :=
  Image.has_buffer (Image.mem_touched.1 h)

theorem sampleBytes_mem {z : SampleSize} {a b : Nat} : b ∈ sampleBytes z a ↔ a ≤ b ∧ b < a + z.bytes := by
  simp only [sampleBytes, List.mem_map, List.mem_range]
  constructor
  · rintro ⟨j, hj, rfl⟩; omega
  · rintro ⟨h1, h2⟩; exact ⟨b - a, by omega, by omega⟩

theorem unpremulPass_touches {img : Image} (h : img.ch = 4) (e : Endian) (m : Memory) {a : Nat}
    (ha : a ∈ (unpremulPass e img).touches m) : a ∈ img.touched := by
  simp only [unpremulPass, List.mem_flatMap, List.mem_range] at ha
  obtain ⟨k, hk, ha⟩ := ha
  have key : ∀ c, c < 4 → a ∈ sampleBytes img.size (img.addr k c) → a ∈ img.touched := fun c hc hb => by
    have h1 := sampleBytes_mem.1 hb
    have h2 := Image.addr_lt hk (h ▸ hc)
    have h3 := Image.addr_ge img k c
    exact Image.mem_touched.2 (by omega)
  unfold unpremulTouches at ha
  rcases List.mem_append.1 ha with ha | ha
  · exact key 3 (by omega) ha
  · split at ha
    · cases ha
    · simp only [List.mem_flatMap, List.mem_range] at ha
      obtain ⟨c, hc, ha⟩ := ha
      exact key c (by omega) ha

theorem frameColorKind_image (s : State) : (s.colorFrame.sampling = .mono → s.frameCimg = s.grayImage) ∧
    (∀ c, s.colorFrame.sampling = .chroma c → s.frameCimg = s.rgbImage) := by
  constructor
  · intro h; simp only [State.frameCimg, frameColorKind, h, State.grayImage]
  · intro c h; simp only [State.frameCimg, frameColorKind, h, State.rgbImage]

theorem frameColorPasses_stores (s : State) (mc : Nat) (mx : Matrix) (m : Memory) {q : Pass}
    (hq : q ∈ frameColorPasses s mc mx) {x : Host.Cell} (hx : x ∈ q.cells m) :
    (s.frameCimg.buffer true).has x.1 = true := by
  unfold frameColorPasses at hq
  split at hq
  · next h =>
    rw [List.mem_singleton] at hq; subst hq
    rw [(frameColorKind_image s).1 h]; exact colorGrayPass_stores s mc mx m hx
  · next c h => rw [(frameColorKind_image s).2 c h]; exact convertPass_stores s c mc mx m hq hx

theorem frameColorPasses_touches (s : State) (mc : Nat) (mx : Matrix) (m : Memory) {q : Pass}
    (hq : q ∈ frameColorPasses s mc mx) {a : Nat} (ha : a ∈ q.touches m) :
    ∃ b ∈ framePlaneBufs s ++ [s.frameCimg.buffer true], b.has a = true := by
  unfold frameColorPasses at hq
  split at hq
  · next h =>
    rw [List.mem_singleton] at hq; subst hq
    simp only [framePlaneBufs, h, List.singleton_append, List.mem_cons, List.not_mem_nil, or_false,
      exists_eq_or_imp, exists_eq_left]
    rw [(frameColorKind_image s).1 h]
    exact (List.mem_append.1 ha).imp Plane.buffer_has_of_touched Image.has_of_touched
  · next c h =>
    simp only [framePlaneBufs, h, List.cons_append, List.nil_append, List.mem_cons, List.not_mem_nil, or_false,
      exists_eq_or_imp, exists_eq_left]
    rw [(frameColorKind_image s).2 c h]
    simp only [convertPasses, List.mem_cons, List.not_mem_nil, or_false] at hq
    rcases hq with rfl | rfl
    · rcases cuTouches_inside s c ha with h | h | h
      · exact .inl h
      · exact .inr (.inl h)
      · exact .inr (.inr (.inl h))
    · exact .inr (.inr (.inr (Image.has_of_touched ha)))

theorem out_bytes_eq_cimg (s : State) (k : ImageKind) : (s.out k).bytes = (s.cimg k).bytes := rfl

/-- Every command stores only to the regions it writes (R52). -/
theorem planOf_storesInside {i : Instr} {s : State} {p : Plan} (h : planOf i s = .ok p) : p.StoresInside := by
  intro q hq m c hc
  cases i with
  | nop => cases h; cases hq
  | upsample =>
    obtain ⟨-, ch, -, -, rfl⟩ := planUpsample_ok_iff.1 h
    rw [List.mem_singleton] at hq; subst hq
    exact Plan.writes_of (b := s.tri.buffer true) (by simp [upsampleBufs]) rfl (upsamplePass_stores s ch m hc)
  | convert =>
    obtain ⟨-, ch, -, mm, -, -, rfl⟩ := planConvert_ok_iff.1 h
    exact Plan.writes_of (b := s.rgbImage.buffer true) (by simp [convertBufs]) rfl
      (convertPass_stores s ch _ _ m hq hc)
  | convertGray =>
    obtain ⟨-, mm, -, -, rfl⟩ := planConvertGray_ok_iff.1 h
    rw [List.mem_singleton] at hq; subst hq
    exact Plan.writes_of (b := s.grayImage.buffer true) (by simp [convertGrayBufs]) rfl
      (colorGrayPass_stores s _ _ m hc)
  | extractAlpha =>
    obtain ⟨-, mm, -, -, rfl⟩ := planExtractAlpha_ok_iff.1 h
    rw [List.mem_singleton] at hq; subst hq
    exact Plan.writes_of (b := s.alphaImage.buffer true) (by simp [extractAlphaBufs]) rfl
      (alphaPass_stores s _ _ m hc)
  | composite a =>
    cases a with
    | false =>
      obtain ⟨ck, -, -, rfl⟩ := planCopy_ok_iff.1 h
      rw [List.mem_singleton] at hq; subst hq
      exact Plan.writes_of (b := (s.out ck).buffer true) (by simp [copyBufs]) rfl
        (copyPass_stores (out_bytes_eq_cimg s ck) m hc)
    | true =>
      obtain ⟨ck, -, ak, -, -, row, hrow, -, rfl⟩ := planBlend_ok_iff.1 h
      rw [List.mem_singleton] at hq; subst hq
      exact Plan.writes_of (b := (s.out row.result).buffer true) (by simp [blendBufs]) rfl
        (blendPass_stores hrow s _ _ m hc)
  | unpremultiply =>
    obtain ⟨k, ⟨hk, -⟩, -, rfl⟩ := planUnpremultiply_ok_iff.1 h
    rw [List.mem_singleton] at hq; subst hq
    refine Plan.writes_of (b := (s.out k).buffer true) (by simp [unpremulBufs]) rfl
      (unpremulPass_stores ?_ _ m hc)
    rcases hk with rfl | rfl <;> rfl
  | frame a pm =>
    cases a with
    | false =>
      obtain ⟨-, mm, -, -, rfl⟩ := planFramePlain_ok_iff.1 h
      rcases List.mem_append.1 hq with hq | hq
      · exact Plan.writes_of (b := s.frameCimg.buffer true) (by simp [framePlainBufs]) rfl
          (frameColorPasses_stores s _ _ m hq hc)
      · rw [List.mem_singleton] at hq; subst hq
        exact Plan.writes_of (b := (s.out (frameColorKind s.colorFrame)).buffer true) (by simp [framePlainBufs]) rfl
          (copyPass_stores (out_bytes_eq_cimg s _) m hc)
    | true =>
      obtain ⟨-, -, ma, -, mm, -, -, row, hrow, -, rfl⟩ := planFrameAlpha_ok_iff.1 h
      simp only [frameAlphaPasses, List.mem_append, List.mem_singleton] at hq
      rcases hq with ((rfl | hq) | rfl) | hq
      · exact Plan.writes_of (b := s.alphaImage.buffer true) (by simp [frameAlphaBufs]) rfl
          (alphaPass_stores s _ _ m hc)
      · exact Plan.writes_of (b := s.frameCimg.buffer true) (by simp [frameAlphaBufs]) rfl
          (frameColorPasses_stores s _ _ m hq hc)
      · exact Plan.writes_of (b := (s.out row.result).buffer true) (by simp [frameAlphaBufs]) rfl
          (blendPass_stores hrow s _ _ m hc)
      · split at hq
        · rw [List.mem_singleton] at hq; subst hq
          exact Plan.writes_of (b := (s.out row.result).buffer true) (by simp [frameAlphaBufs]) rfl
            (unpremulPass_stores (compositeRow_channels hrow) _ m hc)
        · cases hq

/-- Every command accesses only its regions (R52). -/
theorem planOf_touchesInside {i : Instr} {s : State} {p : Plan} (h : planOf i s = .ok p) : p.TouchesInside := by
  intro q hq m a ha
  cases i with
  | nop => cases h; cases hq
  | upsample =>
    obtain ⟨-, ch, -, -, rfl⟩ := planUpsample_ok_iff.1 h
    rw [List.mem_singleton] at hq; subst hq
    rcases List.mem_append.1 ha with ha | ha
    · rcases cuTouches_inside s ch ha with h | h | h <;> exact Plan.uses_of (by simp [upsampleBufs]) h
    · exact Plan.uses_of (b := s.tri.buffer true) (by simp [upsampleBufs]) (Image.has_of_touched ha)
  | convert =>
    obtain ⟨-, ch, -, mm, -, -, rfl⟩ := planConvert_ok_iff.1 h
    simp only [convertPasses, List.mem_cons, List.not_mem_nil, or_false] at hq
    rcases hq with rfl | rfl
    · rcases cuTouches_inside s ch ha with h | h | h <;> exact Plan.uses_of (by simp [convertBufs]) h
    · exact Plan.uses_of (b := s.rgbImage.buffer true) (by simp [convertBufs]) (Image.has_of_touched ha)
  | convertGray =>
    obtain ⟨-, mm, -, -, rfl⟩ := planConvertGray_ok_iff.1 h
    rw [List.mem_singleton] at hq; subst hq
    rcases List.mem_append.1 ha with ha | ha
    · exact Plan.uses_of (b := s.planeYC.buffer) (by simp [convertGrayBufs]) (Plane.buffer_has_of_touched ha)
    · exact Plan.uses_of (b := s.grayImage.buffer true) (by simp [convertGrayBufs]) (Image.has_of_touched ha)
  | extractAlpha =>
    obtain ⟨-, mm, -, -, rfl⟩ := planExtractAlpha_ok_iff.1 h
    rw [List.mem_singleton] at hq; subst hq
    rcases List.mem_append.1 ha with ha | ha
    · exact Plan.uses_of (b := s.planeYA.buffer) (by simp [extractAlphaBufs]) (Plane.buffer_has_of_touched ha)
    · exact Plan.uses_of (b := s.alphaImage.buffer true) (by simp [extractAlphaBufs]) (Image.has_of_touched ha)
  | composite al =>
    cases al with
    | false =>
      obtain ⟨ck, -, -, rfl⟩ := planCopy_ok_iff.1 h
      rw [List.mem_singleton] at hq; subst hq
      rcases List.mem_append.1 ha with ha | ha
      · exact Plan.uses_of (b := (s.cimg ck).buffer false) (by simp [copyBufs]) (Image.has_of_touched ha)
      · exact Plan.uses_of (b := (s.out ck).buffer true) (by simp [copyBufs]) (Image.has_of_touched ha)
    | true =>
      obtain ⟨ck, -, ak, -, -, row, hrow, -, rfl⟩ := planBlend_ok_iff.1 h
      rw [List.mem_singleton] at hq; subst hq
      rcases List.mem_append.1 ha with ha | ha
      · rcases List.mem_append.1 ha with ha | ha
        · exact Plan.uses_of (b := (s.cimg ck).buffer false) (by simp [blendBufs]) (Image.has_of_touched ha)
        · exact Plan.uses_of (b := (s.aimg ak).buffer false) (by simp [blendBufs]) (Image.has_of_touched ha)
      · exact Plan.uses_of (b := (s.out row.result).buffer true) (by simp [blendBufs]) (Image.has_of_touched ha)
  | unpremultiply =>
    obtain ⟨k, ⟨hk, -⟩, -, rfl⟩ := planUnpremultiply_ok_iff.1 h
    rw [List.mem_singleton] at hq; subst hq
    refine Plan.uses_of (b := (s.out k).buffer true) (by simp [unpremulBufs])
      (Image.has_of_touched (unpremulPass_touches ?_ _ m ha))
    rcases hk with rfl | rfl <;> rfl
  | frame al pm =>
    cases al with
    | false =>
      obtain ⟨-, mm, -, -, rfl⟩ := planFramePlain_ok_iff.1 h
      rcases List.mem_append.1 hq with hq | hq
      · obtain ⟨b, hb, hba⟩ := frameColorPasses_touches s _ _ m hq ha
        refine Plan.uses_of (b := b) ?_ hba
        simp only [framePlainBufs, List.mem_append, List.mem_cons, List.not_mem_nil, or_false] at hb ⊢
        tauto
      · rw [List.mem_singleton] at hq; subst hq
        rcases List.mem_append.1 ha with ha | ha
        · exact Plan.uses_of (b := s.frameCimg.buffer true) (by simp [framePlainBufs]) (Image.has_of_touched ha)
        · exact Plan.uses_of (b := (s.out (frameColorKind s.colorFrame)).buffer true) (by simp [framePlainBufs])
            (Image.has_of_touched ha)
    | true =>
      obtain ⟨-, -, ma, -, mm, -, -, row, hrow, -, rfl⟩ := planFrameAlpha_ok_iff.1 h
      simp only [frameAlphaPasses, List.mem_append, List.mem_singleton] at hq
      rcases hq with ((rfl | hq) | rfl) | hq
      · rcases List.mem_append.1 ha with ha | ha
        · exact Plan.uses_of (b := s.planeYA.buffer) (by simp [frameAlphaBufs]) (Plane.buffer_has_of_touched ha)
        · exact Plan.uses_of (b := s.alphaImage.buffer true) (by simp [frameAlphaBufs]) (Image.has_of_touched ha)
      · obtain ⟨b, hb, hba⟩ := frameColorPasses_touches s _ _ m hq ha
        refine Plan.uses_of (b := b) ?_ hba
        simp only [frameAlphaBufs, List.mem_append, List.mem_cons, List.not_mem_nil, or_false] at hb ⊢
        tauto
      · rcases List.mem_append.1 ha with ha | ha
        · rcases List.mem_append.1 ha with ha | ha
          · exact Plan.uses_of (b := s.frameCimg.buffer true) (by simp [frameAlphaBufs]) (Image.has_of_touched ha)
          · exact Plan.uses_of (b := s.alphaImage.buffer true) (by simp [frameAlphaBufs]) (Image.has_of_touched ha)
        · exact Plan.uses_of (b := (s.out row.result).buffer true) (by simp [frameAlphaBufs])
            (Image.has_of_touched ha)
      · split at hq
        · rw [List.mem_singleton] at hq; subst hq
          exact Plan.uses_of (b := (s.out row.result).buffer true) (by simp [frameAlphaBufs])
            (Image.has_of_touched (unpremulPass_touches (compositeRow_channels hrow) _ m ha))
        · cases hq

/-- Every command's written regions end inside the address space (R53). -/
theorem planOf_writesBelow {i : Instr} {s : State} {p : Plan} (h : planOf i s = .ok p) :
    p.WritesBelow (memSize s.params) := by
  apply Plan.writesBelow_of_geometry
  cases i with
  | nop => cases h; intro b hb; cases hb
  | upsample => obtain ⟨-, ch, -, hb, rfl⟩ := planUpsample_ok_iff.1 h; exact (checkBuffers_ok_iff.1 hb).1
  | convert => obtain ⟨-, ch, -, mm, -, hb, rfl⟩ := planConvert_ok_iff.1 h; exact (checkBuffers_ok_iff.1 hb).1
  | convertGray => obtain ⟨-, mm, -, hb, rfl⟩ := planConvertGray_ok_iff.1 h; exact (checkBuffers_ok_iff.1 hb).1
  | extractAlpha => obtain ⟨-, mm, -, hb, rfl⟩ := planExtractAlpha_ok_iff.1 h; exact (checkBuffers_ok_iff.1 hb).1
  | composite a =>
    cases a with
    | false => obtain ⟨ck, -, hb, rfl⟩ := planCopy_ok_iff.1 h; exact (checkBuffers_ok_iff.1 hb).1
    | true => obtain ⟨ck, -, ak, -, -, row, -, hb, rfl⟩ := planBlend_ok_iff.1 h; exact (checkBuffers_ok_iff.1 hb).1
  | unpremultiply => obtain ⟨k, -, hb, rfl⟩ := planUnpremultiply_ok_iff.1 h; exact hb
  | frame a pm =>
    cases a with
    | false => obtain ⟨-, mm, -, hb, rfl⟩ := planFramePlain_ok_iff.1 h; exact (checkBuffers_ok_iff.1 hb).1
    | true =>
      obtain ⟨-, -, ma, -, mm, -, -, row, -, hb, rfl⟩ := planFrameAlpha_ok_iff.1 h
      exact (checkBuffers_ok_iff.1 hb).1

/-- A command that ran to its end left every byte outside its written regions as it was. -/
theorem runPasses_frame {i : Instr} {s : State} {p : Plan} (h : planOf i s = .ok p) {m : Memory}
    (hm : runPasses s.params p.passes s.mem = .ok m) {a : Nat} (ha : p.writes a = false) :
    m.read a = s.mem.read a := by
  refine runPasses_read_other hm fun q hq m' c hc => ?_
  rintro rfl
  rw [planOf_storesInside h q hq m' c hc] at ha
  cases ha

end Sys2Proof.Machine
end

