-- ==== Sys2Proof/Laws/Results.lean ====
section
/-! SUPPORT. What a completed command leaves: the samples of the images it writes, and the bounds of its arithmetic. -/

namespace Sys2Proof.Machine

/-! ### Completion -/

/-- A command whose checks pass, whose regions map no device, whose accesses all succeed and whose buffers the host
left alone, completes. -/
theorem exec_completes {i : Instr} {s : State} {p : Plan} {m : Memory} (hi : i ≠ .nop) (hp : planOf i s = .ok p)
    (hd : p.mapsDevice s.params = false) (hm : runPasses s.params p.passes s.mem = .ok m)
    (ht : s.tainted = false) : exec i s = .next (s.completedWith (s.cfg.withKinds p) m) := by
  rw [exec_eq_runPlan hi, hp, runPlan_ok hd hm]
  congr 1
  unfold State.commit State.complete State.endCommand State.completedWith
  simp [ht]

theorem runPasses_one {p : Params} {q : Pass} {m : Memory} (h : BytesOk p (q.touches m)) :
    runPasses p [q] m = .ok (m.writeAll (q.cells m)) := by
  rw [runPasses_cons h]; rfl

theorem BytesOk.append {p : Params} {xs ys : List Nat} : BytesOk p (xs ++ ys) ↔ BytesOk p xs ∧ BytesOk p ys := by
  simp only [BytesOk, List.mem_append]
  exact ⟨fun h => ⟨fun a ha => h a (.inl ha), fun a ha => h a (.inr ha)⟩,
    fun h a ha => ha.elim (h.1 a) (h.2 a)⟩

/-! ### Samples of an image just written -/

/-- Channel c of pixel k of an image written as a run of pixels. -/
theorem Image.sample_runCells {i : Image} {e : Endian} {m : Memory} {f : Nat → List Nat} {n : Nat}
    (hf : ∀ k, (f k).length = i.ch) {k c v : Nat} (hk : k < n) (hv : (f k)[c]? = some v) :
    i.sample e (m.writeAll (runCells e i.size i.base ((List.range n).flatMap f))) k c = v % 256 ^ i.size.bytes := by
  have hc : c < i.ch := by rw [← hf k]; exact (List.getElem?_eq_some_iff.1 hv).1
  exact Memory.readSample_runCells _ _ _ _ _ _ _ ((getElem?_flatMap_range hf k c hk hc).trans hv)

/-- Sample number k of a one-channel image written as a run. -/
theorem Image.sample_runCells_map {i : Image} {e : Endian} {m : Memory} {f : Nat → Nat} {n : Nat} (hch : i.ch = 1)
    {k : Nat} (hk : k < n) :
    i.sample e (m.writeAll (runCells e i.size i.base ((List.range n).map f))) k 0 = f k % 256 ^ i.size.bytes := by
  rw [Image.sample, Image.addr, hch, Nat.mul_one, Nat.add_zero]
  exact Memory.readSample_runCells _ _ _ _ _ _ _ (by simp [hk])

/-- A sample changes only if one of its bytes does. -/
theorem Image.sample_congr {i : Image} {e : Endian} {m n : Memory} {k c : Nat} (hk : k < i.pixels) (hc : c < i.ch)
    (h : ∀ a, i.base ≤ a → a < i.base + i.bytes → m.read a = n.read a) : i.sample e m k c = i.sample e n k c := by
  refine Memory.readSample_congr _ _ _ fun j hj => h _ ?_ ?_
  · have := Image.addr_ge i k c; omega
  · have := Image.addr_lt hk hc; omega

/-- The byte a plane's sample starts at and the ones after it are among the plane's bytes. -/
theorem Plane.sample_touched {p : Plane} {x y j : Nat} (hx : x < p.w) (hy : y < p.h) (hj : j < p.size.bytes) :
    p.addr x y + j ∈ p.touched := by
  refine Plane.mem_touched.2 ⟨y, hy, x * p.size.bytes + j, ?_, by rw [Plane.addr]; omega⟩
  have : (x + 1) * p.size.bytes ≤ p.w * p.size.bytes := Nat.mul_le_mul_right _ hx
  rw [Nat.add_one_mul] at this
  omega

theorem Plane.sample_congr {p : Plane} {e : Endian} {m n : Memory} {x y : Nat} (hx : x < p.w) (hy : y < p.h)
    (h : ∀ a ∈ p.touched, m.read a = n.read a) : p.sample e m x y = p.sample e n x y :=
  Memory.readSample_congr _ _ _ fun _ hj => h _ (Plane.sample_touched hx hy hj)

/-! ### Reading where only some cells were stored -/

/-- A sample all of whose bytes were stored by its own cells and by no other. -/
theorem Memory.readSample_writeAll {m : Memory} {e : Endian} {z : SampleSize} {a v : Nat} {cs : List Host.Cell}
    (hin : ∀ c ∈ sampleCells e z a v, c ∈ cs)
    (hown : ∀ c ∈ cs, a ≤ c.1 → c.1 < a + z.bytes → c ∈ sampleCells e z a v) :
    Memory.readSample (m.writeAll cs) e z a = v % 256 ^ z.bytes := by
  rw [← readSample_sampleCells m e z a v]
  refine Memory.readSample_congr _ _ _ fun j hj => ?_
  have hex : ∃ w, (a + j, w) ∈ sampleCells e z a v := by
    cases z <;> cases e <;> simp only [SampleSize.bytes] at hj <;> interval_cases j <;>
      simp [sampleCells]
  obtain ⟨w, hw⟩ := hex
  have huniq : ∀ c ∈ sampleCells e z a v, c.1 = a + j → c.2 = w := by
    rintro ⟨k, x⟩ hc rfl
    revert hc hw
    cases z <;> cases e <;> simp only [SampleSize.bytes] at hj <;> interval_cases j <;>
      simp +contextual [sampleCells]
  rw [Memory.read_writeAll_mem _ _ _ w (hin _ hw) (fun c hc hca => huniq c
      (hown c hc (by omega) (by omega)) hca),
    Memory.read_writeAll_mem _ _ _ w hw huniq]

/-- Bytes of different samples of an image are different. -/
theorem Image.addr_inj {i : Image} {k c k' c' a : Nat} (hc : c < i.ch) (hc' : c' < i.ch)
    (h1 : i.addr k c ≤ a) (h2 : a < i.addr k c + i.size.bytes)
    (h3 : i.addr k' c' ≤ a) (h4 : a < i.addr k' c' + i.size.bytes) : k = k' ∧ c = c' := by
  have hz := SampleSize.bytes_pos i.size
  simp only [Image.addr] at h1 h2 h3 h4
  have hidx : k * i.ch + c = k' * i.ch + c' := by
    rcases Nat.lt_trichotomy (k * i.ch + c) (k' * i.ch + c') with h | h | h
    · have := Nat.mul_le_mul_right i.size.bytes h
      rw [Nat.succ_mul] at this; omega
    · exact h
    · have := Nat.mul_le_mul_right i.size.bytes h
      rw [Nat.succ_mul] at this; omega
  have hk : k = k' := by
    have h1 : (k * i.ch + c) / i.ch = k := by
      rw [Nat.mul_comm, Nat.mul_add_div (by omega), Nat.div_eq_of_lt hc, Nat.add_zero]
    have h2 : (k' * i.ch + c') / i.ch = k' := by
      rw [Nat.mul_comm, Nat.mul_add_div (by omega), Nat.div_eq_of_lt hc', Nat.add_zero]
    rw [← h1, hidx, h2]
  subst hk
  exact ⟨rfl, by omega⟩

/-- Where UP's stores fall: in a color channel of a pixel whose alpha is not 0. -/
theorem unpremulPass_cell {img : Image} {e : Endian} {m : Memory} {x : Host.Cell}
    (h : x ∈ (unpremulPass e img).cells m) : ∃ k < img.pixels, img.sample e m k 3 ≠ 0 ∧ ∃ c < 3,
      x ∈ sampleCells e img.size (img.addr k c)
        (unpremul (sampleMax img.size) (img.sample e m k c) (img.sample e m k 3)) := by
  simp only [unpremulPass, List.mem_flatMap, List.mem_range] at h
  obtain ⟨k, hk, h⟩ := h
  unfold unpremulCells at h
  split at h
  · cases h
  · next h0 =>
    simp only [List.mem_flatMap, List.mem_range] at h
    obtain ⟨c, hc, h⟩ := h
    exact ⟨k, hk, h0, c, hc, h⟩

/-- UP leaves a pixel with alpha 0 alone, and the alpha of every pixel (R130, R131). -/
theorem unpremulPass_kept {img : Image} {e : Endian} {m : Memory} (hch : img.ch = 4) {k c : Nat} (hc : c < 4)
    (h : img.sample e m k 3 = 0 ∨ c = 3) :
    img.sample e (m.writeAll ((unpremulPass e img).cells m)) k c = img.sample e m k c := by
  refine Memory.readSample_congr _ _ _ fun j hj => Memory.read_writeAll_other _ _ _ fun x hx hxa => ?_
  obtain ⟨k', -, h0, c', hc', hx⟩ := unpremulPass_cell hx
  have ha := sampleCells_addr hx
  obtain ⟨rfl, rfl⟩ := Image.addr_inj (i := img) (k := k) (c := c) (a := x.1) (by omega) (by omega : c' < img.ch)
    (by omega) (by omega) ha.1 ha.2
  rcases h with h | h
  · exact h0 h
  · omega

/-- UP's result in a color channel of a pixel whose alpha is not 0 (R129). -/
theorem unpremulPass_changed {img : Image} {e : Endian} {m : Memory} (hch : img.ch = 4) {k c : Nat}
    (hk : k < img.pixels) (hc : c < 3) (h : img.sample e m k 3 ≠ 0) :
    img.sample e (m.writeAll ((unpremulPass e img).cells m)) k c =
      unpremul (sampleMax img.size) (img.sample e m k c) (img.sample e m k 3) := by
  have hlt : unpremul (sampleMax img.size) (img.sample e m k c) (img.sample e m k 3) < 256 ^ img.size.bytes := by
    refine lt_of_le_of_lt (Nat.min_le_left _ _) ?_
    cases img.size <;> decide
  rw [← Nat.mod_eq_of_lt hlt]
  refine Memory.readSample_writeAll ?_ ?_
  · intro x hx
    simp only [unpremulPass, List.mem_flatMap, List.mem_range]
    refine ⟨k, hk, ?_⟩
    rw [unpremulCells, if_neg h]
    simp only [List.mem_flatMap, List.mem_range]
    exact ⟨c, hc, hx⟩
  · intro x hx h1 h2
    obtain ⟨k', -, h0, c', hc', hx⟩ := unpremulPass_cell hx
    have ha := sampleCells_addr hx
    obtain ⟨rfl, rfl⟩ := Image.addr_inj (i := img) (k := k) (c := c) (a := x.1) (by omega)
      (by omega : c' < img.ch) h1 h2 ha.1 ha.2
    exact hx

/-! ### Copied bytes -/

/-- A byte of a copied image. -/
theorem copyPass_read {src dst : Image} {m : Memory} {j : Nat} (hj : j < src.bytes) :
    (m.writeAll ((copyPass src dst).cells m)).read (dst.base + j) = m.read (src.base + j) := by
  refine Memory.read_writeAll_mem _ _ _ _ ?_ ?_
  · simp only [copyPass, List.mem_map, List.mem_range]
    exact ⟨j, hj, rfl⟩
  · rintro c hc hca
    simp only [copyPass, List.mem_map, List.mem_range] at hc
    obtain ⟨j', -, rfl⟩ := hc
    have : j' = j := by dsimp only at hca; omega
    rw [this]

/-! ### Bounds of the arithmetic -/

theorem quantize_le (m : Nat) (t : Frac) : quantize m t ≤ m := by
  unfold quantize; omega

/-- CSC_REF never leaves the output range (R102). -/
theorem cscRef_le (n : Nat) (range : ColorRange) (mx : Matrix) (t : Yuv) :
    (cscRef n range mx t).r ≤ mOut n ∧ (cscRef n range mx t).g ≤ mOut n ∧ (cscRef n range mx t).b ≤ mOut n := by
  unfold cscRef
  cases mx <;> exact ⟨quantize_le _ _, quantize_le _ _, quantize_le _ _⟩

theorem mOut_lt (n : Nat) : mOut n < 256 ^ (depthSize n).bytes := by
  unfold mOut depthSize; split <;> decide

/-- A listed point of `CSC` was looked up by its own key. -/
theorem cscRowAt_iff {c : CscRow} {n : Nat} {range : ColorRange} {mc : Nat} {t : Yuv} :
    cscRowAt c n range mc t = true ↔
      c.depth = n ∧ c.range = range ∧ c.mc = mc ∧ c.y = t.y ∧ c.u = t.u ∧ c.v = t.v := by
  simp [cscRowAt, and_assoc]

theorem CscRow_ok_le {c : CscRow} (h : c.ok = true) : c.r ≤ mOut c.depth ∧ c.g ≤ mOut c.depth ∧ c.b ≤ mOut c.depth := by
  simp only [CscRow.ok, Bool.and_eq_true, decide_eq_true_eq] at h
  exact ⟨h.1.1.1.1.1.1, h.1.1.1.1.1.2, h.1.1.1.1.2⟩

end Sys2Proof.Machine
end

