-- ==== Sys2Proof/Laws/Checks.lean ====
section
/-! SUPPORT. What the checks before a command say: which error, and of which regions (R147 to R154). -/

namespace Sys2Proof.Machine

/-! ### Regions in order, and pairs of them -/

theorem find_split {α : Type} {f : α → Bool} {l : List α} {x : α} (h : l.find? f = some x) : ∃ pre post, l = pre ++ x :: post ∧ f x = true ∧ ∀ c ∈ pre, f c = false := by
  rw [List.find?_eq_some_iff_append] at h
  obtain ⟨h1, as, bs, h2, h3⟩ := h
  exact ⟨as, bs, h2, h1, by simpa using h3⟩

/-- `check_overlap` looks at every pair of regions once (R151). -/
theorem pairsOf_mem {l : List Buffer} (hl : l.Pairwise (fun b c => b.offset < c.offset)) {b c : Buffer} :
    (b, c) ∈ pairsOf l ↔ b ∈ l ∧ c ∈ l ∧ b.offset < c.offset := by
  induction l with
  | nil => simp [pairsOf]
  | cons x r ih =>
    obtain ⟨h1, h2⟩ := List.pairwise_cons.1 hl
    simp only [pairsOf, List.mem_append, List.mem_map, Prod.mk.injEq, ih h2, List.mem_cons]
    constructor
    · rintro (⟨y, hy, rfl, rfl⟩ | ⟨h3, h4, h5⟩)
      · exact ⟨.inl rfl, .inr hy, h1 _ hy⟩
      · exact ⟨.inr h3, .inr h4, h5⟩
    · rintro ⟨rfl | hb, rfl | hc, h⟩
      · omega
      · exact .inl ⟨_, hc, rfl, rfl⟩
      · have := h1 _ hb; omega
      · exact .inr ⟨hb, hc, h⟩

/-- Two regions conflict when one is written and they share a byte (R54). -/
theorem conflict_iff {b c : Buffer} : b.conflict c = true ↔ (b.written = true ∨ c.written = true) ∧ ∃ a, b.has a = true ∧ c.has a = true := by
  simp only [Buffer.conflict, Bool.and_eq_true, Bool.or_eq_true, decide_eq_true_eq, Buffer.has_iff]
  constructor
  · rintro ⟨⟨⟨⟨h1, h2⟩, h3⟩, h4⟩, h5⟩
    have := Buffer.base_lt_stop h2
    have := Buffer.base_lt_stop h3
    exact ⟨h1, max b.base c.base, ⟨h2, by omega, by omega⟩, h3, by omega, by omega⟩
  · rintro ⟨h1, a, ⟨h2, h3, h4⟩, h5, h6, h7⟩
    exact ⟨⟨⟨⟨h1, h2⟩, h5⟩, by omega⟩, by omega⟩

/-- The pairs stand in the order R151 gives. -/
theorem pairsOf_pairwise {l : List Buffer} (hl : l.Pairwise (fun b c => b.offset < c.offset)) :
    (pairsOf l).Pairwise (fun q r => q.1.offset < r.1.offset ∨ (q.1.offset = r.1.offset ∧ q.2.offset ≤ r.2.offset)) := by
  induction l with
  | nil => simp [pairsOf]
  | cons x r ih =>
    obtain ⟨h1, h2⟩ := List.pairwise_cons.1 hl
    rw [pairsOf, List.pairwise_append]
    refine ⟨?_, ih h2, ?_⟩
    · rw [List.pairwise_map]
      exact h2.imp fun h => .inr ⟨rfl, Nat.le_of_lt h⟩
    · intro q hq q' hq'
      obtain ⟨y, hy, rfl⟩ := List.mem_map.1 hq
      obtain ⟨b, c⟩ := q'
      have := (pairsOf_mem h2).1 hq'
      exact .inl (h1 _ this.1)

/-! ### Running stages -/

theorem runPasses_cases (p : Params) (ps : List Pass) (m : Memory) : (∃ n, runPasses p ps m = .ok n) ∨ ∃ k bad, runPasses p ps m = .error (k, bad) := by
  cases h : runPasses p ps m with
  | ok n => exact .inl ⟨n, rfl⟩
  | error e => exact .inr ⟨e.1, e.2, rfl⟩

theorem runPasses_error_split {p : Params} {ps : List Pass} {m : Memory} {k : StageCode} {bad : List Nat}
    (h : runPasses p ps m = .error (k, bad)) :
    ∃ pre q post n, ps = pre ++ q :: post ∧ runPasses p pre m = .ok n ∧ q.stage = k ∧ bad ≠ [] ∧
      bad = q.refusedBytes p n := by
  induction ps generalizing m with
  | nil => cases h
  | cons q rest ih =>
    unfold runPasses at h
    split at h
    · next hn =>
      obtain ⟨pre, q', post, n, h1, h2, h3, h4⟩ := ih h
      refine ⟨q :: pre, q', post, n, by rw [h1]; rfl, ?_, h3, h4⟩
      rw [runPasses, hn]; exact h2
    · next a more heq =>
      cases h
      exact ⟨[], q, rest, m, rfl, rfl, rfl, List.cons_ne_nil _ _, heq.symm⟩

theorem runPasses_split_error {p : Params} {pre post : List Pass} {q : Pass} {m n : Memory}
    (h : runPasses p pre m = .ok n) (hb : ∃ b ∈ q.touches n, memOk p b = false) :
    runPasses p (pre ++ q :: post) m = .error (q.stage, q.refusedBytes p n) ∧ q.refusedBytes p n ≠ [] := by
  rw [runPasses_append_ok h]
  obtain ⟨b, hb, hr⟩ := hb
  have : b ∈ q.refusedBytes p n := Pass.refusedBytes_mem.2 ⟨hb, hr⟩
  unfold runPasses
  split
  · next hn => rw [hn] at this; cases this
  · next hn => rw [hn]; exact ⟨rfl, List.cons_ne_nil _ _⟩

theorem exec_error {i : Instr} {s : State} {e : Err} (hi : i ≠ .nop) (h : planOf i s = .error e) : exec i s = .next (s.raise e) := by
  rw [exec_eq_runPlan hi, h]; rfl

/-- What an error raised before the first access can be (R147, R152). -/
theorem planOf_error {i : Instr} {s : State} {e : Err} (h : planOf i s = .error e) :
    e.code ≠ .memFault ∧ e.code ≠ .none ∧ e.stage ≠ .none ∧ e.code ≠ .illegalCommand ∧
      (∀ a p, i = .frame a p → e.code ≠ .invalidChromaFormat ∧ e.code ≠ .invalidImageKind ∧ e.code ≠ .contractViolation) ∧
      (i = .unpremultiply → e.code ≠ .bufferOverlap) := by
  cases i with
  | nop => cases h
  | upsample =>
    simp only [planOf, planUpsample, bind_error_iff] at h
    rcases h with h | ⟨_, -, h | ⟨_, -, h | ⟨_, -, h⟩⟩⟩
    · have := checkDepth_error h; simp [this]
    · have := checkChroma_error h; simp [this]
    · rcases checkBuffers_error h with ⟨h | h, h'⟩ <;> simp [h, h']
    · cases h
  | convert =>
    simp only [planOf, planConvert, bind_error_iff] at h
    rcases h with h | ⟨_, -, h | ⟨_, -, h | ⟨_, -, h | ⟨_, -, h⟩⟩⟩⟩
    · have := checkDepth_error h; simp [this]
    · have := checkChroma_error h; simp [this]
    · have := checkMatrix_error h; simp [this]
    · rcases checkBuffers_error h with ⟨h | h, h'⟩ <;> simp [h, h']
    · cases h
  | convertGray =>
    simp only [planOf, planConvertGray, bind_error_iff] at h
    rcases h with h | ⟨_, -, h | ⟨_, -, h | ⟨_, -, h⟩⟩⟩
    · have := checkDepth_error h; simp [this]
    · have := checkMatrix_error h; simp [this]
    · rcases checkBuffers_error h with ⟨h | h, h'⟩ <;> simp [h, h']
    · cases h
  | extractAlpha =>
    simp only [planOf, planExtractAlpha, bind_error_iff] at h
    rcases h with h | ⟨_, -, h | ⟨_, -, h | ⟨_, -, h⟩⟩⟩
    · have := checkDepth_error h; simp [this]
    · have := checkMatrix_error h; simp [this]
    · rcases checkBuffers_error h with ⟨h | h, h'⟩ <;> simp [h, h']
    · cases h
  | composite a =>
    cases a
    · simp only [planOf, planComposite, planCopy, bind_error_iff, if_false, Bool.false_eq_true] at h
      rcases h with h | ⟨_, -, h | ⟨_, -, h⟩⟩
      · have := checkCimgKind_error h; simp [this]
      · rcases checkBuffers_error h with ⟨h | h, h'⟩ <;> simp [h, h']
      · cases h
    · simp only [planOf, planComposite, planBlend, bind_error_iff, if_true] at h
      rcases h with h | ⟨_, -, h | ⟨_, -, h | ⟨_, -, h | ⟨_, -, h | ⟨_, -, h⟩⟩⟩⟩⟩
      · have := checkCimgKind_error h; simp [this]
      · have := checkAimgKind_error h; simp [this]
      · have := checkDims_error h; simp [this]
      · have := checkRow_error h; simp [this]
      · rcases checkBuffers_error h with ⟨h | h, h'⟩ <;> simp [h, h']
      · cases h
  | unpremultiply =>
    simp only [planOf, planUnpremultiply, bind_error_iff] at h
    rcases h with h | ⟨_, -, h | ⟨_, -, h⟩⟩
    · have := checkOutKind_error h; simp [this]
    · have := checkGeometry_error h; simp [this]
    · cases h
  | frame a p =>
    have hst : ∀ f, frameDepthStage f ≠ .none := by intro f; unfold frameDepthStage; split <;> decide
    cases a
    · simp only [planOf, planFrame, planFramePlain, bind_error_iff, if_false, Bool.false_eq_true] at h
      rcases h with h | ⟨_, -, h | ⟨_, -, h | ⟨_, -, h⟩⟩⟩
      · have := checkDepth_error h; simp [this, hst]
      · have := checkFrameMatrix_error h; rcases this with ⟨h1, h2 | h2⟩ <;> simp [h1, h2]
      · rcases checkBuffers_error h with ⟨h | h, h'⟩ <;> simp [h, h']
      · cases h
    · simp only [planOf, planFrame, planFrameAlpha, bind_error_iff, if_true] at h
      rcases h with h | ⟨_, -, h | ⟨_, -, h | ⟨_, -, h | ⟨_, -, h | ⟨_, -, h | ⟨_, -, h | ⟨_, -, h⟩⟩⟩⟩⟩⟩⟩
      · have := checkDepth_error h; simp [this]
      · have := checkDepth_error h; simp [this, hst]
      · have := checkMatrix_error h; simp [this]
      · have := checkFrameMatrix_error h; rcases this with ⟨h1, h2 | h2⟩ <;> simp [h1, h2]
      · have := checkDims_error h; simp [this]
      · exfalso
        unfold checkRow at h
        split at h
        · cases h
        · next hr =>
          revert hr
          unfold frameColorKind rgbKind grayKind
          split <;> split <;> split <;> simp [compositeRow, AlphaKind.image]
      · rcases checkRegions_error h with ⟨h | h, h'⟩ <;> simp [h, h']
      · cases h

/-! ### The errors of single checks -/

theorem depthLegal_iff {n : Nat} : depthLegal n = true ↔ 8 ≤ n ∧ n ≤ 16 := by simp [depthLegal]

theorem or_shift (a b : Nat) (ha : a < 65536) (hb : b < 65536) : BitVec.ofNat 32 a ||| (BitVec.ofNat 32 b <<< 16) = BitVec.ofNat 32 (a + b * 65536) := by
  apply BitVec.eq_of_toNat_eq
  rw [BitVec.toNat_or, BitVec.toNat_shiftLeft, BitVec.toNat_ofNat, BitVec.toNat_ofNat, BitVec.toNat_ofNat]
  have e1 : a % 2 ^ 32 = a := Nat.mod_eq_of_lt (by omega)
  have e2 : b % 2 ^ 32 = b := Nat.mod_eq_of_lt (by omega)
  rw [e1, e2, Nat.shiftLeft_eq]
  have e3 : b * 2 ^ 16 % 2 ^ 32 = 2 ^ 16 * b := by rw [Nat.mod_eq_of_lt (by omega)]; omega
  rw [e3, Nat.or_comm, ← Nat.two_pow_add_eq_or_of_lt (by omega : a < 2 ^ 16)]
  omega

theorem depth_lt (w : Word) : fmtDepth w < 65536 := by
  have : fmtDepth w < 2 ^ 5 := (w.extractLsb' 16 5).isLt
  omega

theorem checkDepth_bad {f : Frame} {k : StageCode} (h : ¬ (8 ≤ f.depth ∧ f.depth ≤ 16)) (hd : f.depth < 65536) (ho : f.fmtOffset < 65536) :
    checkDepth f k = .error ⟨.invalidDepth, k, BitVec.ofNat 32 (f.depth + f.fmtOffset * 65536)⟩ := by
  unfold checkDepth
  rw [if_neg (by rw [depthLegal_iff]; exact h), or_shift _ _ hd ho]

theorem checkDepth_good {f : Frame} {k : StageCode} (h1 : 8 ≤ f.depth) (h2 : f.depth ≤ 16) : checkDepth f k = .ok () :=
  checkDepth_ok_iff.2 (depthLegal_iff.2 ⟨h1, h2⟩)

theorem colorDepthBad {s : State} {k : StageCode} (h : ¬ (8 ≤ s.colorFrame.depth ∧ s.colorFrame.depth ≤ 16)) :
    checkDepth s.colorFrame k = .error ⟨.invalidDepth, k, BitVec.ofNat 32 (s.colorFrame.depth + 0x010 * 65536)⟩ :=
  checkDepth_bad h (depth_lt _) (by decide : 0x010 < 65536)

theorem alphaDepthBad {s : State} {k : StageCode} (h : ¬ (8 ≤ s.alphaFrame.depth ∧ s.alphaFrame.depth ≤ 16)) :
    checkDepth s.alphaFrame k = .error ⟨.invalidDepth, k, BitVec.ofNat 32 (s.alphaFrame.depth + 0x030 * 65536)⟩ :=
  checkDepth_bad h (depth_lt _) (by decide : 0x030 < 65536)

theorem checkMatrix_bad {p : Params} {f : Frame} {d : Nat} {k : StageCode} (h : matrixOf p (resolveMc f.mc d) = none) :
    checkMatrix p f d k = .error ⟨.unsupportedColorMetadata, k,
      BitVec.ofNat 32 (resolveMc f.mc d % 256) ||| (BitVec.ofNat 32 (if f.range = .full then 1 else 0) <<< 8)⟩ := by
  unfold checkMatrix; simp only [h]

theorem checkMatrix_good {p : Params} {f : Frame} {d : Nat} {k : StageCode} {m : Matrix} (h : matrixOf p (resolveMc f.mc d) = some m) :
    checkMatrix p f d k = .ok (resolveMc f.mc d, m) := by
  unfold checkMatrix; simp only [h]

set_option maxRecDepth 100000 in
theorem mcInfo (mc : Nat) (b : Bool) :
   let w := BitVec.ofNat 32 (mc % 256) ||| (BitVec.ofNat 32 (if b then 1 else 0) <<< 8)
   w.extractLsb' 0 8 = BitVec.ofNat 8 mc ∧ w.getLsbD 8 = b ∧ w.extractLsb' 9 23 = 0 := by
  have : BitVec.ofNat 8 mc = BitVec.ofNat 8 (mc % 256) := by apply BitVec.eq_of_toNat_eq; simp
  dsimp only
  rw [this]
  generalize hm : mc % 256 = m
  have : m < 256 := by omega
  clear hm
  revert b
  have : ∀ m : Fin 256, ∀ b : Bool, (BitVec.ofNat 32 m ||| (BitVec.ofNat 32 (if b then 1 else 0) <<< 8)).extractLsb' 0 8 = BitVec.ofNat 8 m ∧ (BitVec.ofNat 32 m ||| (BitVec.ofNat 32 (if b then 1 else 0) <<< 8)).getLsbD 8 = b ∧ (BitVec.ofNat 32 m ||| (BitVec.ofNat 32 (if b then 1 else 0) <<< 8)).extractLsb' 9 23 = 0 := by decide +revert
  exact this ⟨m, by omega⟩

theorem kindInfo_eq (o : Nat) (ho : o < 65536) (c : BitVec 3) : kindInfo o c = BitVec.ofNat 32 (c.toNat + o * 65536) := by
  unfold kindInfo
  rw [← or_shift c.toNat o (by have := c.isLt; omega) ho]
  congr 1
  apply BitVec.eq_of_toNat_eq
  rw [BitVec.toNat_setWidth, BitVec.toNat_ofNat]

theorem mcS {p : Params} {mc : Nat} : ¬ mcSupported p mc = true ↔ matrixOf p mc = none := by
  unfold mcSupported; cases matrixOf p mc <;> simp

theorem mcS' {p : Params} {mc : Nat} : mcSupported p mc = true ↔ ∃ m, matrixOf p mc = some m := by
  unfold mcSupported; cases matrixOf p mc <;> simp

end Sys2Proof.Machine
end

