-- ==== Sys2Proof/Laws/ColorMath.lean ====
section
/-! SUPPORT. The arithmetic of the stages against exact rationals, and the bounds of what they write. -/

namespace Sys2Proof.Machine

/-! ### Bounds -/

theorem csc_le {p : Params} (hw : p.wf = true) (n : Nat) (r : ColorRange) (mc : Nat) (mx : Matrix) (t : Yuv) :
    (csc p n r mc mx t).r ≤ mOut n ∧ (csc p n r mc mx t).g ≤ mOut n ∧ (csc p n r mc mx t).b ≤ mOut n := by
  unfold csc
  split
  · next c hc =>
    have hk := List.find?_some hc
    have hm := List.mem_of_find?_eq_some hc
    have hok : c.ok = true := by
      simp only [Params.wf, Bool.and_eq_true, Params.cscOk, List.all_eq_true] at hw
      exact hw.2 c hm
    have := CscRow_ok_le hok
    rw [(cscRowAt_iff.1 hk).1] at this
    exact this
  · exact cscRef_le n r mx t

theorem csc_lt {p : Params} (hw : p.wf = true) (n : Nat) (r : ColorRange) (mc : Nat) (mx : Matrix) (t : Yuv) :
    (csc p n r mc mx t).r < 256 ^ (depthSize n).bytes ∧ (csc p n r mc mx t).g < 256 ^ (depthSize n).bytes ∧ (csc p n r mc mx t).b < 256 ^ (depthSize n).bytes := by
  have h := csc_le hw n r mc mx t
  have := mOut_lt n
  omega

theorem widen_lt {v : Nat} (h : v < 256) : widen v < 65536 := by
  unfold widen
  exact Nat.or_lt_two_pow (n := 16) (by rw [Nat.shiftLeft_eq]; omega) (by omega)

theorem row_lt {ck : ImageKind} {ak : AlphaKind} {row : Composition} (h : compositeRow ck ak = some row) {px : Nat → Nat} {a : Nat}
   (hp : ∀ j, px j < 256 ^ ck.size.bytes) (ha : a < 256 ^ ak.image.size.bytes) : ∀ v ∈ row.pixel px a, v < 256 ^ row.result.size.bytes := by
  have w : ∀ v, v < 256 → widen v < 65536 := fun v => widen_lt
  have h0 := hp 0; have h1 := hp 1; have h2 := hp 2
  cases ck <;> cases ak <;> simp only [compositeRow, Option.some.injEq, reduceCtorEq] at h <;> subst h <;>
    simp [ImageKind.size, SampleSize.bytes, AlphaKind.image] at h0 h1 h2 ha ⊢ <;> simp_all

/-! ### Exact fractions as rationals -/

theorem floor_div_pos (a b : Int) (hb : 0 < b) : ⌊(a : ℚ) / (b : ℚ)⌋ = a / b := by
  have hb' : (0 : ℚ) < b := by exact_mod_cast hb
  rw [Int.floor_eq_iff]
  constructor
  · rw [le_div_iff₀ hb']; exact_mod_cast Int.ediv_mul_le a (by omega)
  · rw [div_lt_iff₀ hb']
    have := Int.lt_ediv_add_one_mul_self a hb
    exact_mod_cast this

/-- The floor of a quotient, whatever the sign of its divisor. -/
theorem floor_div (a b : Int) (hb : b ≠ 0) : ⌊(a : ℚ) / (b : ℚ)⌋ = Int.fdiv a b := by
  rcases lt_or_gt_of_ne hb with h | h
  · rw [← Int.neg_fdiv_neg, Int.fdiv_eq_ediv_of_nonneg _ (by omega), ← floor_div_pos _ _ (by omega)]
    push_cast; rw [neg_div_neg_eq]
  · rw [Int.fdiv_eq_ediv_of_nonneg _ (by omega), floor_div_pos _ _ h]

/-- Quantizing is rounding half up and clamping (R102). -/
theorem quantize_rat (m : Nat) (t : Frac) (hd : t.den ≠ 0) :
    (quantize m t : Int) = min (max ⌊((t.num : ℚ) / t.den) * m + 1 / 2⌋ 0) m := by
  have hf : Int.fdiv (2 * t.num * m + t.den) (2 * t.den) = ⌊((t.num : ℚ) / t.den) * m + 1 / 2⌋ := by
    have hden : (t.den : ℚ) ≠ 0 := by exact_mod_cast hd
    have e : ((t.num : ℚ) / t.den) * m + 1 / 2 = ((2 * t.num * m + t.den : Int) : ℚ) / ((2 * t.den : Int) : ℚ) := by
      push_cast; field_simp; try ring
    rw [e, floor_div _ _ (by omega)]
  unfold quantize
  rw [hf]
  rw [Int.toNat_of_nonneg (by omega)]

/-- The rational a fraction stands for. -/
def Frac.val (x : Frac) : ℚ := (x.num : ℚ) / x.den

theorem val_add {x y : Frac} (hx : x.den ≠ 0) (hy : y.den ≠ 0) : Frac.val (x.add y) = Frac.val x + Frac.val y := by
  have hx' : (x.den : ℚ) ≠ 0 := by exact_mod_cast hx
  have hy' : (y.den : ℚ) ≠ 0 := by exact_mod_cast hy
  simp only [Frac.val, Machine.Frac.add]; push_cast; field_simp

theorem val_sub {x y : Frac} (hx : x.den ≠ 0) (hy : y.den ≠ 0) : Frac.val (x.sub y) = Frac.val x - Frac.val y := by
  have hx' : (x.den : ℚ) ≠ 0 := by exact_mod_cast hx
  have hy' : (y.den : ℚ) ≠ 0 := by exact_mod_cast hy
  simp only [Frac.val, Machine.Frac.sub]; push_cast; field_simp

theorem val_mul {x y : Frac} : Frac.val (x.mul y) = Frac.val x * Frac.val y := by
  simp only [Frac.val, Machine.Frac.mul]; push_cast; rw [div_mul_div_comm]

theorem val_div {x y : Frac} (hy : y.num ≠ 0) : Frac.val (x.div y) = Frac.val x / Frac.val y := by
  simp only [Frac.val, Machine.Frac.div, if_neg hy]; push_cast; rw [div_div_div_eq]

/-- The working values of a triple (R97 to R99). -/
theorem working_vals (n : Nat) (range : ColorRange) (t : Yuv) (h8 : 8 ≤ n) :
    let mIn : ℚ := 2 ^ n - 1
    let y : ℚ := min (t.y : ℚ) mIn
    let u : ℚ := min (t.u : ℚ) mIn
    let v : ℚ := min (t.v : ℚ) mIn
    let sc : ℚ := 2 ^ (n - 8)
    let w := match range with
      | .full => denormFull n (clampIn n t)
      | .limited => denormLimited n (clampIn n t)
    (0 < w.yn.den ∧ 0 < w.pb.den ∧ 0 < w.pr.den) ∧
    Frac.val w.yn = (match range with | .full => y / mIn | .limited => (y - 16 * sc) / (219 * sc)) ∧
    Frac.val w.pb = (match range with | .full => (u - 2 ^ (n - 1)) / mIn | .limited => (u - 128 * sc) / (224 * sc)) ∧
    Frac.val w.pr = (match range with | .full => (v - 2 ^ (n - 1)) / mIn | .limited => (v - 128 * sc) / (224 * sc)) := by
  have hp : 1 ≤ 2 ^ n := Nat.one_le_two_pow
  have h2 : 2 ^ 8 ≤ 2 ^ n := Nat.pow_le_pow_right (by omega) h8
  have hM : ((mIn n : Nat) : ℚ) = 2 ^ n - 1 := by unfold mIn; push_cast [hp]; rfl
  have hM0 : 0 < mIn n := by unfold mIn; omega
  have hM1 : (0 : Int) < (mIn n : Int) := by exact_mod_cast hM0
  have hS : (0 : Int) < 2 ^ (n - 8) := by positivity
  cases range
  · refine ⟨⟨?_, ?_, ?_⟩, ?_, ?_, ?_⟩
    · simp only [denormLimited]; omega
    · simp only [denormLimited]; omega
    · simp only [denormLimited]; omega
    · simp only [denormLimited, clampIn, Frac.val, ← hM]; push_cast; rfl
    · simp only [denormLimited, clampIn, Frac.val, ← hM]; push_cast; rfl
    · simp only [denormLimited, clampIn, Frac.val, ← hM]; push_cast; rfl
  · refine ⟨⟨hM1, hM1, hM1⟩, ?_, ?_, ?_⟩
    · simp only [denormFull, clampIn, Frac.val, ← hM]; push_cast; rfl
    · simp only [denormFull, clampIn, Frac.val, ← hM]; push_cast; rfl
    · simp only [denormFull, clampIn, Frac.val, ← hM]; push_cast; rfl

/-- The three primaries of a matrix (R100, R101). -/
theorem ncl_vals (k : KrKb) (w : Working) (hd0 : 0 < k.den) (hk : k.kr + k.kb ≠ k.den) (hw : 0 < w.yn.den ∧ 0 < w.pb.den ∧ 0 < w.pr.den) :
    let kr : ℚ := (k.kr : ℚ) / k.den
    let kb : ℚ := (k.kb : ℚ) / k.den
    let kg : ℚ := 1 - kr - kb
    let yn := Frac.val w.yn
    let rn : ℚ := yn + 2 * (1 - kr) * Frac.val w.pr
    let bn : ℚ := yn + 2 * (1 - kb) * Frac.val w.pb
    let gn : ℚ := (yn - kr * rn - kb * bn) / kg
    ((nclR k w).den ≠ 0 ∧ (nclG k w).den ≠ 0 ∧ (nclB k w).den ≠ 0) ∧
    Frac.val (nclR k w) = rn ∧ Frac.val (nclG k w) = gn ∧ Frac.val (nclB k w) = bn := by
  intro kr kb kg yn rn bn gn
  obtain ⟨hy, hb, hr⟩ := hw
  have hd : (0 : Int) < k.den := by omega
  have hg : (fracG k).num ≠ 0 := by simp only [fracG]; omega
  have hdq : (k.den : ℚ) ≠ 0 := by have : (0 : ℚ) < k.den := by exact_mod_cast hd
                                   exact ne_of_gt this
  have vkr : Frac.val (fracR k) = kr := rfl
  have vkb : Frac.val (fracB k) = kb := rfl
  have vkg : Frac.val (fracG k) = kg := by
    simp only [Frac.val, fracG, kg, kr, kb]; push_cast; field_simp
  have one : Frac.val (Frac.whole 1) = 1 := by simp [Frac.val, Frac.whole]
  have two : Frac.val (Frac.whole 2) = 2 := by simp [Frac.val, Frac.whole]
  have dR : 0 < (nclR k w).den := by
    simp only [nclR, Frac.add, Frac.mul, Frac.sub, Frac.whole, fracR]
    positivity
  have dB : 0 < (nclB k w).den := by
    simp only [nclB, Frac.add, Frac.mul, Frac.sub, Frac.whole, fracB]
    positivity
  have dX : 0 < ((w.yn.sub ((fracR k).mul (nclR k w))).sub ((fracB k).mul (nclB k w))).den := by
    show 0 < (w.yn.den * ((k.den : Int) * (nclR k w).den)) * ((k.den : Int) * (nclB k w).den)
    positivity
  have dG : (nclG k w).den ≠ 0 := by
    rw [nclG, Frac.div, if_neg hg]
    exact mul_ne_zero dX.ne' hg
  have vR : Frac.val (nclR k w) = rn := by
    rw [nclR, val_add (ne_of_gt hy) ?_, val_mul, val_mul, val_sub (by simp [Frac.whole]) (by simp [fracR]; omega), one, two, vkr]
    simp only [Frac.mul, Frac.sub, Frac.whole, fracR]; positivity
  have vB : Frac.val (nclB k w) = bn := by
    rw [nclB, val_add (ne_of_gt hy) ?_, val_mul, val_mul, val_sub (by simp [Frac.whole]) (by simp [fracB]; omega), one, two, vkb]
    simp only [Frac.mul, Frac.sub, Frac.whole, fracB]; positivity
  refine ⟨⟨dR.ne', dG, dB.ne'⟩, vR, ?_, vB⟩
  rw [nclG, val_div hg, val_sub ?_ ?_, val_sub (ne_of_gt hy) ?_, val_mul, val_mul, vkr, vkb, vR, vB, vkg]
  · show ((k.den : Int) * (nclR k w).den) ≠ 0; positivity
  · show (w.yn.den * ((k.den : Int) * (nclR k w).den)) ≠ 0; positivity
  · show ((k.den : Int) * (nclB k w).den) ≠ 0; positivity

theorem ref_core (n : Nat) (w : Working) (hden : 0 < w.yn.den ∧ 0 < w.pb.den ∧ 0 < w.pr.den) :
    ((quantize (mOut n) w.yn : Int) = min (max ⌊Frac.val w.yn * mOut n + 1 / 2⌋ 0) (mOut n)) ∧
    ∀ k : KrKb, 0 < k.den → k.kr + k.kb ≠ k.den →
    let kr : ℚ := (k.kr : ℚ) / k.den
    let kb : ℚ := (k.kb : ℚ) / k.den
    let kg : ℚ := 1 - kr - kb
    let yn := Frac.val w.yn
    let rn : ℚ := yn + 2 * (1 - kr) * Frac.val w.pr
    let bn : ℚ := yn + 2 * (1 - kb) * Frac.val w.pb
    let gn : ℚ := (yn - kr * rn - kb * bn) / kg
    let q : ℚ → Int := fun x => min (max ⌊x * mOut n + 1 / 2⌋ 0) (mOut n)
    (quantize (mOut n) (nclR k w) : Int) = q rn ∧ (quantize (mOut n) (nclG k w) : Int) = q gn ∧ (quantize (mOut n) (nclB k w) : Int) = q bn := by
  refine ⟨quantize_rat _ _ hden.1.ne', fun k hd hk => ?_⟩
  obtain ⟨⟨d1, d2, d3⟩, v1, v2, v3⟩ := ncl_vals k w hd hk hden
  have e1 := quantize_rat (mOut n) _ d1
  have e2 := quantize_rat (mOut n) _ d2
  have e3 := quantize_rat (mOut n) _ d3
  change _ = min (max ⌊Frac.val (nclR k w) * mOut n + 1 / 2⌋ 0) _ at e1
  change _ = min (max ⌊Frac.val (nclG k w) * mOut n + 1 / 2⌋ 0) _ at e2
  change _ = min (max ⌊Frac.val (nclB k w) * mOut n + 1 / 2⌋ 0) _ at e3
  rw [v1] at e1
  rw [v2] at e2
  rw [v3] at e3
  exact ⟨e1, e2, e3⟩

end Sys2Proof.Machine
end

