-- ==== Sys2Proof/Laws/Encoding.lean ====
section
/-! SUPPORT. What the decoder and the encoder do to the fields of a word (R65, R78). -/

namespace Sys2Proof

/-! ### Fields and words -/

/-- A word is its fields (R65). -/
theorem pack_fieldsOf (w : Word) : (fieldsOf w).pack = w := by
  apply BitVec.eq_of_getLsbD_eq
  intro i hi
  simp only [Fields.pack, fieldsOf, BitVec.getLsbD_append, BitVec.getLsbD_ofBool, BitVec.getLsbD_extractLsb']
  interval_cases i <;> simp

/-- The fields packed into a word are read back. -/
theorem fieldsOf_pack (f : Fields) : fieldsOf f.pack = f := by
  obtain ⟨op, a, p, res⟩ := f
  simp only [Fields.pack, fieldsOf, Fields.mk.injEq]
  refine ⟨?_, ?_, ?_, ?_⟩
  · apply BitVec.eq_of_getLsbD_eq; intro i hi
    simp only [BitVec.getLsbD_append, BitVec.getLsbD_ofBool, BitVec.getLsbD_extractLsb']
    interval_cases i <;> simp
  · simp only [BitVec.getLsbD_append, BitVec.getLsbD_ofBool]; simp
  · simp only [BitVec.getLsbD_append, BitVec.getLsbD_ofBool]; simp
  · apply BitVec.eq_of_getLsbD_eq; intro i hi
    simp only [BitVec.getLsbD_append, BitVec.getLsbD_ofBool, BitVec.getLsbD_extractLsb']
    have h1 : 6 + i - 5 ≠ 0 := by omega
    have h2 : ¬ (6 + i < 5) := by omega
    have h4 : 6 + i - 5 - 1 = i := by omega
    simp [hi, h1, h2, h4]

/-- The decoder answers a command exactly when the word has its fields (R66, R78). -/
theorem decode_fields {w : Word} {i : Instr} : decode w = .ok i ↔ fieldsOf w = i.fields := by
  obtain ⟨f, hf⟩ : ∃ f, f = fieldsOf w := ⟨_, rfl⟩
  unfold decode
  rw [← hf]
  obtain ⟨op, a, p, res⟩ := f
  dsimp only
  by_cases hr : res = 0
  · subst hr
    simp only [ne_eq, not_true_eq_false, if_false, plain]
    have : ∀ op : BitVec 4, op = 0 ∨ op = 1 ∨ op = 2 ∨ op = 3 ∨ op = 4 ∨ op = 5 ∨ op = 6 ∨ op = 7 ∨ 8 ≤ op.toNat := by decide
    rcases this op with rfl | rfl | rfl | rfl | rfl | rfl | rfl | rfl | h8
    · cases a <;> cases p <;> cases i <;> simp [Instr.fields]
    · cases a <;> cases p <;> cases i <;> simp [Instr.fields]
    · cases a <;> cases p <;> cases i <;> simp [Instr.fields]
    · cases a <;> cases p <;> cases i <;> simp [Instr.fields]
    · cases a <;> cases p <;> cases i <;> simp [Instr.fields]
    · cases a <;> cases p <;> cases i <;> simp [Instr.fields, eq_comm]
    · cases a <;> cases p <;> cases i <;> simp [Instr.fields]
    · cases i <;> simp [Instr.fields, eq_comm]
    · split <;> first | omega | skip
      constructor
      · rintro ⟨⟩
      · intro h; cases i <;> simp [Instr.fields] at h <;> (obtain ⟨h, _⟩ := h; rw [h] at h8; exact absurd h8 (by decide))
  · simp only [ne_eq, hr, not_false_eq_true, if_true]
    constructor
    · rintro ⟨⟩
    · intro h; exfalso; apply hr; cases i <;> simp [Instr.fields] at h <;> simp [h]

end Sys2Proof
end

