-- ==== Sys2Proof/Laws/Frames.lean ====
section
/-! SUPPORT. Images, planes and regions of whole commands: positions, empty frames, and FRAME's color stage beside the commands it is made of (R142). -/

namespace Sys2Proof.Machine

/-! ### Positions -/

theorem depthSize_eq (n : Nat) : depthSize n = if n = 8 then SampleSize.one else SampleSize.two := rfl

theorem pix_idx {x y w h : Nat} (hx : x < w) (hy : y < h) : y * w + x < w * h ∧ (y * w + x) % w = x ∧ (y * w + x) / w = y := by
  refine ⟨?_, ?_, ?_⟩
  · calc y * w + x < y * w + w := by omega
      _ = (y + 1) * w := by ring
      _ ≤ h * w := Nat.mul_le_mul_right _ hy
      _ = w * h := Nat.mul_comm _ _
  · rw [Nat.mul_comm, Nat.mul_add_mod, Nat.mod_eq_of_lt hx]
  · rw [Nat.mul_comm, Nat.mul_add_div (by omega), Nat.div_eq_of_lt hx, Nat.add_zero]

theorem withKinds_none {b : List Buffer} {q : List Pass} (c : ConfigRegs) : c.withKinds ⟨b, q, none, none, none⟩ = c := rfl

/-- What a gray stage writes (R106). -/
theorem grayPass_result {p : Params} {f : Frame} {luma : Plane} {dst : Image} {mc : Nat} {mx : Matrix} {m : Memory} (hw : p.wf = true)
    (hch : dst.ch = 1) (hsz : dst.size = depthSize f.depth) (_hdw : dst.w = f.w) (_hdh : dst.h = f.h) :
    (∀ x y, x < f.w → y < f.h → (m.writeAll ((grayPass p f luma dst mc mx).cells m)).readSample p.endian (depthSize f.depth) (dst.base + (y * f.w + x) * (depthSize f.depth).bytes) =
       gray p f.depth f.range mc mx (luma.sample p.endian m x y)) ∧
    ∀ a, a < dst.base ∨ dst.base + f.w * f.h * (depthSize f.depth).bytes ≤ a → (m.writeAll ((grayPass p f luma dst mc mx).cells m)).read a = m.read a := by
  refine ⟨?_, ?_⟩
  · intro x y hx hy
    obtain ⟨hk, hmm, hd⟩ := pix_idx hx hy
    have := Image.sample_runCells_map (i := dst) (e := p.endian) (m := m) (f := fun k => gray p f.depth f.range mc mx (luma.sample p.endian m (k % f.w) (k / f.w))) hch hk
    rw [hmm, hd, Image.sample, Image.addr, hch, hsz, Nat.mul_one, Nat.add_zero] at this
    have hl := (csc_lt hw f.depth f.range mc mx ⟨luma.sample p.endian m x y, 2 ^ (f.depth - 1), 2 ^ (f.depth - 1)⟩).2.1
    refine Eq.trans ?_ (this.trans (Nat.mod_eq_of_lt hl))
    simp only [grayPass, hsz]; rfl
  · intro a ha
    refine Memory.read_runCells_other _ _ _ _ _ _ ?_
    rw [graySamples_length, hsz]
    exact ha

/-! ### Kinds -/

theorem kindOf_code {c : BitVec 3} {k : ImageKind} (h : kindOf c = some k) : c.toNat = k.code := by
  revert h
  have : ∀ c : BitVec 3, ∀ k ∈ kindOf c, c.toNat = k.code := by decide
  exact this c k

theorem kindOf_ofNat (k : ImageKind) : kindOf (kindCode (BitVec.ofNat 32 k.code)) = some k := by cases k <;> decide

theorem alphaKindOf_ofNat (k : AlphaKind) : alphaKindOf (kindCode (BitVec.ofNat 32 k.image.code)) = some k := by cases k <;> decide

/-! ### Empty frames -/

theorem emptyChroma {c : Chroma} {w h : Nat} (he : w = 0 ∨ h = 0) : chromaW c w = 0 ∨ chromaH c h = 0 := by
  rcases he with rfl | rfl
  · left; cases c <;> rfl
  · right; cases c <;> rfl

theorem ready_of_empty {p : Params} {bufs : List Buffer} (h : ∀ b ∈ bufs, b.nonempty = false) : RegionsReady p bufs := by
  refine ⟨fun b hb => by simp [Buffer.badGeometry, h b hb], ?_, ?_⟩
  · rintro ⟨b, c⟩ hq
    have : b ∈ bufs := by
      clear h
      induction bufs with
      | nil => cases hq
      | cons x r ih =>
        rcases List.mem_append.1 hq with h | h
        · obtain ⟨y, -, hy⟩ := List.mem_map.1 h; cases hy; simp
        · exact List.mem_cons_of_mem _ (ih h)
    simp [Buffer.conflict, h b this]
  · intro b hb a ha
    rw [Buffer.has_iff, h b hb] at ha; cases ha.1

theorem planeEmpty {p : Plane} (h : p.w = 0 ∨ p.h = 0) : p.buffer.nonempty = false ∧ p.touched = [] := by
  refine ⟨?_, ?_⟩
  · rcases h with h | h <;> simp [Plane.buffer, Buffer.nonempty, h]
  · rcases h with h | h <;> simp [Plane.touched, h]

theorem imageEmpty {i : Image} {b : Bool} (h : i.w = 0 ∨ i.h = 0) : (i.buffer b).nonempty = false ∧ i.touched = [] ∧ i.bytes = 0 ∧ i.pixels = 0 := by
  have hb : i.bytes = 0 := by rcases h with h | h <;> simp [Image.bytes, h]
  refine ⟨?_, ?_, hb, ?_⟩
  · rcases h with h | h <;> simp [Image.buffer, Buffer.nonempty, h]
  · simp [Image.touched, hb]
  · rcases h with h | h <;> simp [Image.pixels, h]

theorem ok_nil {p : Params} : BytesOk p [] := fun a h => by cases h

theorem sampling_ne {s : Sampling} (h : s ≠ .mono) : ∃ c, s = .chroma c := by
  cases s with
  | mono => exact absurd rfl h
  | chroma c => exact ⟨c, rfl⟩

/-! ### FRAME's regions and color stage -/

theorem planConvert_ready {s : State} {c : Chroma} {mx : Matrix} (h1 : 8 ≤ s.colorFrame.depth) (h2 : s.colorFrame.depth ≤ 16)
    (h3 : s.colorFrame.sampling = .chroma c) (h4 : matrixOf s.params (resolveMc s.colorFrame.mc s.params.defaultMcColor) = some mx)
    (h5 : RegionsReady s.params (convertBufs s c)) :
    planOf .convert s = .ok ⟨convertBufs s c, convertPasses s c (resolveMc s.colorFrame.mc s.params.defaultMcColor) mx, some (rgbKind s.colorFrame.depth), none, none⟩ :=
  planConvert_ok_iff.2 ⟨depthLegal_iff.2 ⟨h1, h2⟩, c, h3, (_, mx), ⟨rfl, h4⟩, h5.checks, rfl⟩

/-- The regions of a part of a command are ready where those of the whole are. -/
theorem RegionsReady_sub {p : Params} {bufs bufs' : List Buffer} (h : RegionsReady p bufs)
    (hs : bufs.Pairwise (fun b c => b.offset < c.offset)) (hs' : bufs'.Pairwise (fun b c => b.offset < c.offset))
    (hsub : ∀ b' ∈ bufs', ∃ b ∈ bufs, b' = { b with written := b'.written } ∧ (b'.written = true → b.written = true)) :
    RegionsReady p bufs' := by
  refine ⟨?_, ?_, ?_⟩
  · intro b' hb'
    obtain ⟨b, hb, he, -⟩ := hsub b' hb'
    have := h.geometry b hb
    rw [he]; exact this
  · rintro ⟨b', c'⟩ hq
    obtain ⟨hb', hc', hlt⟩ := (pairsOf_mem hs').1 hq
    obtain ⟨b, hb, heb, hwb⟩ := hsub b' hb'
    obtain ⟨c, hc, hec, hwc⟩ := hsub c' hc'
    have ho : b.offset < c.offset := by
      have e1 : b'.offset = b.offset := by rw [heb]
      have e2 : c'.offset = c.offset := by rw [hec]
      omega
    have := h.disjoint (b, c) ((pairsOf_mem hs).2 ⟨hb, hc, ho⟩)
    by_contra hcf
    obtain ⟨hw, a, ha1, ha2⟩ := conflict_iff.1 (Bool.not_eq_false _ ▸ hcf)
    rw [conflict_iff.2 ⟨hw.imp hwb hwc, a, ?_, ?_⟩] at this
    · cases this
    · rw [heb] at ha1; exact ha1
    · rw [hec] at ha2; exact ha2
  · intro b' hb' a ha
    obtain ⟨b, hb, he, -⟩ := hsub b' hb'
    refine h.noDevice b hb a ?_
    rw [he] at ha; exact ha

theorem frameOffsets {l : List Buffer} (h : (l.map (·.offset)).Pairwise (· < ·)) : l.Pairwise (fun b c => b.offset < c.offset) := by
  rwa [List.pairwise_map] at h

theorem plainSorted (s : State) : (framePlainBufs s).Pairwise (fun b c => b.offset < c.offset) := by
  apply frameOffsets; unfold framePlainBufs framePlaneBufs
  cases s.colorFrame.sampling <;> exact of_decide_eq_true rfl

theorem alphaSorted (s : State) (rk : ImageKind) : (frameAlphaBufs s rk).Pairwise (fun b c => b.offset < c.offset) := by
  apply frameOffsets; unfold frameAlphaBufs framePlaneBufs
  cases s.colorFrame.sampling <;> exact of_decide_eq_true rfl

/-- S2 on its own -/
theorem colorStage {s : State} {mx : Matrix} {bufs : List Buffer} (h1 : 8 ≤ s.colorFrame.depth) (h2 : s.colorFrame.depth ≤ 16)
    (hm : matrixOf s.params (resolveMc s.colorFrame.mc (if s.colorFrame.sampling = .mono then s.params.defaultMcGray else s.params.defaultMcColor)) = some mx)
    (hr : RegionsReady s.params bufs) (hs : bufs.Pairwise (fun b c => b.offset < c.offset))
    (hsub : ∀ b ∈ framePlaneBufs s ++ [s.frameCimg.buffer true], b ∈ bufs)
    (hok : BytesOk s.params (frameColorReads s ++ s.frameCimg.touched)) (ht : s.tainted = false) :
    ∃ m, runPasses s.params (frameColorPasses s (resolveMc s.colorFrame.mc (if s.colorFrame.sampling = .mono then s.params.defaultMcGray else s.params.defaultMcColor)) mx) s.mem = .ok m ∧
      exec (if s.colorFrame.sampling = .mono then .convertGray else .convert) s = .next (s.completedWith { s.cfg with cimgKind := BitVec.ofNat 32 (frameColorKind s.colorFrame).code } m) := by
  cases hsm : s.colorFrame.sampling with
  | mono =>
    rw [hsm] at hm
    simp only [if_true] at hm
    have hc : s.frameCimg = s.grayImage := (frameColorKind_image s).1 hsm
    have hk : frameColorKind s.colorFrame = (grayKind s.colorFrame.depth).image := by simp only [frameColorKind, hsm]
    have hrr : RegionsReady s.params (convertGrayBufs s) := by
      refine RegionsReady_sub hr hs (frameOffsets (of_decide_eq_true rfl)) fun b hb => ⟨b, ?_, rfl, id⟩
      refine hsub b ?_
      simp only [framePlaneBufs, hsm, hc]
      exact hb
    have hp : planOf .convertGray s = .ok ⟨convertGrayBufs s, [colorGrayPass s (resolveMc s.colorFrame.mc s.params.defaultMcGray) mx], some (grayKind s.colorFrame.depth).image, none, none⟩ :=
      planConvertGray_ok_iff.2 ⟨depthLegal_iff.2 ⟨h1, h2⟩, (_, mx), ⟨rfl, hm⟩, hrr.checks, rfl⟩
    have hok' : BytesOk s.params (s.planeYC.touched ++ s.grayImage.touched) := by
      rw [hc] at hok; simpa only [frameColorReads, hsm] using hok
    refine ⟨s.mem.writeAll ((colorGrayPass s (resolveMc s.colorFrame.mc s.params.defaultMcGray) mx).cells s.mem), ?_, ?_⟩
    · simp only [frameColorPasses, hsm, if_true]
      exact runPasses_one hok'
    · simp only [if_true]
      refine (exec_completes (by simp) hp (RegionsReady.mapsDevice hrr) (runPasses_one hok') ht).trans ?_
      rw [hk]; rfl
  | chroma c =>
    have hne : ¬ (Sampling.chroma c = .mono) := by simp
    rw [hsm] at hm
    simp only [hne, if_false] at hm
    have hc : s.frameCimg = s.rgbImage := (frameColorKind_image s).2 c hsm
    have hk : frameColorKind s.colorFrame = rgbKind s.colorFrame.depth := by simp only [frameColorKind, hsm]
    have hrr : RegionsReady s.params (convertBufs s c) := by
      refine RegionsReady_sub hr hs (frameOffsets (of_decide_eq_true rfl)) fun b hb => ⟨b, ?_, rfl, id⟩
      refine hsub b ?_
      simp only [framePlaneBufs, hsm, hc]
      exact hb
    have hp := planConvert_ready h1 h2 hsm hm hrr
    have hok' : BytesOk s.params (cuTouches s c ++ s.rgbImage.touched) := by
      rw [hc] at hok; simpa only [frameColorReads, hsm] using hok
    obtain ⟨h5a, h5b⟩ := BytesOk.append.1 hok'
    have hrun : runPasses s.params (convertPasses s c (resolveMc s.colorFrame.mc s.params.defaultMcColor) mx) s.mem =
       .ok (s.mem.writeAll (runCells s.params.endian s.rgbImage.size s.rgbImage.base (rgbSamples s c (resolveMc s.colorFrame.mc s.params.defaultMcColor) mx s.mem))) := by
      unfold convertPasses
      rw [runPasses_cons h5a, runPasses_one h5b]; rfl
    refine ⟨s.mem.writeAll (runCells s.params.endian s.rgbImage.size s.rgbImage.base (rgbSamples s c (resolveMc s.colorFrame.mc s.params.defaultMcColor) mx s.mem)), ?_, ?_⟩
    · simp only [frameColorPasses, hsm, hne, if_false]
      exact hrun
    · simp only [hne, if_false]
      refine (exec_completes (by simp) hp (RegionsReady.mapsDevice hrr) hrun ht).trans ?_
      rw [hk]; rfl

theorem planesBufs_mem_color {s : State} {b : Buffer} (h : b ∈ framePlaneBufs s ++ [s.frameCimg.buffer true]) (rk : ImageKind) : b ∈ frameAlphaBufs s rk := by
  simp only [frameAlphaBufs, List.mem_append, List.mem_cons] at h ⊢
  tauto

end Sys2Proof.Machine
end

