-- ==== Sys2Proof/Laws/HostPort.lean ====
section
/-! SUPPORT. What the host's turn can do, and what a step is on each turn. -/

namespace Sys2Proof.Machine

/-! ### Turns -/

/-- On the block's turn a step is the block's turn, off the agenda (R138). -/
theorem step_block {s : State} (h : s.agenda.head? = none ∨ s.agenda.head? = some .block) :
    step s = blockTurn s.popTurn := by
  unfold step takeTurn
  cases hs : s.agenda with
  | nil => 
    have : s.popTurn = s := by unfold State.popTurn; rw [hs]; cases s; cases hs; rfl
    simp [this]
  | cons a r =>
    rw [hs] at h
    simp at h
    subst h; rfl

/-- However a command ends, nothing is in flight after it (R137). -/
theorem exec_next_end {i : Instr} {s t : State} (h : exec i s = .next t) :
    t.status.busy = false ∧ t.cur = none ∧ t.stage = .none ∧
      ((t.status.done = true ∧ t.status.err = s.status.err) ∨ (t.status.err = true ∧ t.status.done = s.status.done)) ∧ t.agenda = s.agenda := by
  by_cases hi : i = .nop
  · subst hi; cases h; simp
  · rw [exec_eq_runPlan hi] at h
    rcases runPlan_next h with ⟨e, -, rfl⟩ | ⟨p, -, -, ⟨k, bad, -, rfl⟩ | ⟨m, -, rfl⟩⟩
    · simp
    · simp [State.memFault, State.scramble]
    · simp only [State.commit]; split <;> simp [State.scramble]

/-- What no action of the host changes. -/
theorem hostTurn_keeps {op : HostOp} {s t : State} (h : hostTurn op s = .next t) :
    t.agenda = s.agenda ∧ t.params = s.params ∧
      ((t.cur = s.cur ∧ t.status.busy = s.status.busy) ∨ (∃ w, t.cur = some w ∧ t.status.busy = true ∧ s.status.busy = false) ∨ (t.cur = none ∧ t.status.busy = false)) := by
  cases op with
  | regWrite addr bytes v =>
    simp only [hostTurn, hostRegWrite] at h
    split at h
    · cases h
    split at h
    · cases h
    split at h
    · cases h; simp
    next r _ =>
    unfold writeReg at h
    split at h
    · cases h; unfold writeCtrl; split
      · refine ⟨?_, ?_, .inr (.inr (by simp [State.doReset, Status.reset]))⟩ <;> simp only [State.doReset, State.resetRegs_agenda, State.resetRegs_params, State.abort] <;> split <;> rfl
      · exact ⟨rfl, rfl, .inl ⟨rfl, rfl⟩⟩
    · cases h; unfold State.writeStatus; dsimp only; split <;> exact ⟨rfl, rfl, .inl ⟨rfl, rfl⟩⟩
    · unfold writeCmd at h
      split at h
      · cases h; exact ⟨rfl, rfl, .inl ⟨rfl, rfl⟩⟩
      · next hb =>
        split at h
        · cases h
        · cases h; exact ⟨rfl, rfl, .inr (.inl ⟨v, rfl, rfl, by simpa using hb⟩)⟩
    · cases h; unfold writePlain; split
      · exact ⟨rfl, rfl, .inl ⟨rfl, rfl⟩⟩
      · split <;> exact ⟨rfl, rfl, .inl ⟨rfl, rfl⟩⟩
  | regRead addr bytes =>
    simp only [hostTurn, hostRegRead] at h
    split at h
    · cases h
    split at h
    · cases h
    split at h <;> cases h <;> exact ⟨rfl, rfl, .inl ⟨rfl, rfl⟩⟩
  | memWrite a v =>
    simp only [hostTurn, hostMemWrite] at h
    split at h <;> cases h; exact ⟨rfl, rfl, .inl ⟨rfl, rfl⟩⟩
  | memRead a =>
    simp only [hostTurn, hostMemRead] at h
    split at h
    · cases h
    · cases h
    · split at h <;> cases h <;> exact ⟨rfl, rfl, .inl ⟨rfl, rfl⟩⟩
  | hardReset =>
    cases h
    refine ⟨?_, ?_, .inr (.inr (by simp [State.doReset, Status.reset]))⟩ <;> simp only [State.doReset, State.resetRegs_agenda, State.resetRegs_params, State.abort] <;> split <;> rfl

/-! ### Loads during a command -/

/-- The command that a loaded byte belongs to is the one in flight, where it writes the byte (R59). -/
theorem State.writerOf_eq_some {s : State} {a : Nat} {p : Plan} :
    s.writerOf a = some p ↔ s.inFlight = some p ∧ p.writes a = true := by
  simp [State.writerOf, Option.filter_eq_some_iff]

theorem State.writerOf_eq_none {s : State} {a : Nat} : s.writerOf a = none ↔ s.inWritten a = false := by
  unfold State.writerOf State.inWritten
  cases s.inFlight <;> simp [Option.filter]

/-- A load of a byte that an undisturbed command with no refused access writes answers what some of its stages, run in
order, leave there (R59). -/
theorem State.loadedByte_eq {s : State} {p : Plan} (a : Nat) (ht : s.tainted = false)
    (hr : ∃ n, runPasses s.params p.passes s.mem = .ok n) :
    ∃ pre post m, p.passes = pre ++ post ∧ runPasses s.params pre s.mem = .ok m ∧ s.loadedByte p a = m.read a := by
  cases h : stageMemories s.params p.passes s.mem with
  | none =>
    obtain ⟨n, hn⟩ := hr
    obtain ⟨e, he⟩ := stageMemories_none.1 h
    rw [hn] at he; cases he
  | some later =>
    obtain ⟨pre, post, h1, h2⟩ := stageMemories_mem h (pickFrom_mem s.draws s.mem (List.cons_ne_nil s.mem later))
    exact ⟨pre, post, _, h1, h2, by simp [State.loadedByte, ht, h]⟩

/-- Any other load of a byte that the command writes is freely drawn. -/
theorem State.loadedByte_free {s : State} {p : Plan} (a : Nat)
    (h : s.tainted = true ∨ ∃ e, runPasses s.params p.passes s.mem = .error e) :
    s.loadedByte p a = Config.freeByte s.draws a := by
  rcases h with h | h
  · simp [State.loadedByte, h]
  · simp [State.loadedByte, stageMemories_none.2 h]

/-! ### The register file -/

/-- Every register is found at its offset. -/
theorem regAt_offset (r : Reg) : regAt r.offset = some r := by cases r <;> decide

theorem offset_lt (r : Reg) : r.offset < 4096 ∧ r.offset % 4 = 0 := by cases r <;> decide

/-- A write of 32 bits at a register's offset is a write of that register (R34). -/
theorem regWrite_eq (s : State) (r : Reg) (v : Word) :
    hostTurn (.regWrite (s.params.csrBase + r.offset) 4 v) s = writeReg r v s := by
  have h := offset_lt r
  simp [hostTurn, hostRegWrite, inWindow, accessForm, regAt_offset, h.1, h.2]

/-- A read of 32 bits at a register's offset answers its value (R34). -/
theorem regRead_eq (s : State) (r : Reg) :
    hostTurn (.regRead (s.params.csrBase + r.offset) 4) s = .next { s with readData := readReg r s } := by
  have h := offset_lt r
  simp [hostTurn, hostRegRead, inWindow, accessForm, regAt_offset, h.1, h.2]

/-- When the host changes a configuration register (R35, R165, R166). -/
theorem hostTurn_cfg {op : HostOp} {s t : State} (h : hostTurn op s = .next t) (hc : t.cfg ≠ s.cfg) :
    (∃ addr bytes v, op = .regWrite addr bytes v ∧ (s.status.busy = false ∨ t.cfg = ConfigRegs.reset)) ∨ op = .hardReset := by
  cases op with
  | regWrite addr bytes v =>
    left
    refine ⟨addr, bytes, v, rfl, ?_⟩
    simp only [hostTurn, hostRegWrite] at h
    split at h
    · cases h
    split at h
    · cases h
    split at h
    · cases h; exact absurd rfl hc
    next r _ =>
    unfold writeReg at h
    split at h
    · cases h; unfold writeCtrl at hc ⊢; split
      · right; simp [State.doReset]
      · next h31 => rw [if_neg h31] at hc; exact absurd rfl hc
    · cases h; exfalso; apply hc; unfold State.writeStatus; dsimp only; split <;> rfl
    · unfold writeCmd at h
      split at h
      · cases h; exact absurd rfl hc
      · next hb => left; simpa using hb
    · cases h; unfold writePlain at hc ⊢; split at hc
      · exact absurd rfl hc
      · split at hc
        · exact absurd rfl hc
        · next hb => left; simpa using hb
  | regRead addr bytes =>
    exfalso
    simp only [hostTurn, hostRegRead] at h
    split at h
    · cases h
    split at h
    · cases h
    split at h <;> cases h <;> exact hc rfl
  | memWrite a v =>
    simp only [hostTurn, hostMemWrite] at h
    split at h <;> cases h; exact absurd rfl hc
  | memRead a =>
    simp only [hostTurn, hostMemRead] at h
    split at h
    · cases h
    · cases h
    · split at h <;> cases h <;> exact absurd rfl hc
  | hardReset => right; rfl

/-! ### Reset -/

/-- An aborted command's written regions hold drawn bytes, the rest of memory is as it was (R166). -/
theorem abort_mem (s : State) :
      (s.cur = none → s.abort.mem = s.mem) ∧
      (∀ a, s.inWritten a = true → s.abort.mem.read a = Config.freeByte s.draws a) ∧
      (∀ a, s.inWritten a = false → s.abort.mem.read a = s.mem.read a) := by
  unfold State.abort State.inWritten
  cases h : s.inFlight with
  | none => exact ⟨fun _ => rfl, fun a ha => absurd ha Bool.false_ne_true, fun a _ => rfl⟩
  | some p =>
    refine ⟨fun hc => ?_, fun a ha => State.scramble_read_written s p ha, fun a ha => State.scramble_read_other s p ha⟩
    rw [State.inFlight, hc] at h; cases h

/-- What a reset leaves besides memory (R167). -/
theorem doReset_eq (s : State) : s.doReset = { s with
        ctrl := Ctrl.reset, status := Status.reset, cmd := 0, cfg := ConfigRegs.reset, errInfo := 0, cur := none
        stage := .none, tainted := false, mem := s.doReset.mem, draws := s.doReset.draws } := by
  simp only [State.doReset, State.abort]; split <;> rfl

end Sys2Proof.Machine
end

