-- ==== Sys2Proof/Laws/Invariant.lean ====
section
/-! SUPPORT. What each operation does to the invariant. -/

namespace Sys2Proof.Machine

/-! ### Memory and the end of a command -/

/-- memory part -/
theorem scramble_inv {s : State} {p : Plan} (hw : s.mem.wf = true) (hb : s.mem.below (memSize s.params) = true)
    (hp : p.WritesBelow (memSize s.params)) : (s.scramble p).mem.wf = true ∧ (s.scramble p).mem.below (memSize s.params) = true := by
  refine ⟨Memory.wf_writeAll _ hw, Memory.below_writeAll _ hb fun c hc => ?_⟩
  obtain ⟨a, ha, rfl⟩ := List.mem_map.1 hc
  exact hp a (Plan.mem_writtenBytes.1 ha)

theorem inv_end {s t : State} (h : Inv s) (hm : t.mem.wf = true) (hb : t.mem.below (memSize s.params) = true)
    (hcur : t.cur = none) (hbusy : t.status.busy = false) (hst : t.stage = .none) (_hcmd : t.cmd = s.cmd) (htaint : t.tainted = false)
    (hp : t.params = s.params) (hcfg : t.cfg.stored s.params)
    (hout : (t.status.done = true ∧ t.status.err = false ∧ t.status.errCode = .none ∧ t.status.errStage = .none ∧ t.errInfo = 0) ∨
       (t.status.done = false ∧ t.status.err = true ∧ t.status.errCode ≠ .none ∧ t.status.errStage ≠ .none)) : Inv t := by
  constructor
  · exact hm
  · rw [hp]; exact hb
  · rw [hcur, hbusy]; rfl
  · intro w hw; rw [hcur] at hw; cases hw
  · exact hst
  · intro hx; rw [hbusy] at hx; cases hx
  · intro hd; rcases hout with ⟨_, h1, _⟩ | ⟨h1, _⟩
    · exact h1
    · rw [h1] at hd; cases hd
  · intro hd; rcases hout with ⟨_, _, h1, h2, h3⟩ | ⟨_, h1, _⟩
    · exact ⟨h1, h2, h3⟩
    · rw [h1] at hd; cases hd
  · intro hd; rcases hout with ⟨_, h1, _⟩ | ⟨_, _, h1, h2⟩
    · rw [h1] at hd; cases hd
    · exact ⟨h1, h2⟩
  · intro hx; rw [htaint] at hx; cases hx
  · rw [hp]; exact hcfg
  · rw [hp]; exact h.paramsOk

theorem withKinds_stored {c : ConfigRegs} {p : Plan} {pr : Params} (h : c.stored pr) : (c.withKinds p).stored pr := by
  obtain ⟨h1, ⟨h2, h3, h4⟩, h5⟩ := h
  have kk : ∀ k : ImageKind, kindMask (BitVec.ofNat 32 k.code) = BitVec.ofNat 32 k.code := by intro k; cases k <;> decide
  refine ⟨h1, ⟨?_, ?_, ?_⟩, h5⟩
  · simp only [ConfigRegs.withKinds]; split
    · exact kk _
    · exact h2
  · simp only [ConfigRegs.withKinds]; split
    · exact kk _
    · exact h3
  · simp only [ConfigRegs.withKinds]; split
    · exact kk _
    · exact h4

/-! ### The operations -/

theorem reset_stored (p : Params) : ConfigRegs.reset.stored p := by
  have : 0 < memSize p := by unfold memSize; positivity
  exact ⟨⟨rfl, rfl⟩, ⟨rfl, rfl, rfl⟩, this, this, this, this, this, this, this⟩

theorem doReset_inv {s : State} (hI : Inv s) : Inv s.doReset := by
  have hm : s.doReset.mem.wf = true ∧ s.doReset.mem.below (memSize s.params) = true := by
    simp only [State.doReset, State.resetRegs_mem, State.abort]
    split
    · next p hp =>
      have : ∃ i, planOf i s = .ok p := by
        unfold State.inFlight at hp
        obtain ⟨w, -, hw⟩ := Option.bind_eq_some_iff.1 hp
        unfold planOfWord at hw
        split at hw
        · cases hw
        · next i _ =>
          refine ⟨i, ?_⟩
          cases hpi : planOf i s with
          | ok q => rw [hpi] at hw; cases hw; rfl
          | error e => rw [hpi] at hw; cases hw
      obtain ⟨i, hi⟩ := this
      exact scramble_inv hI.memCanonical hI.memInside (planOf_writesBelow hi)
    · exact ⟨hI.memCanonical, hI.memInside⟩
  have hp : s.doReset.params = s.params := by
    simp only [State.doReset, State.resetRegs_params, State.abort]; split <;> rfl
  constructor
  · exact hm.1
  · rw [hp]; exact hm.2
  · rfl
  · intro w h; cases h
  · rfl
  · intro h; cases h
  · intro h; cases h
  · intro _; exact ⟨rfl, rfl, rfl⟩
  · intro h; cases h
  · intro h; cases h
  · exact reset_stored _
  · rw [hp]; exact hI.paramsOk

theorem accept_inv {s : State} (hI : Inv s) (w : Word) : Inv (s.accept w) :=
  ⟨hI.memCanonical, hI.memInside, rfl, fun w' h => by cases h; rfl, rfl, fun _ => ⟨rfl, rfl⟩, fun h => (by cases h), fun _ => ⟨rfl, rfl, rfl⟩, fun h => (by cases h), fun h => (by cases h), hI.stored, hI.paramsOk⟩

theorem writeStatus_inv {s : State} (hI : Inv s) (v : Word) : Inv (s.writeStatus v) := by
  unfold State.writeStatus
  dsimp only
  split
  · exact ⟨hI.memCanonical, hI.memInside, hI.busyInFlight, hI.inFlightIsCmd, hI.noStage, fun h => ⟨by simp [(hI.busyClean h).1], rfl⟩, fun _ => rfl, fun _ => ⟨rfl, rfl, rfl⟩, fun h => (by cases h), hI.taintedBusy, hI.stored, hI.paramsOk⟩
  · exact ⟨hI.memCanonical, hI.memInside, hI.busyInFlight, hI.inFlightIsCmd, hI.noStage, fun h => ⟨by simp [(hI.busyClean h).1], (hI.busyClean h).2⟩, fun h => hI.oneOutcome (by simp at h; exact h.1), hI.errClear, hI.errSet, hI.taintedBusy, hI.stored, hI.paramsOk⟩

theorem writeConfig_stored {p : Params} {r : Reg} {v : Word} {c c' : ConfigRegs} (h : c.stored p) (hw : writeConfig p r v c = some c') : c'.stored p := by
  have hk : kindMask (kindMask v) = kindMask v := by unfold kindMask; rw [BitVec.and_assoc]; rfl
  have hf : fmtMask (fmtMask v) = fmtMask v := by unfold fmtMask; rw [BitVec.and_assoc]; rfl
  have hb : (baseMask p v).toNat < memSize p := by
    unfold baseMask
    rw [BitVec.toNat_ofNat]
    have : 0 < memSize p := by unfold memSize; positivity
    exact (Nat.mod_le _ _).trans_lt (Nat.mod_lt _ this)
  obtain ⟨⟨h1, h2⟩, ⟨h3, h4, h5⟩, h6, h7, h8, h9, h10, h11, h12⟩ := h
  cases r <;> simp only [writeConfig, Option.some.injEq, reduceCtorEq] at hw <;> subst hw <;>
    exact ⟨⟨by assumption, by assumption⟩, ⟨by assumption, by assumption, by assumption⟩, by assumption, by assumption, by assumption, by assumption, by assumption, by assumption, by assumption⟩

theorem setOvr_inv {s : State} (hI : Inv s) : Inv s.setOvr :=
  ⟨hI.memCanonical, hI.memInside, hI.busyInFlight, hI.inFlightIsCmd, hI.noStage, hI.busyClean, hI.oneOutcome, hI.errClear, hI.errSet, hI.taintedBusy, hI.stored, hI.paramsOk⟩

theorem popTurn_inv {s : State} (hI : Inv s) : Inv s.popTurn :=
  ⟨hI.memCanonical, hI.memInside, hI.busyInFlight, hI.inFlightIsCmd, hI.noStage, hI.busyClean, hI.oneOutcome, hI.errClear, hI.errSet, hI.taintedBusy, hI.stored, hI.paramsOk⟩

end Sys2Proof.Machine
end

