-- ==== Sys2Proof/Laws/PerInstr.lean ====
section
/-! SUPPORT. What holds of every command as syntax, one lemma for each constructor of `Instr`. -/

namespace Sys2Proof.Laws.SixBits

/-- The word of a command has no bit above bit 5 (R65, R66). -/
def Statement (i : Instr) : Prop := (encode i).extractLsb' 6 26 = 0

theorem nop : Statement .nop := by unfold Statement; decide

theorem upsample : Statement .upsample := by unfold Statement; decide

theorem convert : Statement .convert := by unfold Statement; decide

theorem convertGray : Statement .convertGray := by unfold Statement; decide

theorem extractAlpha : Statement .extractAlpha := by unfold Statement; decide

theorem composite (a : Bool) : Statement (.composite a) := by unfold Statement; cases a <;> decide

theorem unpremultiply : Statement .unpremultiply := by unfold Statement; decide

theorem frame (a p : Bool) : Statement (.frame a p) := by unfold Statement; cases a <;> cases p <;> decide

end Sys2Proof.Laws.SixBits
end

