-- ==== Sys2Proof/Tests/Slice0.lean ====
section
/-! SUPPORT. The model's own tests: ill-formed terms are refused, written-out words decode, and single steps give
the values of 95_test_vectors.md (named in each test). -/

namespace Sys2Proof.Machine

/-! ### Well-formedness refuses each ill-formed term -/

theorem test_opcode_refused : (Fields.mk 8 false false 0).opcodeOk = false := by decide

theorem test_reserved_refused : (Fields.mk 7 false false 1).reservedOk = false := by decide

theorem test_alpha_refused : (Fields.mk 6 true false 0).alphaOk = false := by decide

theorem test_premul_refused : (Fields.mk 5 false true 0).premulOk = false := by decide

theorem test_fields_refused : (Fields.mk 15 false false 0).legal = false := by decide

theorem test_addrW_refused : ({ Params.default with addrW := 15 } : Params).wf = false := by decide

theorem test_kg_zero_refused : ({ Params.default with krkb := [⟨1, 1, 1, 2⟩] } : Params).wf = false := by decide

theorem test_csc_white_refused :
    ({ Params.default with cscRows := [⟨8, .full, 1, 255, 128, 128, 255, 255, 254⟩] } : Params).wf = false := by decide

theorem test_default_params_ok : Params.default.wf = true := by decide

/-! ### Words written out bit by bit from the format (R65, R66) decode -/

theorem test_decode_nop : decode 0b00000000000000000000000000_0_0_0000 = .ok .nop := by decide

theorem test_decode_upsample : decode 0b00000000000000000000000000_0_0_0001 = .ok .upsample := by decide

theorem test_decode_convert : decode 0b00000000000000000000000000_0_0_0010 = .ok .convert := by decide

theorem test_decode_convertGray : decode 0b00000000000000000000000000_0_0_0011 = .ok .convertGray := by decide

theorem test_decode_extractAlpha : decode 0b00000000000000000000000000_0_0_0100 = .ok .extractAlpha := by decide

theorem test_decode_composite : decode 0b00000000000000000000000000_0_1_0101 = .ok (.composite true) := by decide

theorem test_decode_unpremultiply : decode 0b00000000000000000000000000_0_0_0110 = .ok .unpremultiply := by decide

theorem test_decode_frame : decode 0b00000000000000000000000000_1_0_0111 = .ok (.frame false true) := by decide

/-- ENC-2, ENC-5, ENC-8, ENC-11. -/
theorem test_decode_illegal :
    decode 0x00000010 = .error .alphaBit ∧ decode 0x00000025 = .error .premulBit ∧
    decode 0x00000008 = .error .reservedOpcode ∧ decode 0x80000007 = .error .reservedBits := by decide

/-! ### One step of each command -/

/-- Addresses for the tests: planes at 0x1000, 0x1100, 0x1200 and 0x1300, images at 0x2000, 0x2100 and 0x3000. -/
def testCfg (cFmt cDim aFmt aDim : Word) : ConfigRegs :=
  { ConfigRegs.reset with
    cFmt := cFmt, cDim := cDim, cYBase := 0x1000, cUBase := 0x1100, cVBase := 0x1200, cYStride := 2, cCStride := 2
    aFmt := aFmt, aDim := aDim, aYBase := 0x1300, aYStride := 4, cimgBase := 0x2000, aimgBase := 0x2100
    outBase := 0x3000 }

/-- A state in which a command is in flight, with bytes stored from some addresses on. -/
def testState (cfg : ConfigRegs) (mem : List (Nat × List Nat)) : State :=
  { State.reset.accept 0 with
    cfg := cfg
    mem := Memory.writeAll [] (mem.flatMap fun r => runCells .le .one r.1 r.2) }

/-- After a command: the STATUS word, ERRINFO, one kind register and the bytes from an address on. -/
def testRun (i : Instr) (s : State) (kind : ConfigRegs → Word) (a n : Nat) : Option (Nat × Nat × Nat × List Nat) :=
  match exec i s with
  | .next t =>
    some (t.status.word.toNat, t.errInfo.toNat, (kind t.cfg).toNat, (List.range n).map fun j => (t.mem.read (a + j)).toNat)
  | _ => none

/-- ENC-1. -/
theorem test_nop : testRun .nop (testState (testCfg 0 0 0 0) []) (·.cimgKind) 0 1 = some (0x0002, 0, 0, [0]) := by
  decide

/-- CU-3. -/
theorem test_upsample_420 : testRun .upsample
    (testState (testCfg 0x00080005 0x00020002 0 0)
      [(0x1000, [10, 20, 30, 40]), (0x1100, [100]), (0x1200, [200])]) (·.cimgKind) 0x3000 12 =
    some (0x0002, 0, 0, [10, 100, 200, 20, 100, 200, 30, 100, 200, 40, 100, 200]) := by decide

/-- CU-5b. -/
theorem test_upsample_be : testRun .upsample
    { testState (testCfg 0x000A0004 0x00010001 0 0)
      [(0x1000, [0x03, 0xFF]), (0x1100, [0x02, 0x00]), (0x1200, [0x00, 0x01])] with
      params := { Params.default with endian := .be } } (·.cimgKind) 0x3000 6 =
    some (0x0002, 0, 0, [0x03, 0xFF, 0x02, 0x00, 0x00, 0x01]) := by decide

/-- CV-1. -/
theorem test_convert : testRun .convert
    (testState (testCfg 0x00080004 0x00010001 0 0) [(0x1000, [54]), (0x1100, [99]), (0x1200, [255])])
    (·.cimgKind) 0x2000 3 = some (0x0002, 0, 0, [0xFE, 0, 0]) := by decide

/-- CV-4. -/
theorem test_convert_matrix : testRun .convert
    (testState (testCfg 0x0008004C 0x00010001 0 0) []) (·.cimgKind) 0x2000 1 =
    some (0x3204, 0x0104, 0, [0]) := by decide

/-- GC-1. -/
theorem test_convertGray : testRun .convertGray
    (testState (testCfg 0x00080003 0x00010002 0 0) [(0x1000, [0x10, 0xEB])]) (·.cimgKind) 0x2000 2 =
    some (0x0002, 0, 4, [0x00, 0xFF]) := by decide

/-- GC-4. -/
theorem test_convertGray_matrix : testRun .convertGray
    (testState (testCfg 0x00080038 0x00010001 0 0) []) (·.cimgKind) 0x2000 1 =
    some (0x4204, 0x0003, 0, [0]) := by decide

/-- EA-3: 16-bit samples, a stride above the row size. -/
theorem test_extractAlpha : testRun .extractAlpha
    (testState (testCfg 0 0 0x00100004 0x00020001) [(0x1300, [0x34, 0x12, 0xEE, 0xEE, 0xCD, 0xAB])])
    (·.aimgKind) 0x2100 4 = some (0x0002, 0, 5, [0x34, 0x12, 0xCD, 0xAB]) := by decide

/-- EA-4. -/
theorem test_extractAlpha_depth : testRun .extractAlpha (testState (testCfg 0 0 0 0x00010001) []) (·.aimgKind) 0x2100 1 =
    some (0x4604, 0x00300000, 4, [0]) := by decide

/-- AC-2: Rgb8 with Gray16. -/
theorem test_composite_alpha : testRun (.composite true)
    (testState { testCfg 0 0x00010001 0 0x00010001 with cimgKind := 0, aimgKind := 5 }
      [(0x2000, [0x12, 0x34, 0x56]), (0x2100, [0x00, 0x80])]) (·.outKind) 0x3000 8 =
    some (0x0002, 0, 3, [0x12, 0x12, 0x34, 0x34, 0x56, 0x56, 0x00, 0x80]) := by decide

/-- AC-14: AIMG_KIND is not read. -/
theorem test_composite_copy : testRun (.composite false)
    (testState { testCfg 0 0x00010001 0 0 with cimgKind := 4, aimgKind := 0 } [(0x2000, [0x7E])])
    (·.outKind) 0x3000 2 = some (0x0002, 0, 4, [0x7E, 0]) := by decide

/-- UP-5. -/
theorem test_unpremultiply : testRun .unpremultiply
    (testState { testCfg 0 0x00010001 0 0 with outKind := 2 } [(0x3000, [200, 64, 0, 100])]) (·.outKind) 0x3000 4 =
    some (0x0002, 0, 2, [255, 163, 0, 100]) := by decide

/-- UP-2: alpha 0. -/
theorem test_unpremultiply_zero : testRun .unpremultiply
    (testState { testCfg 0 0x00010001 0 0 with outKind := 2 } [(0x3000, [17, 200, 3, 0])]) (·.outKind) 0x3000 4 =
    some (0x0002, 0, 2, [17, 200, 3, 0]) := by decide

/-- FR-3. -/
theorem test_frame_mono : testRun (.frame true false)
    (testState (testCfg 0x00080007 0x00010001 0x00080004 0x00010001) [(0x1000, [0x40]), (0x1300, [0xC0])])
    (·.outKind) 0x3000 4 = some (0x0002, 0, 2, [0x40, 0x40, 0x40, 0xC0]) := by decide

/-- FR-6: C 2×2, A 2×1. -/
theorem test_frame_dims : testRun (.frame true false)
    (testState (testCfg 0x00080005 0x00020002 0x00080007 0x00010002) []) (·.outKind) 0x3000 1 =
    some (0x5304, 0x00010002, 0, [0]) := by decide

/-! ### The register interface and host programs -/

/-- What one action of the host leaves. -/
def testHost (op : HostOp) (s : State) (f : State → Nat) : Option Nat :=
  match hostTurn op s with
  | .next t => some (f t)
  | _ => none

/-- REG-6. -/
theorem test_write_fmt : testHost (.regWrite 0x010 4 0xFFFFFFFF) State.reset (·.cfg.cFmt.toNat) = some 0x001F0FFF := by
  decide

/-- REG-2. -/
theorem test_write_base : testHost (.regWrite 0x018 4 0x12345678)
    { State.reset with params := { Params.default with addrW := 16 } } (·.cfg.cYBase.toNat) = some 0x5678 := by decide

/-- REG-1: CAPS and MC_CAPS. -/
theorem test_read_caps : testHost (.regRead 0x05C 4) State.reset (·.readData.toNat) = some 0x2000 ∧
    testHost (.regRead 0x060 4) State.reset (·.readData.toNat) = some 0x0263 := by decide

/-- Programs S1 and PR-5: the words of `fmt C, 1, 1, 1, 8` and `fmt C, 3, 1, 4, 0`. -/
theorem test_fmt_words : fmtWord 1 1 (some 1) 8 = 0x0008001D ∧ fmtWord 3 1 (some 4) 0 = 0x0000004F := by decide

theorem test_reset_memory : State.reset.mem.wf = true := by decide

/-! ### Witnesses: states and operands that meet the hypotheses of each statement -/

/-- 2×2 frames with every region ready: 4:2:0 color and Monochrome alpha at 8 bits. -/
def wit8 : State :=
  testState { testCfg 0x00080005 0x00020002 0x00080007 0x00020002 with
    cYStride := 4, cCStride := 4, cimgKind := 0, aimgKind := 4, outKind := 2 } [(0x1000, [1, 2])]

/-- The same at 16 bits. -/
def wit16 : State :=
  testState { testCfg 0x00100005 0x00020002 0x00100007 0x00020002 with
    cYStride := 4, cCStride := 4, cimgKind := 1, aimgKind := 5, outKind := 3 } []

/-- The 8-bit state with other formats. -/
def witFmt (cFmt aFmt : Word) : State := { wit8 with cfg := { wit8.cfg with cFmt := cFmt, aFmt := aFmt } }

/-- The 8-bit state with a kind in each kind register. -/
def witKinds (c a o : Word) : State := { wit8 with cfg := { wit8.cfg with cimgKind := c, aimgKind := a, outKind := o } }

/-- The 8-bit state with all images at one address. -/
def witClash : State :=
  { wit8 with cfg := { wit8.cfg with cYBase := 0x3000, cimgBase := 0x3000, aYBase := 0x3000, aimgBase := 0x3000 } }

/-- The 16-bit state with Y_A, V_C and OUT at odd addresses: bad regions of the stages S1, S2 and S3. -/
def witOdd : State := { wit16 with cfg := { wit16.cfg with aYBase := 0x1301, cVBase := 0x1201, outBase := 0x3001 } }

/-- The 8-bit state where the platform refuses, or a device answers, the bytes from one address to another. -/
def witRefused (lo hi : Nat) : State := { wit8 with params := { Params.default with refused := [⟨lo, hi⟩] } }
def witDevice (lo hi : Nat) : State := { wit8 with params := { Params.default with devices := [⟨lo, hi⟩] } }

theorem ready_of {p : Params} {bufs : List Buffer} (h : checkBuffers p bufs = .ok ()) (hd : p.devices = []) :
    RegionsReady p bufs := by
  obtain ⟨h1, h2⟩ := checkBuffers_ok_iff.1 h
  exact ⟨h1, h2, fun b _ a _ => by simp [deviceAt, hd]⟩

theorem bytes_of {p : Params} (l : List Nat) (hd : p.refused = []) : BytesOk p l := fun a _ => by simp [memOk, hd]

/-- One illegal word for each condition, the reserved opcodes at their ends, and both forms of the block's turn. -/
theorem witness_IllegalWordsRaiseIllegalCommand :
    (∀ w ∈ [0x8, 0xF, 0x40, 0x80000000, 0x16, 0x25], (decode (BitVec.ofNat 32 w)).isOk = false) ∧
    ∃ s : State, s.cur = some 0x8 ∧ (s.agenda.head? = none ∨ s.agenda.head? = some .block) ∧ ¬ ∃ i, decode 0x8 = .ok i :=
  ⟨by decide, wit8.accept 8, rfl, .inl rfl, fun ⟨_, h⟩ => by cases h⟩

theorem witness_StepRunsDecodedCommand : ∃ (s : State) (w : Word) (i : Instr), s.cur = some w ∧ decode w = .ok i ∧
    (s.agenda.head? = none ∨ s.agenda.head? = some .block) :=
  ⟨wit8.accept 0x37, 0x37, .frame true true, rfl, by decide, .inl rfl⟩

theorem witness_StepTakesHostTurnOrIdles : (∃ s : State, ∃ op rest, s.agenda = .host op :: rest) ∧
    ∃ s : State, s.cur = none ∧ (s.agenda.head? = none ∨ s.agenda.head? = some .block) :=
  ⟨⟨State.reset.withProgram [.clr], _, _, rfl⟩, State.reset, rfl, .inl rfl⟩

theorem witness_CommandEndsWithinAgenda : ∃ s : State, s.status.busy = true ∧ s.cur.isSome = true ∧
    ∃ t, Sys2Proof.core.run (s.agenda.length + 1) s = .next t := ⟨wit8.accept 0, rfl, rfl, _, rfl⟩

theorem witness_BlockTurnEndsCommand : ∃ s : State, s.cur.isSome = true := ⟨wit8.accept 0, rfl⟩

theorem witness_AcceptanceStartsCommand : ∃ (s : State) (w v : Word), s.status.busy = false ∧
    (s.accept w).launchMapsDevice = false ∧ decode w = .ok .upsample ∧ (s.accept v).launchMapsDevice = false ∧
    decode v = .error .reservedOpcode :=
  ⟨{ wit8 with status := Status.reset }, 1, 8, rfl, by decide, by decide, by decide, by decide⟩

theorem witness_WritesWhileBusySetOvr : wit8.status.busy = true ∧ 0x010 ≤ Reg.cFmt.offset ∧ Reg.outKind.offset ≤ 0x054 ∧
    (0x7FFFFFFF : Word).getLsbD 31 = false ∧ (0x80000000 : Word).getLsbD 31 = true := by decide

theorem witness_RegisterAccessForms : (4095 < 4096 ∧ 4095 % 4 ≠ 0) ∧ (0 < 4096 ∧ 2 ≠ 4) ∧
    (0x02C < 4096 ∧ 0x02C % 4 = 0) ∧ (0x064 < 4096 ∧ 0x064 % 4 = 0) ∧ (0xFFC < 4096 ∧ 0xFFC % 4 = 0 ∧ 0x064 ≤ 0xFFC) := by
  decide

theorem witness_ConfigWritesReadBack : ∃ s : State, s.status.busy = false ∧ ∀ r ∈ [Reg.cFmt, .aFmt, .cDim, .cYBase, .outBase,
    .outKind], 0x010 ≤ r.offset ∧ r.offset ≤ 0x054 := ⟨State.reset, rfl, by decide⟩

theorem witness_CapabilityRegisters : (∀ n ∈ [16, 32], ({ Params.default with addrW := n } : Params).wf = true) ∧
    ({ Params.default with krkb := [⟨31, -1, 9, 4⟩] } : Params).wf = true := by decide

theorem witness_InterruptFollowsFlags : (0xE : Word).getLsbD 1 = true ∧ (0xE : Word).getLsbD 2 = true ∧
    (0xE : Word).getLsbD 3 = true ∧ (0xE : Word).getLsbD 31 = false ∧ (0xE : Word).getLsbD 0 = false ∧
    (0x80000000 : Word).getLsbD 1 = false ∧ (0x80000000 : Word).getLsbD 2 = false := by decide

theorem witness_ResetRegisterValues : ∀ r ∈ [Reg.ctrl, .aimgKind, .errInfo], r ≠ .id ∧ r ≠ .caps ∧ r ≠ .mcCaps := by decide

/-- UPSAMPLE in flight: the first and last written byte, and the bytes beside them. -/
theorem witness_SoftResetAborts : (0x80000000 : Word).getLsbD 31 = true ∧ State.reset.cur = none ∧
    (wit8.accept 1).inWritten 0x3000 = true ∧ (wit8.accept 1).inWritten 0x300B = true ∧
    (wit8.accept 1).inWritten 0x2FFF = false ∧ (wit8.accept 1).inWritten 0x300C = false := by decide

theorem witness_HardResetRestoresRegisters : State.reset.cur = none ∧ (wit8.accept 1).inWritten 0x2FFF = false := by decide

theorem witness_PseudoInstructionsExpand : 3 < 4 ∧ 1 < 2 ∧ 31 < 32 ∧ 255 < 256 ∧ 65535 < 65536 := by decide

theorem witness_HostMemoryReadsBack : 2 ^ wit8.params.addrW ≤ 2 ^ 32 ∧ 2 ^ 32 - 1 < 2 ^ wit8.params.addrW ∧
    deviceAt wit8.params (2 ^ 32 - 1) = false ∧ memOk wit8.params (2 ^ 32 - 1) = true ∧
    (wit8.accept 1).inWritten (2 ^ 32 - 1) = false := by decide

theorem witness_SampleByteOrder : 65535 < 65536 ∧ 255 < 256 := by decide

theorem witness_DisturbedCommandWritesAnyBytes :
    (∃ t, hostTurn (.memWrite 0x1000 7) (wit8.accept 1) = .next t) ∧ (wit8.accept 1).inUse 0x1000 = true ∧
    ∃ (s : State) (p : Plan), s.tainted = true ∧ Instr.upsample ≠ .nop ∧ planOf .upsample s = .ok p ∧
      p.mapsDevice s.params = false ∧ p.writes 0x3000 = true ∧ p.writes 0x2FFF = false :=
  ⟨⟨_, rfl⟩, by decide, { wit8.accept 1 with tainted := true }, _, rfl, by decide, rfl, by decide, by decide, by decide⟩

/-- The last byte of OUT and the byte after it; a command that runs to its end, a disturbed one, one with a refused
byte. -/
theorem witness_HostLoadDuringCommand : (0x300B < 2 ^ wit8.params.addrW ∧ deviceAt wit8.params 0x300B = false ∧
      memOk wit8.params 0x300B = true ∧ (wit8.accept 1).inWritten 0x300C = false) ∧
    (∃ p n, (wit8.accept 1).inFlight = some p ∧ p.writes 0x300B = true ∧ (wit8.accept 1).tainted = false ∧
      runPasses wit8.params p.passes wit8.mem = .ok n) ∧
    (∃ p, State.inFlight { wit8.accept 1 with tainted := true } = some p ∧ p.writes 0x300B = true) ∧
    memOk (witRefused 0x3000 0x3001).params 0x300B = true ∧
    ∃ p e, ((witRefused 0x3000 0x3001).accept 1).inFlight = some p ∧ p.writes 0x300B = true ∧
      runPasses (witRefused 0x3000 0x3001).params p.passes (witRefused 0x3000 0x3001).mem = .error e :=
  ⟨by decide, ⟨_, _, rfl, by decide, rfl, rfl⟩, ⟨_, rfl, by decide⟩, by decide, _, _, rfl, by decide, rfl⟩

theorem witness_GeometryNamesFirstBadRegion : ∃ e, checkGeometry 16 [⟨0x040, 15, .one, none, 2, 1, true⟩] = .error e :=
  ⟨_, rfl⟩

theorem witness_OverlapNamesLeastPair :
    (copyBufs witClash .rgb8).Pairwise (fun b c => b.offset < c.offset) ∧
    (∃ e, checkOverlap (copyBufs witClash .rgb8) = .error e) ∧ (∃ p, planOf .upsample wit8 = .ok p) ∧
    checkGeometry (memSize witClash.params) (copyBufs witClash .rgb8) = .ok () ∧
    (let s : State := { wit16 with cfg := { wit16.cfg with outBase := 0x3001 } }
     ∃ e, checkGeometry (memSize s.params) (copyBufs s .rgb16) = .error e) :=
  ⟨by decide, ⟨_, rfl⟩, ⟨_, rfl⟩, rfl, _, rfl⟩

/-- A device at the last byte of OUT. -/
theorem witness_DeviceRegionsAreRefused : ∃ p, planOf .upsample (witDevice 0x300B 0x300C) = .ok p ∧
    (∃ b ∈ p.bufs, b.has 0x300B = true ∧ deviceAt (witDevice 0x300B 0x300C).params 0x300B = true) ∧
    ({ witDevice 0x300B 0x300C with status := Status.reset } : State).status.busy = false :=
  ⟨_, rfl, by decide, rfl⟩

theorem witness_ErrorsArePrecise :
    (∃ t, exec .upsample (witFmt 0 0) = .next t ∧ (witFmt 0 0).status.err = false ∧ t.status.err = true ∧
      t.status.errCode ≠ .memFault) ∧
    ∃ t, blockTurn (wit8.accept 8) = .next t ∧ (wit8.accept 8).status.err = false ∧ t.status.err = true ∧
      t.status.errCode ≠ .memFault :=
  ⟨⟨_, rfl, rfl, rfl, by decide⟩, _, rfl, rfl, rfl, by decide⟩

/-- A refused byte in V, for UPSAMPLE. -/
theorem witness_MemFaultEffects : ∃ t p, exec .upsample (witRefused 0x1200 0x1201) = .next t ∧
    (witRefused 0x1200 0x1201).status.err = false ∧ t.status.err = true ∧ t.status.errCode = .memFault ∧
    planOf .upsample (witRefused 0x1200 0x1201) = .ok p ∧ p.writes 0x3000 = true ∧ p.writes 0x2FFF = false :=
  ⟨_, _, rfl, rfl, rfl, rfl, rfl, by decide, by decide⟩

/-- A refused byte in CIMG, for CONVERT: the stage before it runs to its end. -/
theorem witness_RefusedByteFaults : ∃ (p : Plan) (pre post : List Pass) (q : Pass) (m : Memory), Instr.convert ≠ .nop ∧
    planOf .convert (witRefused 0x200B 0x200C) = .ok p ∧ p.mapsDevice (witRefused 0x200B 0x200C).params = false ∧
    p.passes = pre ++ q :: post ∧
    runPasses (witRefused 0x200B 0x200C).params pre (witRefused 0x200B 0x200C).mem = .ok m ∧
    ∃ b ∈ q.touches m, memOk (witRefused 0x200B 0x200C).params b = false :=
  ⟨_, [(convertPasses (witRefused 0x200B 0x200C) .c420 1 (.ncl ⟨1, 2126, 722, 10000⟩)).head (by decide)], [], _, _,
    by decide, rfl, by decide, rfl, rfl, by decide⟩

/-- Every command, and FRAME for a Monochrome frame too. -/
theorem witness_StageOrderOfCommands : (∀ i ∈ [Instr.nop, .upsample, .convert, .convertGray, .extractAlpha,
      .composite false, .composite true, .unpremultiply, .frame false false, .frame true false, .frame true true],
      ((planOf i wit8).toOption).isSome = true) ∧
    ∀ i ∈ [Instr.frame false false, .frame true false, .frame true true],
      ((planOf i (witFmt 0x00080007 0x00080007)).toOption).isSome = true ∧
      (witFmt 0x00080007 0x00080007).colorFrame.sampling = .mono := by
  decide

theorem witness_ConvertMemFaultStage : (8 ≤ wit8.colorFrame.depth ∧ wit8.colorFrame.depth ≤ 16) ∧
    wit8.colorFrame.sampling = .chroma .c420 ∧
    (∀ a ∈ [0x1200, 0x2000], RegionsReady (witRefused a (a + 1)).params (convertBufs (witRefused a (a + 1)) .c420)) ∧
    (matrixOf Params.default (resolveMc wit8.colorFrame.mc Params.default.defaultMcColor)).isSome = true ∧
    (∃ a ∈ cuTouches (witRefused 0x1200 0x1201) .c420, memOk (witRefused 0x1200 0x1201).params a = false) ∧
    (BytesOk (witRefused 0x2000 0x2001).params (cuTouches (witRefused 0x2000 0x2001) .c420) ∧
      ∃ a ∈ (witRefused 0x2000 0x2001).rgbImage.touched, memOk (witRefused 0x2000 0x2001).params a = false) := by
  refine ⟨by decide, by decide, ?_, by decide, by decide, ?_, by decide⟩
  · simp only [List.mem_cons, List.not_mem_nil, or_false]
    rintro a (rfl | rfl) <;> exact ready_of rfl rfl
  · unfold BytesOk; decide

/-- Every command passes its checks (a Monochrome FRAME too); the bytes on either side of OUT are not UPSAMPLE's. -/
theorem witness_CommandsWriteOnlyTheirRegions :
    (∀ i ∈ [Instr.nop, .upsample, .convert, .convertGray, .extractAlpha, .composite false, .composite true,
      .unpremultiply, .frame false false, .frame true true], (planOf i wit8).toOption.isSome = true) ∧
    (planOf (.frame true false) (witFmt 0x00080007 0x00080007)).toOption.isSome = true ∧
    ∃ t p, exec .upsample wit8 = .next t ∧ planOf .upsample wit8 = .ok p ∧
      p.writes 0x2FFF = false ∧ p.writes 0x300C = false :=
  ⟨by decide, by decide, _, _, rfl, rfl, by decide, by decide⟩

/-- Depths 7 and 17; Monochrome; a matrix outside the set; clashing regions. -/
theorem witness_ColorCommandErrorPriority :
    (∀ f ∈ [0x00070005, 0x00110005], ¬ (8 ≤ (witFmt (BitVec.ofNat 32 f) 0).colorFrame.depth ∧ (witFmt (BitVec.ofNat 32 f) 0).colorFrame.depth ≤ 16)) ∧
    (∀ f ∈ [0x00080003, 0x00100003], 8 ≤ (witFmt (BitVec.ofNat 32 f) 0).colorFrame.depth ∧ (witFmt (BitVec.ofNat 32 f) 0).colorFrame.depth ≤ 16 ∧
      (witFmt (BitVec.ofNat 32 f) 0).colorFrame.sampling = .mono) ∧
    matrixOf Params.default (resolveMc (witFmt 0x0008004C 0).colorFrame.mc Params.default.defaultMcColor) = none ∧
    (∃ e, checkBuffers witClash.params (upsampleBufs witClash .c420) = .error e) ∧
    (∃ e, checkBuffers witClash.params (convertBufs witClash .c420) = .error e) ∧
    (matrixOf witClash.params (resolveMc witClash.colorFrame.mc witClash.params.defaultMcColor)).isSome = true :=
  ⟨by decide, by decide, by decide, ⟨_, rfl⟩, ⟨_, rfl⟩, by decide⟩

theorem witness_GrayCommandErrorPriority :
    (∀ f ∈ [0x00070007, 0x00110007], ¬ (8 ≤ (witFmt (BitVec.ofNat 32 f) (BitVec.ofNat 32 f)).colorFrame.depth ∧ (witFmt (BitVec.ofNat 32 f) (BitVec.ofNat 32 f)).colorFrame.depth ≤ 16) ∧
      ¬ (8 ≤ (witFmt (BitVec.ofNat 32 f) (BitVec.ofNat 32 f)).alphaFrame.depth ∧ (witFmt (BitVec.ofNat 32 f) (BitVec.ofNat 32 f)).alphaFrame.depth ≤ 16)) ∧
    (∀ f ∈ [0x00080038, 0x00100038], (8 ≤ (witFmt (BitVec.ofNat 32 f) (BitVec.ofNat 32 f)).colorFrame.depth ∧ (witFmt (BitVec.ofNat 32 f) (BitVec.ofNat 32 f)).alphaFrame.depth ≤ 16) ∧
      matrixOf Params.default (resolveMc (witFmt (BitVec.ofNat 32 f) (BitVec.ofNat 32 f)).colorFrame.mc Params.default.defaultMcGray) = none ∧
      matrixOf Params.default (resolveMc (witFmt (BitVec.ofNat 32 f) (BitVec.ofNat 32 f)).alphaFrame.mc Params.default.defaultMcGray) = none) ∧
    (∃ e, checkBuffers witClash.params (convertGrayBufs witClash) = .error e) ∧
    (∃ e, checkBuffers witClash.params (extractAlphaBufs witClash) = .error e) ∧
    (matrixOf witClash.params (resolveMc witClash.colorFrame.mc witClash.params.defaultMcGray)).isSome = true ∧
    (matrixOf witClash.params (resolveMc witClash.alphaFrame.mc witClash.params.defaultMcGray)).isSome = true :=
  ⟨by decide, by decide, ⟨_, rfl⟩, ⟨_, rfl⟩, by decide, by decide⟩

/-- The reserved kinds 6 and 7; the alpha kinds beside 4 and 5; frames of two sizes; the rows without a result. -/
theorem witness_CompositeErrorPriority :
    (∀ k ∈ [6, 7], kindOf (kindCode (witKinds (BitVec.ofNat 32 k) 4 0).cfg.cimgKind) = none) ∧
    (∀ k ∈ [3, 6], alphaKindOf (kindCode (witKinds 0 (BitVec.ofNat 32 k) 0).cfg.aimgKind) = none) ∧
    kindOf (kindCode (witKinds 0 4 0).cfg.cimgKind) = some .rgb8 ∧
    kindOf (kindCode (witKinds 3 5 0).cfg.cimgKind) = some .rgba16 ∧
    alphaKindOf (kindCode (witKinds 3 5 0).cfg.aimgKind) = some .gray16 ∧
    wit8.colorFrame.w = wit8.alphaFrame.w ∧ wit8.colorFrame.h = wit8.alphaFrame.h ∧
    (let s : State := { wit8 with cfg := { wit8.cfg with aDim := 0x00020001 } }
     ¬ (s.colorFrame.w = s.alphaFrame.w ∧ s.colorFrame.h = s.alphaFrame.h)) ∧
    (kindOf (kindCode witClash.cfg.cimgKind) = some .rgb8 ∧ alphaKindOf (kindCode witClash.cfg.aimgKind) = some .gray8 ∧
      witClash.colorFrame.w = witClash.alphaFrame.w ∧ witClash.colorFrame.h = witClash.alphaFrame.h) ∧
    (∃ e, checkBuffers witClash.params (copyBufs witClash .rgb8) = .error e) ∧
    ∃ row, compositeRow .rgb8 .gray8 = some row ∧
      ∃ e, checkBuffers witClash.params (blendBufs witClash .rgb8 .gray8 row.result) = .error e :=
  ⟨by decide, by decide, by decide, by decide, by decide, by decide, by decide, by decide, by decide, ⟨_, rfl⟩, _, rfl, _, rfl⟩

theorem witness_UnpremultiplyErrors :
    (∀ k ∈ [1, 4, 6], kindOf (kindCode (witKinds 0 4 (BitVec.ofNat 32 k)).cfg.outKind) ≠ some .rgba8 ∧
      kindOf (kindCode (witKinds 0 4 (BitVec.ofNat 32 k)).cfg.outKind) ≠ some .rgba16) ∧
    (let s : State := { wit16 with cfg := { wit16.cfg with outBase := 0x3001 } }
     kindOf (kindCode s.cfg.outKind) = some .rgba16 ∧
       ((s.out .rgba16).buffer true).badGeometry (memSize s.params) = true) ∧
    ∃ t, exec .unpremultiply wit8 = .next t ∧ wit8.status.errCode ≠ .bufferOverlap :=
  ⟨by decide, by decide, _, rfl, by decide⟩

/-- Y_A, at 0x038 and of S1, is reported before V_C, at 0x020 and of S2 (R143). -/
theorem test_frame_bad_regions : testRun (.frame true false) witOdd (·.outKind) 0x3000 1 = some (0x1804, 0x38, 3, [0]) := by
  decide

/-- Kr = −1/2, Kb = 1/2, so Kg = 1, and Kr = Kb = 1, so Kg = −1: by hand from R100 and R101. -/
theorem test_csc_signs : cscRef 8 .full (.ncl ⟨2, -1, 1, 2⟩) ⟨100, 128, 138⟩ = ⟨130, 115, 100⟩ ∧
    cscRef 8 .full (.ncl ⟨2, 1, 1, 1⟩) ⟨100, 128, 138⟩ = ⟨100, 100, 100⟩ := by decide

theorem witness_FrameErrorPriority :
    (¬ (8 ≤ (witFmt 0x00070005 0x00110007).alphaFrame.depth ∧ (witFmt 0x00070005 0x00110007).alphaFrame.depth ≤ 16)) ∧
    (¬ (8 ≤ (witFmt 0x00070005 0x00110007).colorFrame.depth ∧ (witFmt 0x00070005 0x00110007).colorFrame.depth ≤ 16)) ∧
    (8 ≤ wit8.alphaFrame.depth ∧ wit16.alphaFrame.depth ≤ 16 ∧ 8 ≤ wit8.colorFrame.depth ∧ wit16.colorFrame.depth ≤ 16) ∧
    mcSupported Params.default (resolveMc (witFmt 0x0008004D 0).colorFrame.mc 1) = false ∧
    mcSupported Params.default (resolveMc (witFmt 0 0x0008004F).alphaFrame.mc 0) = false ∧
    mcSupported Params.default (resolveMc wit8.colorFrame.mc 1) = true ∧
    mcSupported Params.default (resolveMc wit8.alphaFrame.mc 0) = true ∧
    (∃ e, checkBuffers witClash.params (framePlainBufs witClash) = .error e) ∧
    (∃ row, compositeRow (frameColorKind witClash.colorFrame) (grayKind witClash.alphaFrame.depth) = some row ∧
      (∀ b ∈ frameAlphaByStage witClash row.result, b.badGeometry (memSize witClash.params) = false) ∧
      ∃ e, checkOverlap (frameAlphaBufs witClash row.result) = .error e) ∧
    (∀ b ∈ [witOdd.planeYA.buffer, (witOdd.planeVC .c420).buffer, (witOdd.out .rgba16).buffer true],
      b.badGeometry (memSize witOdd.params) = true) ∧
    ([witOdd.planeYA.buffer, witOdd.alphaImage.buffer true].map (·.badGeometry (memSize witOdd.params)) = [true, false] ∧
      witOdd.colorFrame.w = witOdd.alphaFrame.w ∧ witOdd.colorFrame.h = witOdd.alphaFrame.h ∧
      (compositeRow (frameColorKind witOdd.colorFrame) (grayKind witOdd.alphaFrame.depth)).isSome = true) ∧
    (let s : State := { wit8 with cfg := { wit8.cfg with aDim := 0x00020001 } }
     ¬ (s.colorFrame.w = s.alphaFrame.w ∧ s.colorFrame.h = s.alphaFrame.h)) :=
  ⟨by decide, by decide, by decide, by decide, by decide, by decide, by decide, ⟨_, rfl⟩, ⟨_, rfl, by decide, _, rfl⟩, by decide,
    by decide, by decide⟩

theorem witness_FrameNeverRaises : ∃ t, exec (.frame true true) (witFmt 0 0) = .next t ∧
    (witFmt 0 0).status.err = false ∧ t.status.err = true := ⟨_, rfl, rfl, rfl⟩

theorem witness_UpsampleWritesTriples : ∀ s ∈ [wit8, wit16], 8 ≤ s.colorFrame.depth ∧ s.colorFrame.depth ≤ 16 ∧
    s.colorFrame.sampling = .chroma .c420 ∧ RegionsReady s.params (upsampleBufs s .c420) ∧
    BytesOk s.params (cuTouches s .c420 ++ s.tri.touched) ∧ s.tainted = false := by
  simp only [List.mem_cons, List.not_mem_nil, or_false]
  rintro s (rfl | rfl) <;> exact ⟨by decide, by decide, by decide, ready_of rfl rfl, bytes_of _ rfl, rfl⟩

theorem witness_ConvertWritesColorImage : ∀ s ∈ [wit8, wit16], s.params.wf = true ∧ 8 ≤ s.colorFrame.depth ∧
    s.colorFrame.depth ≤ 16 ∧ s.colorFrame.sampling = .chroma .c420 ∧
    (∃ mx, matrixOf s.params (resolveMc s.colorFrame.mc s.params.defaultMcColor) = some mx) ∧
    RegionsReady s.params (convertBufs s .c420) ∧ BytesOk s.params (cuTouches s .c420 ++ s.rgbImage.touched) ∧
    s.tainted = false := by
  simp only [List.mem_cons, List.not_mem_nil, or_false]
  rintro s (rfl | rfl) <;>
    exact ⟨by decide, by decide, by decide, by decide, ⟨_, rfl⟩, ready_of rfl rfl, bytes_of _ rfl, rfl⟩

theorem witness_ConvertGrayWritesGrayImage : ∀ s ∈ [wit8, wit16], s.params.wf = true ∧ 8 ≤ s.colorFrame.depth ∧
    s.colorFrame.depth ≤ 16 ∧ (∃ mx, matrixOf s.params (resolveMc s.colorFrame.mc s.params.defaultMcGray) = some mx) ∧
    RegionsReady s.params (convertGrayBufs s) ∧ BytesOk s.params (s.planeYC.touched ++ s.grayImage.touched) ∧
    s.tainted = false := by
  simp only [List.mem_cons, List.not_mem_nil, or_false]
  rintro s (rfl | rfl) <;> exact ⟨by decide, by decide, by decide, ⟨_, rfl⟩, ready_of rfl rfl, bytes_of _ rfl, rfl⟩

theorem witness_ExtractAlphaWritesAlphaImage : ∀ s ∈ [wit8, wit16], s.params.wf = true ∧ 8 ≤ s.alphaFrame.depth ∧
    s.alphaFrame.depth ≤ 16 ∧ (∃ mx, matrixOf s.params (resolveMc s.alphaFrame.mc s.params.defaultMcGray) = some mx) ∧
    RegionsReady s.params (extractAlphaBufs s) ∧ BytesOk s.params (s.planeYA.touched ++ s.alphaImage.touched) ∧
    s.tainted = false := by
  simp only [List.mem_cons, List.not_mem_nil, or_false]
  rintro s (rfl | rfl) <;> exact ⟨by decide, by decide, by decide, ⟨_, rfl⟩, ready_of rfl rfl, bytes_of _ rfl, rfl⟩

theorem witness_CompositeWithoutAlphaCopies : ∀ s ∈ [wit8, witKinds 5 0 0], ∃ ck,
    kindOf (kindCode s.cfg.cimgKind) = some ck ∧ RegionsReady s.params (copyBufs s ck) ∧
    BytesOk s.params ((s.cimg ck).touched ++ (s.out ck).touched) ∧ s.tainted = false := by
  simp only [List.mem_cons, List.not_mem_nil, or_false]
  rintro s (rfl | rfl) <;> exact ⟨_, rfl, ready_of rfl rfl, bytes_of _ rfl, rfl⟩

theorem witness_CompositeWithAlphaBlends : ∀ s ∈ [wit8, wit16], ∃ ck ak row,
    kindOf (kindCode s.cfg.cimgKind) = some ck ∧ alphaKindOf (kindCode s.cfg.aimgKind) = some ak ∧
    s.colorFrame.w = s.alphaFrame.w ∧ s.colorFrame.h = s.alphaFrame.h ∧ compositeRow ck ak = some row ∧
    RegionsReady s.params (blendBufs s ck ak row.result) ∧
    BytesOk s.params ((s.cimg ck).touched ++ (s.aimg ak).touched ++ (s.out row.result).touched) ∧
    s.tainted = false := by
  simp only [List.mem_cons, List.not_mem_nil, or_false]
  rintro s (rfl | rfl) <;> exact ⟨_, _, _, rfl, rfl, rfl, rfl, rfl, ready_of rfl rfl, bytes_of _ rfl, rfl⟩

theorem witness_UnpremultiplyDividesColor : ∀ s ∈ [wit8, wit16], ∃ k, (k = .rgba8 ∨ k = .rgba16) ∧
    kindOf (kindCode s.cfg.outKind) = some k ∧ RegionsReady s.params (unpremulBufs s k) ∧
    (∀ j, j < s.colorFrame.w * s.colorFrame.h →
      BytesOk s.params (unpremulTouches s.params.endian (s.out k) s.mem j)) ∧ s.tainted = false := by
  simp only [List.mem_cons, List.not_mem_nil, or_false]
  rintro s (rfl | rfl)
  · exact ⟨.rgba8, .inl rfl, rfl, ready_of rfl rfl, fun _ _ => bytes_of _ rfl, rfl⟩
  · exact ⟨.rgba16, .inr rfl, rfl, ready_of rfl rfl, fun _ _ => bytes_of _ rfl, rfl⟩

theorem witness_FrameWithoutAlphaIsItsStages : ∀ s ∈ [wit8, wit16, witFmt 0x00080007 0], (∃ mx,
    matrixOf s.params (resolveMc s.colorFrame.mc (if s.colorFrame.sampling = .mono then s.params.defaultMcGray
      else s.params.defaultMcColor)) = some mx) ∧ 8 ≤ s.colorFrame.depth ∧ s.colorFrame.depth ≤ 16 ∧
    RegionsReady s.params (framePlainBufs s) ∧
    BytesOk s.params
      (frameColorReads s ++ s.frameCimg.touched ++ (s.out (frameColorKind s.colorFrame)).touched) ∧
    s.tainted = false := by
  simp only [List.mem_cons, List.not_mem_nil, or_false]
  rintro s (rfl | rfl | rfl) <;> exact ⟨⟨_, rfl⟩, by decide, by decide, ready_of rfl rfl, bytes_of _ rfl, rfl⟩

theorem witness_FrameWithAlphaIsItsStages : ∀ s ∈ [wit8, wit16], ∃ ma mx row,
    (8 ≤ s.alphaFrame.depth ∧ s.alphaFrame.depth ≤ 16 ∧ 8 ≤ s.colorFrame.depth ∧ s.colorFrame.depth ≤ 16) ∧
    matrixOf s.params (resolveMc s.alphaFrame.mc s.params.defaultMcGray) = some ma ∧
    matrixOf s.params (resolveMc s.colorFrame.mc (if s.colorFrame.sampling = .mono then s.params.defaultMcGray
      else s.params.defaultMcColor)) = some mx ∧
    s.colorFrame.w = s.alphaFrame.w ∧ s.colorFrame.h = s.alphaFrame.h ∧
    compositeRow (frameColorKind s.colorFrame) (grayKind s.alphaFrame.depth) = some row ∧
    RegionsReady s.params (frameAlphaBufs s row.result) ∧
    BytesOk s.params (s.planeYA.touched ++ s.alphaImage.touched ++
      (frameColorReads s ++ s.frameCimg.touched ++ (s.out row.result).touched)) ∧ s.tainted = false := by
  simp only [List.mem_cons, List.not_mem_nil, or_false]
  rintro s (rfl | rfl) <;>
    exact ⟨_, _, _, by decide, rfl, rfl, rfl, rfl, rfl, ready_of rfl rfl, bytes_of _ rfl, rfl⟩

/-- Frames 0×2 and 2×0, with and without alpha. -/
theorem witness_EmptyFramesComplete : ∀ d ∈ [0x00020000, 0x00000002],
    let s : State := { wit8 with cfg := { wit8.cfg with cDim := BitVec.ofNat 32 d, aDim := BitVec.ofNat 32 d } }
    s.tainted = false ∧ (s.colorFrame.w = 0 ∨ s.colorFrame.h = 0) ∧ (s.alphaFrame.w = 0 ∨ s.alphaFrame.h = 0) ∧
    (8 ≤ s.colorFrame.depth ∧ s.colorFrame.depth ≤ 16) ∧ (8 ≤ s.alphaFrame.depth ∧ s.alphaFrame.depth ≤ 16) ∧
    s.colorFrame.sampling ≠ .mono ∧ mcSupported s.params (resolveMc s.colorFrame.mc s.params.defaultMcColor) = true ∧
    mcSupported s.params (resolveMc s.colorFrame.mc s.params.defaultMcGray) = true ∧
    mcSupported s.params (resolveMc s.alphaFrame.mc s.params.defaultMcGray) = true ∧
    kindOf (kindCode s.cfg.cimgKind) = some .rgb8 ∧ alphaKindOf (kindCode s.cfg.aimgKind) = some .gray8 ∧
    (compositeRow .rgb8 .gray8).isSome = true ∧ kindCode s.cfg.outKind = 2 ∧
    s.colorFrame.w = s.alphaFrame.w ∧ s.colorFrame.h = s.alphaFrame.h := by decide

theorem witness_ReferenceConversionIsExact : (∀ n ∈ [8, 16], 8 ≤ n ∧ n ≤ 16) ∧
    ∀ k ∈ ⟨2, -3, 5, 1⟩ :: Params.default.krkb, 0 < k.den ∧ k.kr + k.kb ≠ k.den := by decide

theorem witness_ConversionHasProperties : Params.default.wf = true ∧ (matrixOf Params.default 0).isSome = true ∧
    (matrixOf Params.default 1).isSome = true ∧
    ({ Params.default with cscRows := [⟨8, .full, 1, 54, 99, 255, 255, 0, 0⟩] } : Params).wf = true ∧
    (∃ c ∈ ({ Params.default with cscRows := [⟨8, .full, 1, 54, 99, 255, 255, 0, 0⟩] } : Params).cscRows,
      c.depth = 8 ∧ c.range = .full ∧ c.mc = 1 ∧ c.y = 54 ∧ c.u = 99 ∧ c.v = 255) ∧
    (∀ c ∈ ({ Params.default with cscRows := [⟨8, .full, 1, 54, 99, 255, 255, 0, 0⟩] } : Params).cscRows,
      ¬ (c.depth = 8 ∧ c.range = .full ∧ c.mc = 1 ∧ c.y = 54 ∧ c.u = 99 ∧ c.v = 254)) := by decide

theorem witness_GrayIgnoresMatrix : 8 ≤ 8 ∧ 16 ≤ 16 ∧
    ∀ k ∈ ⟨2, -3, 5, 1⟩ :: Params.default.krkb, 0 < k.den ∧ k.kr + k.kb ≠ k.den := by decide

theorem witness_MatrixResolution : (0x00080027 : Word).getLsbD 3 = false ∧
    ((0x0008002C : Word).getLsbD 3 = true ∧ ((0x0008002C : Word).extractLsb' 4 8).toNat = 2) ∧
    ((0x0008004C : Word).getLsbD 3 = true ∧ ((0x0008004C : Word).extractLsb' 4 8).toNat ≠ 2) ∧
    ((checkMatrix Params.default (witFmt 0x0008004C 0).colorFrame 1 .cscColor).toOption).isNone = true ∧
    ((checkMatrix Params.default wit8.colorFrame 1 .cscColor).toOption).isSome = true ∧
    (∀ mc ∈ [0, 9], (matrixOf Params.default mc).isSome = true) := by decide

theorem witness_ChromaIsShared : 1 < 2 ∧ 1 < wit8.colorFrame.w ∧ 1 < wit8.colorFrame.h := by decide

theorem witness_WideningLaws : 255 < 256 ∧ 254 < 255 := by decide

theorem witness_UnpremultiplyArithmetic : (0 < 1 ∧ 1 ≤ 255 ∧ 1 ≤ 1) ∧ 65535 < rhu (65535 * 65535) 1 ∧
    255 < 3 * 86 ∧ 65535 < 3 * 21846 ∧ (85 ≤ 85 ∧ 84 ≤ 84) := by decide

/-- A command in flight, completing. -/
theorem witness_StepKeepsInvariant : ∃ s t : State, Inv s ∧ step s = .next t :=
  ⟨State.reset.accept 0, _,
    ⟨by decide, by decide, rfl, fun w h => by cases h; rfl, rfl, fun _ => ⟨rfl, rfl⟩, fun h => (by cases h),
      fun _ => ⟨rfl, rfl, rfl⟩, fun h => (by cases h), fun h => (by cases h), by unfold ConfigRegs.stored; decide, by decide⟩,
    rfl⟩

theorem witness_StepKeepsParameters : ∃ s t : State, step s = .next t := ⟨wit8.accept 0, _, rfl⟩

/-- A host write, a reset and a completion, each changing a configuration register. -/
theorem witness_ConfigRegistersAreHeld :
    (∃ s t : State, step s = .next t ∧ s.agenda = [.host (.regWrite 0x054 4 5)] ∧ t.cfg ≠ s.cfg) ∧
    (∃ s t : State, step s = .next t ∧ s.agenda = [.host .hardReset] ∧ t.cfg ≠ s.cfg) ∧
    ∃ s t : State, step s = .next t ∧ s.agenda = [] ∧ t.cfg ≠ s.cfg :=
  ⟨⟨{ State.reset with agenda := [.host (.regWrite 0x054 4 5)] }, _, rfl, rfl, by decide⟩,
    ⟨{ State.reset with agenda := [.host .hardReset], cfg := { ConfigRegs.reset with cDim := 1 } }, _, rfl, rfl, by decide⟩,
    { (witKinds 1 4 2).accept 3 with agenda := [] }, _, rfl, rfl, by decide⟩

end Sys2Proof.Machine
end

section
/-! PROOFS. What every step keeps of the parameters and of the agenda (R8). -/

namespace Sys2Proof.Machine

/-- A command changes no parameter, however it ends. -/
theorem exec_params {i : Instr} {s t : State} (h : exec i s = .next t) : t.params = s.params := by
  by_cases hi : i = .nop
  · subst hi; cases h; exact State.complete_params s
  · rw [exec_eq_runPlan hi] at h
    obtain ⟨e, -, rfl⟩ | ⟨p, -, -, ⟨k, bad, -, rfl⟩ | ⟨m, -, rfl⟩⟩ := runPlan_next h
    · exact State.raise_params s e
    · exact State.memFault_params s p k bad
    · rw [State.complete_params, State.commit_params]

/-- What the block's turn never changes, be it idle, with an illegal word or with a command. -/
theorem blockTurn_keeps {s t : State} (h : blockTurn s = .next t) :
    t.params = s.params ∧ t.agenda = s.agenda := by
  unfold blockTurn at h
  split at h
  · cases h; exact ⟨rfl, rfl⟩
  · split at h
    · cases h; exact ⟨State.raise_params s _, State.raise_agenda s _⟩
    · obtain ⟨-, -, -, -, hagenda⟩ := exec_next_end h
      exact ⟨exec_params h, hagenda⟩

/-- On a turn of the host a step is the host's action, off the agenda (R138). -/
theorem step_host {s : State} {op : HostOp} {rest : List Turn} (h : s.agenda = .host op :: rest) :
    step s = hostTurn op s.popTurn := by
  unfold step takeTurn; rw [h]

/-- A step is the turn of one of the two agents, taken off the agenda. -/
theorem step_cases (s : State) : step s = blockTurn s.popTurn ∨ ∃ op, step s = hostTurn op s.popTurn := by
  match h : s.agenda with
  | [] => exact .inl (step_block (.inl (by rw [h]; rfl)))
  | .block :: _ => exact .inl (step_block (.inr (by rw [h]; rfl)))
  | .host op :: _ => exact .inr ⟨op, step_host h⟩

/-- Settles O59: either agent's turn keeps the parameters and the agenda that is left once the turn is off it. -/
theorem stepKeepsParameters : Obligations.StepKeepsParameters := by
  intro s t h
  obtain hblock | ⟨op, hhost⟩ := step_cases s
  · exact blockTurn_keeps (hblock ▸ h)
  · obtain ⟨hagenda, hparams, -⟩ := hostTurn_keeps (hhost ▸ h)
    exact ⟨hparams, hagenda⟩

end Sys2Proof.Machine
end

section
/-! PROOFS. The conversion CSC against CSC_REF, and the properties P1 and P3 to P5 of every admitted CSC (R103,
R104). -/

namespace Sys2Proof.Machine

/-! ### The matrix of a code -/

theorem matrixOf_zero {p : Params} {mx : Matrix} (h : matrixOf p 0 = some mx) : mx = .identity := by
  unfold matrixOf at h
  rw [if_pos rfl] at h
  split at h <;> cases h
  rfl

theorem matrixOf_ncl {p : Params} {mc : Nat} {mx : Matrix} (h : matrixOf p mc = some mx) (h0 : mc ≠ 0) :
    ∃ k ∈ p.krkb, k.code = mc ∧ mx = .ncl k := by
  unfold matrixOf at h
  rw [if_neg h0] at h
  split at h
  · obtain ⟨k, hk, rfl⟩ := Option.map_eq_some_iff.1 h
    exact ⟨k, List.mem_of_find?_eq_some hk, by simpa using List.find?_some hk, rfl⟩
  · cases h

/-! ### What admitted parameters give -/

/-- Each pair of an admitted `KRKB` has a denominator and a Kg that is not 0. -/
theorem krkb_ok_of_wf {p : Params} (hw : p.wf = true) {k : KrKb} (hk : k ∈ p.krkb) :
    0 < k.den ∧ k.kr + k.kb ≠ k.den := by
  simp only [Params.wf, Params.krkbOk, Bool.and_eq_true, List.all_eq_true] at hw
  obtain ⟨⟨-, hkrkb⟩, -⟩ := hw
  have hok := hkrkb k hk
  simp only [KrKb.ok, Bool.and_eq_true, decide_eq_true_eq] at hok
  obtain ⟨⟨-, hden⟩, hkg⟩ := hok
  exact ⟨hden, hkg⟩

theorem cscRow_ok_of_wf {p : Params} (hw : p.wf = true) {c : CscRow} (hc : c ∈ p.cscRows) : c.ok = true := by
  simp only [Params.wf, Params.cscOk, Bool.and_eq_true, List.all_eq_true] at hw
  obtain ⟨-, hrows⟩ := hw
  exact hrows c hc

/-- P3 of an admitted row, at white. -/
theorem cscRow_white {c : CscRow} (h : c.ok = true) (hk : cscRowAt c 8 .full 1 ⟨255, 128, 128⟩ = true) :
    (⟨c.r, c.g, c.b⟩ : Rgb) = ⟨255, 255, 255⟩ := by
  obtain ⟨hdepth, hrange, hmc, hy, hu, hv⟩ := cscRowAt_iff.1 hk
  simp_all [CscRow.ok]

/-- P3 of an admitted row, at black. -/
theorem cscRow_black {c : CscRow} (h : c.ok = true) (hk : cscRowAt c 8 .full 1 ⟨0, 128, 128⟩ = true) :
    (⟨c.r, c.g, c.b⟩ : Rgb) = ⟨0, 0, 0⟩ := by
  obtain ⟨hdepth, hrange, hmc, hy, hu, hv⟩ := cscRowAt_iff.1 hk
  simp_all [CscRow.ok]

/-- P4 of an admitted row. -/
theorem cscRow_identity {c : CscRow} {n : Nat} {range : ColorRange} {t : Yuv} (h : c.ok = true)
    (hk : cscRowAt c n range 0 t = true) : c.r = c.g ∧ c.g = c.b := by
  obtain ⟨-, -, hmc, -⟩ := cscRowAt_iff.1 hk
  simp_all [CscRow.ok]

/-- P5 of an admitted row. -/
theorem cscRow_identityFull8 {c : CscRow} {t : Yuv} (h : c.ok = true) (hk : cscRowAt c 8 .full 0 t = true) :
    (⟨c.r, c.g, c.b⟩ : Rgb) = ⟨t.y, t.y, t.y⟩ := by
  obtain ⟨hrg, hgb⟩ := cscRow_identity h hk
  obtain ⟨hdepth, hrange, hmc, hy, -⟩ := cscRowAt_iff.1 hk
  have hr : c.r = t.y := by simp_all [CscRow.ok]
  rw [← hgb, ← hrg, hr]

/-! ### CSC is a listed row or CSC_REF -/

theorem csc_cases (p : Params) (n : Nat) (range : ColorRange) (mc : Nat) (mx : Matrix) (t : Yuv) :
    (∃ c ∈ p.cscRows, cscRowAt c n range mc t = true ∧ csc p n range mc mx t = ⟨c.r, c.g, c.b⟩) ∨
    ((∀ c ∈ p.cscRows, ¬ cscRowAt c n range mc t = true) ∧ csc p n range mc mx t = cscRef n range mx t) := by
  unfold csc
  split
  · next c hfound =>
    exact .inl ⟨c, List.mem_of_find?_eq_some hfound,
      List.find?_some (p := fun c => cscRowAt c n range mc t) hfound, rfl⟩
  · next hnone => exact .inr ⟨List.find?_eq_none.1 hnone, rfl⟩

theorem csc_of_unlisted {p : Params} {n : Nat} {range : ColorRange} {mc : Nat} {t : Yuv} (mx : Matrix)
    (h : ∀ c ∈ p.cscRows, ¬ cscRowAt c n range mc t = true) : csc p n range mc mx t = cscRef n range mx t := by
  obtain ⟨c, hc, hk, -⟩ | ⟨-, href⟩ := csc_cases p n range mc mx t
  · exact absurd hk (h c hc)
  · exact href

theorem csc_of_listed {p : Params} {n : Nat} {range : ColorRange} {mc : Nat} {t : Yuv} (mx : Matrix)
    (h : ∃ c ∈ p.cscRows, cscRowAt c n range mc t = true) :
    ∃ c ∈ p.cscRows, cscRowAt c n range mc t = true ∧ csc p n range mc mx t = ⟨c.r, c.g, c.b⟩ := by
  obtain hrow | ⟨hnone, -⟩ := csc_cases p n range mc mx t
  · exact hrow
  · obtain ⟨c, hc, hk⟩ := h
    exact absurd hk (hnone c hc)

/-- What holds of CSC_REF at a point and of every admitted row for it holds of every admitted CSC there. -/
theorem csc_property {p : Params} {n : Nat} {range : ColorRange} {mc : Nat} {mx : Matrix} {t : Yuv} (Q : Rgb → Prop)
    (hw : p.wf = true) (hrow : ∀ c : CscRow, c.ok = true → cscRowAt c n range mc t = true → Q ⟨c.r, c.g, c.b⟩)
    (href : Q (cscRef n range mx t)) : Q (csc p n range mc mx t) := by
  obtain ⟨c, hc, hk, heq⟩ | ⟨-, heq⟩ := csc_cases p n range mc mx t
  · exact heq ▸ hrow c (cscRow_ok_of_wf hw hc) hk
  · exact heq ▸ href

/-! ### CSC_REF on gray input -/

/-- Quantizing depends on the rational alone (R101). -/
theorem quantize_congr (m : Nat) {x y : Frac} (hx : x.den ≠ 0) (hy : y.den ≠ 0) (h : x.val = y.val) :
    quantize m x = quantize m y := by
  have hq : (quantize m x : Int) = quantize m y := by
    rw [quantize_rat m x hx, quantize_rat m y hy, ← Frac.val, ← Frac.val, h]
  exact_mod_cast hq

/-- With Pb = Pr = 0 every matrix gives Yn on all three channels (R100). -/
theorem ncl_vals_neutral {k : KrKb} {w : Working} (hd : 0 < k.den) (hk : k.kr + k.kb ≠ k.den)
    (hw : 0 < w.yn.den ∧ 0 < w.pb.den ∧ 0 < w.pr.den) (hb : w.pb.num = 0) (hr : w.pr.num = 0) :
    (nclR k w).val = w.yn.val ∧ (nclG k w).val = w.yn.val ∧ (nclB k w).val = w.yn.val := by
  obtain ⟨-, hR, hG, hB⟩ := ncl_vals k w hd hk hw
  have hpb : w.pb.val = 0 := by simp [Frac.val, hb]
  have hpr : w.pr.val = 0 := by simp [Frac.val, hr]
  have hkg : (1 : ℚ) - k.kr / k.den - k.kb / k.den ≠ 0 := by
    have hd' : (k.den : ℚ) ≠ 0 := by exact_mod_cast hd.ne'
    have hk' : (k.kr : ℚ) + k.kb ≠ k.den := by exact_mod_cast hk
    rw [sub_sub, ← add_div, sub_ne_zero]
    exact fun h => hk' ((div_eq_one_iff_eq hd').1 h.symm)
  rw [hR, hG, hB, hpb, hpr]
  refine ⟨by ring, ?_, by ring⟩
  rw [div_eq_iff hkg]
  ring

theorem quantize_neutral (m : Nat) {k : KrKb} {w : Working} (hd : 0 < k.den) (hk : k.kr + k.kb ≠ k.den)
    (hw : 0 < w.yn.den ∧ 0 < w.pb.den ∧ 0 < w.pr.den) (hb : w.pb.num = 0) (hr : w.pr.num = 0) :
    (⟨quantize m (nclR k w), quantize m (nclG k w), quantize m (nclB k w)⟩ : Rgb) =
      ⟨quantize m w.yn, quantize m w.yn, quantize m w.yn⟩ := by
  obtain ⟨⟨dR, dG, dB⟩, -⟩ := ncl_vals k w hd hk hw
  obtain ⟨vR, vG, vB⟩ := ncl_vals_neutral hd hk hw hb hr
  obtain ⟨dY, -⟩ := hw
  rw [quantize_congr m dR dY.ne' vR, quantize_congr m dG dY.ne' vG, quantize_congr m dB dY.ne' vB]

/-- The neutral chroma value is inside the input range, so the clamp leaves it (R96). -/
theorem clampIn_neutral (n y : Nat) (hn : 0 < n) :
    clampIn n ⟨y, 2 ^ (n - 1), 2 ^ (n - 1)⟩ = ⟨min y (mIn n), 2 ^ (n - 1), 2 ^ (n - 1)⟩ := by
  have hle : 2 ^ (n - 1) ≤ mIn n := Nat.le_sub_one_of_lt (Nat.pow_lt_pow_right (by decide) (by omega))
  rw [clampIn, min_eq_left hle]

theorem denormFull_neutral (n y : Nat) (hn : 0 < n) :
    (denormFull n (clampIn n ⟨y, 2 ^ (n - 1), 2 ^ (n - 1)⟩)).pb.num = 0 ∧
      (denormFull n (clampIn n ⟨y, 2 ^ (n - 1), 2 ^ (n - 1)⟩)).pr.num = 0 := by
  rw [clampIn_neutral n y hn]
  simp [denormFull]

theorem denormLimited_neutral (n y : Nat) (hn : 8 ≤ n) :
    (denormLimited n (clampIn n ⟨y, 2 ^ (n - 1), 2 ^ (n - 1)⟩)).pb.num = 0 ∧
      (denormLimited n (clampIn n ⟨y, 2 ^ (n - 1), 2 ^ (n - 1)⟩)).pr.num = 0 := by
  have hmid : 2 ^ (n - 1) = 128 * 2 ^ (n - 8) := by rw [show n - 1 = 7 + (n - 8) by omega, pow_add]; rfl
  rw [clampIn_neutral n y (by omega), hmid]
  simp [denormLimited]

/-- At neutral chroma CSC_REF depends on no matrix (R107). -/
theorem cscRef_neutral (n : Nat) (range : ColorRange) {k : KrKb} (y : Nat) (hn : 8 ≤ n) (hd : 0 < k.den)
    (hk : k.kr + k.kb ≠ k.den) :
    cscRef n range (.ncl k) ⟨y, 2 ^ (n - 1), 2 ^ (n - 1)⟩ =
      cscRef n range .identity ⟨y, 2 ^ (n - 1), 2 ^ (n - 1)⟩ := by
  obtain ⟨hden, -⟩ := working_vals n range ⟨y, 2 ^ (n - 1), 2 ^ (n - 1)⟩ hn
  cases range with
  | full =>
    obtain ⟨hb, hr⟩ := denormFull_neutral n y (by omega)
    exact quantize_neutral (mOut n) hd hk hden hb hr
  | limited =>
    obtain ⟨hb, hr⟩ := denormLimited_neutral n y hn
    exact quantize_neutral (mOut n) hd hk hden hb hr

/-- Full range at 8 bits puts out the input code. -/
theorem quantize_full8 {y : Nat} (h : y < 256) : quantize 255 ⟨y, 255⟩ = y := by
  have hfloor : Int.fdiv (2 * (y : Int) * 255 + 255) (2 * 255) = y := by
    rw [Int.fdiv_eq_ediv_of_nonneg _ (by decide)]; omega
  show (min (max (Int.fdiv (2 * (y : Int) * 255 + 255) (2 * 255)) 0) 255).toNat = y
  rw [hfloor]
  omega

theorem cscRef_identityFull8 {t : Yuv} (h : t.y < 256) : cscRef 8 .full .identity t = ⟨t.y, t.y, t.y⟩ := by
  have hclamp : (clampIn 8 t).y = t.y := min_eq_left (Nat.le_of_lt_succ h)
  have hq : quantize (mOut 8) (denormFull 8 (clampIn 8 t)).yn = t.y := by
    rw [denormFull, hclamp]; exact quantize_full8 h
  simp only [cscRef, hq]

/-- At neutral chroma and 8-bit Full CSC_REF puts out the luma code on every channel; P3 is two cases of it. -/
theorem cscRef_full8_neutral {k : KrKb} {y : Nat} (hd : 0 < k.den) (hk : k.kr + k.kb ≠ k.den) (hy : y < 256) :
    cscRef 8 .full (.ncl k) ⟨y, 128, 128⟩ = ⟨y, y, y⟩ :=
  (cscRef_neutral 8 .full y le_rfl hd hk).trans (cscRef_identityFull8 hy)

/-! ### The properties of every admitted CSC (R104) -/

theorem csc_white_black {p : Params} (hw : p.wf = true) {mx : Matrix} (hm : matrixOf p 1 = some mx) :
    csc p 8 .full 1 mx ⟨255, 128, 128⟩ = ⟨255, 255, 255⟩ ∧ csc p 8 .full 1 mx ⟨0, 128, 128⟩ = ⟨0, 0, 0⟩ := by
  obtain ⟨k, hmem, -, rfl⟩ := matrixOf_ncl hm one_ne_zero
  obtain ⟨hd, hk⟩ := krkb_ok_of_wf hw hmem
  exact ⟨csc_property (· = ⟨255, 255, 255⟩) hw (fun _ => cscRow_white) (cscRef_full8_neutral hd hk (by decide)),
    csc_property (· = ⟨0, 0, 0⟩) hw (fun _ => cscRow_black) (cscRef_full8_neutral hd hk (by decide))⟩

theorem csc_identity {p : Params} (hw : p.wf = true) {mx : Matrix} (hm : matrixOf p 0 = some mx) (n : Nat)
    (range : ColorRange) (t : Yuv) :
    (csc p n range 0 mx t).r = (csc p n range 0 mx t).g ∧ (csc p n range 0 mx t).g = (csc p n range 0 mx t).b := by
  obtain rfl := matrixOf_zero hm
  exact csc_property (fun o => o.r = o.g ∧ o.g = o.b) hw (fun _ => cscRow_identity) ⟨rfl, rfl⟩

theorem csc_identityFull8 {p : Params} (hw : p.wf = true) {mx : Matrix} (hm : matrixOf p 0 = some mx) {t : Yuv}
    (ht : t.y < 256) : csc p 8 .full 0 mx t = ⟨t.y, t.y, t.y⟩ := by
  obtain rfl := matrixOf_zero hm
  exact csc_property (· = ⟨t.y, t.y, t.y⟩) hw (fun _ => cscRow_identityFull8) (cscRef_identityFull8 ht)

/-- Settles O51: a CSC value is a listed row's or CSC_REF's, and both have each of the properties. -/
theorem conversionHasProperties : Obligations.ConversionHasProperties := by
  refine ⟨fun p n range mc mx t => ?_, rfl, fun p hw => ⟨csc_le hw, fun mx hm => csc_white_black hw hm,
    fun n range mx t hm => csc_identity hw hm n range t, fun mx t hm ht => csc_identityFull8 hw hm ht⟩⟩
  simp only [← cscRowAt_iff]
  exact ⟨csc_of_unlisted mx, csc_of_listed mx⟩

end Sys2Proof.Machine
end

section
/-! PROOFS. The invariant along every step (R19, R20, R31, R34, R36, R37, R43): what the end of a command, the host's
action and the block's turn do to it. -/

namespace Sys2Proof.Machine

/-! ### Updates that touch no flag and no word in flight -/

/-- The invariant sees neither CTRL nor `draws`, `readData` and `agenda`; of a new memory and new configuration
registers it asks only its own clauses. -/
theorem Inv.update {s t : State} (hI : Inv s)
    (ht : t = { s with
      ctrl := t.ctrl, cfg := t.cfg, mem := t.mem, draws := t.draws, readData := t.readData, agenda := t.agenda })
    (hwf : t.mem.wf = true) (hbelow : t.mem.below (memSize s.params) = true) (hcfg : t.cfg.stored s.params) :
    Inv t := by
  rw [ht]
  exact ⟨hwf, hbelow, hI.busyInFlight, hI.inFlightIsCmd, hI.noStage, hI.busyClean, hI.oneOutcome, hI.errClear,
    hI.errSet, hI.taintedBusy, hcfg, hI.paramsOk⟩

/-- CTRL, `draws` and `readData` are free of the invariant. -/
theorem Inv.update_unseen {s : State} (hI : Inv s) (c : Ctrl) (d : Nat) (r : Word) :
    Inv { s with ctrl := c, draws := d, readData := r } :=
  hI.update rfl hI.memCanonical hI.memInside hI.stored

theorem scramble_keeps_inv {s : State} {p : Plan} (hI : Inv s) (hp : p.WritesBelow (memSize s.params)) :
    Inv (s.scramble p) := by
  obtain ⟨hwf, hbelow⟩ := scramble_inv hI.memCanonical hI.memInside hp
  exact hI.update rfl hwf hbelow hI.stored

/-! ### The end of a command in flight -/

/-- While a word is in flight no outcome stands (R139). -/
theorem Inv.running {s : State} (hI : Inv s) (hcur : s.cur.isSome = true) :
    s.status.done = false ∧ s.status.err = false :=
  hI.busyClean (hI.busyInFlight.trans hcur)

/-- Completion sets DONE where no error stands (R141). -/
theorem complete_inv {s : State} (hI : Inv s) (hcur : s.cur.isSome = true) : Inv s.complete := by
  obtain ⟨-, herr⟩ := hI.running hcur
  obtain ⟨hcode, hstage, hinfo⟩ := hI.errClear herr
  exact inv_end hI hI.memCanonical hI.memInside rfl rfl rfl rfl rfl rfl hI.stored
    (.inl ⟨rfl, herr, hcode, hstage, hinfo⟩)

/-- An error that names a code and a stage is raised where DONE is 0 (R147). -/
theorem raise_inv {s : State} {e : Err} (hI : Inv s) (hcur : s.cur.isSome = true) (hcode : e.code ≠ .none)
    (hstage : e.stage ≠ .none) : Inv (s.raise e) := by
  obtain ⟨hdone, -⟩ := hI.running hcur
  exact inv_end hI hI.memCanonical hI.memInside rfl rfl rfl rfl rfl rfl hI.stored
    (.inr ⟨hdone, rfl, hcode, hstage⟩)

/-- MEM_FAULT is the raising of an error once the written regions are scrambled (R153). -/
theorem memFault_eq_raise (s : State) (p : Plan) (k : StageCode) (bad : List Nat) :
    s.memFault p k bad = (s.scramble p).raise ⟨.memFault, k, BitVec.ofNat 32 (pickRefused s.draws bad)⟩ := rfl

/-- The stages that ran, or the free draw of a disturbed command, keep memory canonical and inside (R43, R52). -/
theorem commit_inv {i : Instr} {s : State} {p : Plan} {m : Memory} (hI : Inv s) (hp : planOf i s = .ok p)
    (hm : runPasses s.params p.passes s.mem = .ok m) : Inv (s.commit p m) := by
  have hmem : (s.commit p m).mem.wf = true ∧ (s.commit p m).mem.below (memSize s.params) = true := by
    cases ht : s.tainted with
    | true =>
      rw [State.commit_mem_tainted ht]
      exact scramble_inv hI.memCanonical hI.memInside (planOf_writesBelow hp)
    | false =>
      rw [State.commit_mem_clean ht]
      exact ⟨runPasses_wf hm hI.memCanonical, runPasses_below hm hI.memInside fun q hq m' c hc =>
        planOf_writesBelow hp _ (planOf_storesInside hp q hq m' c hc)⟩
  obtain ⟨hwf, hbelow⟩ := hmem
  refine hI.update ?_ hwf hbelow (State.commit_cfg s p m ▸ withKinds_stored hI.stored)
  unfold State.commit; dsimp only; split <;> rfl

/-! ### The stages of a plan have names -/

theorem frameColorPasses_stage {s : State} {mc : Nat} {mx : Matrix} :
    ∀ q ∈ frameColorPasses s mc mx, q.stage ≠ .none := by
  unfold frameColorPasses
  split
  · simp [colorGrayPass, grayPass]
  · simp [convertPasses]

/-- No stage of a command is the stage of no error (R149, R153). -/
theorem planOf_stage {i : Instr} {s : State} {p : Plan} (h : planOf i s = .ok p) :
    ∀ q ∈ p.passes, q.stage ≠ .none := by
  cases i with
  | nop => cases h; simp [planNop]
  | upsample =>
    obtain ⟨-, _, -, -, rfl⟩ := planUpsample_ok_iff.1 h
    simp [upsamplePass]
  | convert =>
    obtain ⟨-, _, -, _, -, -, rfl⟩ := planConvert_ok_iff.1 h
    simp [convertPasses]
  | convertGray =>
    obtain ⟨-, _, -, -, rfl⟩ := planConvertGray_ok_iff.1 h
    simp [colorGrayPass, grayPass]
  | extractAlpha =>
    obtain ⟨-, _, -, -, rfl⟩ := planExtractAlpha_ok_iff.1 h
    simp [alphaPass, grayPass]
  | composite a =>
    cases a with
    | false =>
      obtain ⟨_, -, -, rfl⟩ := planCopy_ok_iff.1 h
      simp [copyPass]
    | true =>
      obtain ⟨_, -, _, -, -, _, -, -, rfl⟩ := planBlend_ok_iff.1 h
      simp [blendPass]
  | unpremultiply =>
    obtain ⟨_, -, -, rfl⟩ := planUnpremultiply_ok_iff.1 h
    simp [unpremulPass]
  | frame a pm =>
    cases a with
    | false =>
      obtain ⟨-, _, -, -, rfl⟩ := planFramePlain_ok_iff.1 h
      exact List.forall_mem_append.2 ⟨frameColorPasses_stage, by simp [copyPass]⟩
    | true =>
      obtain ⟨-, -, _, -, _, -, -, _, -, -, rfl⟩ := planFrameAlpha_ok_iff.1 h
      refine List.forall_mem_append.2 ⟨List.forall_mem_append.2 ⟨List.forall_mem_append.2
        ⟨by simp [alphaPass, grayPass], frameColorPasses_stage⟩, by simp [blendPass]⟩, ?_⟩
      cases pm <;> simp [unpremulPass]

/-! ### The block's turn -/

/-- The execution step of a command in flight, however it ends. -/
theorem exec_inv {i : Instr} {s t : State} (hI : Inv s) (hcur : s.cur.isSome = true) (h : exec i s = .next t) :
    Inv t := by
  by_cases hi : i = .nop
  · subst hi; cases h; exact complete_inv hI hcur
  · rw [exec_eq_runPlan hi] at h
    obtain ⟨e, he, rfl⟩ | ⟨p, hp, -, ⟨k, bad, hbad, rfl⟩ | ⟨m, hm, rfl⟩⟩ := runPlan_next h
    · obtain ⟨-, hcode, hstage, -⟩ := planOf_error he
      exact raise_inv hI hcur hcode hstage
    · obtain ⟨-, q, hq, rfl, -⟩ := runPasses_error hbad
      rw [memFault_eq_raise]
      exact raise_inv (scramble_keeps_inv hI (planOf_writesBelow hp)) hcur ErrCode.noConfusion (planOf_stage hp q hq)
    · exact complete_inv (commit_inv hI hp hm) ((congrArg _ (State.commit_cur s p m)).trans hcur)

theorem blockTurn_inv {s t : State} (hI : Inv s) (h : blockTurn s = .next t) : Inv t := by
  unfold blockTurn at h
  split at h
  · cases h; exact hI
  · next w hw =>
    have hcur : s.cur.isSome = true := Option.isSome_iff_exists.2 ⟨w, hw⟩
    split at h
    · cases h; exact raise_inv hI hcur ErrCode.noConfusion StageCode.noConfusion
    · exact exec_inv hI hcur h

/-! ### The host's turn -/

theorem writeCtrl_inv {s : State} (hI : Inv s) (v : Word) : Inv (writeCtrl v s) := by
  unfold writeCtrl
  split
  · exact doReset_inv hI
  · exact hI.update_unseen _ s.draws s.readData

theorem writeCmd_inv {s t : State} {v : Word} (hI : Inv s) (h : writeCmd v s = .next t) : Inv t := by
  unfold writeCmd at h
  split at h
  · cases h; exact setOvr_inv hI
  · split at h
    · cases h
    · cases h; exact accept_inv hI v

theorem writePlain_inv {s : State} (hI : Inv s) (r : Reg) (v : Word) : Inv (writePlain r v s) := by
  unfold writePlain
  split
  · exact hI
  · next c hc =>
    split
    · exact setOvr_inv hI
    · exact hI.update rfl hI.memCanonical hI.memInside (writeConfig_stored hI.stored hc)

theorem writeReg_inv {s t : State} {r : Reg} {v : Word} (hI : Inv s) (h : writeReg r v s = .next t) : Inv t := by
  unfold writeReg at h
  split at h
  · cases h; exact writeCtrl_inv hI v
  · cases h; exact writeStatus_inv hI v
  · exact writeCmd_inv hI h
  · cases h; exact writePlain_inv hI r v

theorem hostRegWrite_inv {s t : State} {addr bytes : Nat} {v : Word} (hI : Inv s)
    (h : hostRegWrite addr bytes v s = .next t) : Inv t := by
  unfold hostRegWrite at h
  split at h
  · cases h
  · split at h
    · cases h
    · split at h
      · cases h; exact hI
      · exact writeReg_inv hI h

/-- A read of a register changes nothing but `readData` (R34). -/
theorem hostRegRead_next {s t : State} {addr bytes : Nat} (h : hostRegRead addr bytes s = .next t) :
    t = { s with readData := t.readData } := by
  unfold hostRegRead at h
  split at h
  · cases h
  · split at h
    · cases h
    · split at h <;> cases h <;> rfl

/-- A load of memory changes nothing but `readData` and `draws` (R59). -/
theorem hostMemRead_next {s t : State} {a : Nat} (h : hostMemRead a s = .next t) :
    t = { s with readData := t.readData, draws := t.draws } := by
  unfold hostMemRead at h
  split at h
  · cases h
  · cases h
  · split at h <;> cases h <;> rfl

/-- A store that answers is one to a byte that exists (R43), and is recorded where the byte is in use (R171). -/
theorem hostMemWrite_next {s t : State} {a : Nat} {v : Byte} (h : hostMemWrite a v s = .next t) :
    a < memSize s.params ∧ t = { s with mem := s.mem.write a v, tainted := s.tainted || s.inUse a } := by
  unfold hostMemWrite at h
  split at h
  · cases h
  · cases h
  · next hstop =>
    cases h
    refine ⟨?_, rfl⟩
    by_contra hout
    rw [hostMemStop, if_pos (not_lt.1 hout)] at hstop
    cases hstop

/-- Only a word in flight has bytes in use (R171). -/
theorem State.cur_isSome_of_inUse {s : State} {a : Nat} (h : s.inUse a = true) : s.cur.isSome = true := by
  unfold State.inUse State.inFlight at h
  cases hcur : s.cur with
  | none => rw [hcur] at h; cases h
  | some w => rfl

theorem hostMemWrite_inv {s t : State} {a : Nat} {v : Byte} (hI : Inv s) (h : hostMemWrite a v s = .next t) :
    Inv t := by
  obtain ⟨ha, rfl⟩ := hostMemWrite_next h
  have hmem : Inv { s with mem := s.mem.write a v } :=
    hI.update rfl (Memory.wf_write a v hI.memCanonical) (Memory.below_write v hI.memInside ha) hI.stored
  refine { hmem with taintedBusy := fun ht => ?_ }
  obtain ht | huse := (Bool.or_eq_true _ _).mp ht
  · exact hI.taintedBusy ht
  · exact hI.busyInFlight.trans (State.cur_isSome_of_inUse huse)

theorem hostTurn_inv {op : HostOp} {s t : State} (hI : Inv s) (h : hostTurn op s = .next t) : Inv t := by
  cases op with
  | regWrite addr bytes v => exact hostRegWrite_inv hI h
  | regRead addr bytes =>
    rw [hostRegRead_next h]
    exact hI.update_unseen s.ctrl s.draws _
  | memWrite a v => exact hostMemWrite_inv hI h
  | memRead a =>
    rw [hostMemRead_next h]
    exact hI.update_unseen s.ctrl _ _
  | hardReset => cases h; exact doReset_inv hI

/-! ### Every step -/

/-- Settles O58: taking a turn off the agenda keeps the invariant, and so does either agent's turn. -/
theorem stepKeepsInvariant : Obligations.StepKeepsInvariant := by
  intro s t hI h
  obtain hblock | ⟨op, hhost⟩ := step_cases s
  · exact blockTurn_inv (popTurn_inv hI) (hblock ▸ h)
  · exact hostTurn_inv (popTurn_inv hI) (hhost ▸ h)

end Sys2Proof.Machine
end

section
/-! PROOFS. The turns of a step (R138, R168), and the register file as the host writes and reads it (R21 to R30, R34,
R35). -/

namespace Sys2Proof.Machine

/-! ### Turns -/

/-- With no word in flight the block is idle (R168). -/
theorem blockTurn_idle {s : State} (h : s.cur = none) : blockTurn s = .next s := by
  unfold blockTurn; rw [h]

/-- Settles O5: a host turn is its action, a block's turn with nothing in flight is idle, each off the agenda. -/
theorem stepTakesHostTurnOrIdles : Obligations.StepTakesHostTurnOrIdles := by
  refine fun s => ⟨fun op rest h => ?_, fun hcur h => ?_⟩
  · rw [step_host h, State.popTurn, h, List.tail_cons]
  · rw [step_block h]
    exact blockTurn_idle hcur

/-! ### Writes, register by register -/

/-- The registers that store a configuration are those at offsets 0x010 to 0x054 (10_state.md section 3). -/
theorem writeConfig_isSome (p : Params) (r : Reg) (v : Word) (c : ConfigRegs) :
    (writeConfig p r v c).isSome = decide (0x010 ≤ r.offset ∧ r.offset ≤ 0x054) := by
  cases r <;> rfl

theorem exists_writeConfig {r : Reg} (hlo : 0x010 ≤ r.offset) (hhi : r.offset ≤ 0x054) (p : Params) (v : Word)
    (c : ConfigRegs) : ∃ c', writeConfig p r v c = some c' := by
  rw [← Option.isSome_iff_exists, writeConfig_isSome]
  exact decide_eq_true ⟨hlo, hhi⟩

/-- A configuration register stores while BUSY = 0, and sets OVR instead while BUSY = 1 (R35). -/
theorem writeReg_config {s : State} {r : Reg} {v : Word} {c : ConfigRegs}
    (h : writeConfig s.params r v s.cfg = some c) :
    writeReg r v s = .next (if s.status.busy then s.setOvr else { s with cfg := c }) := by
  unfold writeReg
  split
  · cases h
  · cases h
  · cases h
  · rw [writePlain, h]

theorem writeCmd_busy {s : State} (h : s.status.busy = true) (v : Word) : writeCmd v s = .next s.setOvr :=
  if_pos h

theorem writeCtrl_reset {v : Word} (h : v.getLsbD 31 = true) (s : State) : writeCtrl v s = s.doReset := if_pos h

theorem writeCtrl_enables {v : Word} (h : v.getLsbD 31 = false) (s : State) :
    writeCtrl v s = { s with ctrl := ⟨v.getLsbD 0, v.getLsbD 1⟩ } :=
  if_neg (ne_true_of_eq_false h)

/-- Settles O9: each write goes to its register, CMD and configuration registers answering BUSY with OVR. -/
theorem writesWhileBusySetOvr : Obligations.WritesWhileBusySetOvr := by
  intro s v hbusy
  refine ⟨fun r hr => ?_, regWrite_eq s .status v, fun h31 => ?_, fun h31 => ?_⟩
  · rw [regWrite_eq]
    obtain rfl | ⟨hlo, hhi⟩ := hr
    · exact writeCmd_busy hbusy v
    · obtain ⟨c, hc⟩ := exists_writeConfig hlo hhi s.params v s.cfg
      rw [writeReg_config hc, if_pos hbusy]
      rfl
  · rw [← writeCtrl_enables h31]
    exact regWrite_eq s .ctrl v
  · rw [← writeCtrl_reset h31 s]
    exact regWrite_eq s .ctrl v

/-! ### Access forms -/

theorem inWindow_offset {p : Params} {off : Nat} (h : off < 4096) : inWindow p (p.csrBase + off) = true := by
  simp [inWindow, h]

/-- The one form of a register access (R34). -/
theorem accessForm_offset (p : Params) (off bytes : Nat) :
    accessForm p (p.csrBase + off) bytes = true ↔ bytes = 4 ∧ off % 4 = 0 := by
  simp [accessForm]

theorem hostRegAccess_refused {s : State} {off bytes : Nat} (hoff : off < 4096) (h : bytes ≠ 4 ∨ off % 4 ≠ 0)
    (v : Word) :
    hostRegRead (s.params.csrBase + off) bytes s = .refused .registerAccessForm ∧
      hostRegWrite (s.params.csrBase + off) bytes v s = .refused .registerAccessForm := by
  have hform : accessForm s.params (s.params.csrBase + off) bytes = false := by
    rw [← Bool.not_eq_true, accessForm_offset]
    tauto
  simp [hostRegRead, hostRegWrite, inWindow_offset hoff, hform]

theorem offset_not_reserved (r : Reg) : r.offset ≠ 0x02C ∧ r.offset < 0x064 := by cases r <;> decide

/-- No register stands at a reserved offset (R34). -/
theorem regAt_reserved {off : Nat} (h : off = 0x02C ∨ 0x064 ≤ off) : regAt off = none := by
  refine List.find?_eq_none.2 fun r _ hr => ?_
  obtain ⟨hne, hlt⟩ := offset_not_reserved r
  have heq : r.offset = off := by simpa using hr
  omega

theorem hostRegAccess_reserved {s : State} {off : Nat} (hoff : off < 4096) (halign : off % 4 = 0)
    (h : regAt off = none) (v : Word) :
    hostRegRead (s.params.csrBase + off) 4 s = .next { s with readData := 0 } ∧
      hostRegWrite (s.params.csrBase + off) 4 v s = .next s := by
  have hform := (accessForm_offset s.params off 4).2 ⟨rfl, halign⟩
  simp [hostRegRead, hostRegWrite, inWindow_offset hoff, hform, h]

/-- Settles O10: an offset of the window is of the wrong form, reserved, or a register's. -/
theorem registerAccessForms : Obligations.RegisterAccessForms := fun s _ _ v hoff =>
  ⟨fun hform => hostRegAccess_refused hoff hform v,
    fun halign hres => hostRegAccess_reserved hoff halign (regAt_reserved hres) v, regRead_eq s⟩

/-! ### What a configuration register stores -/

/-- A base register keeps ADDR_W bits (R23). -/
theorem baseMask_toNat (p : Params) (v : Word) : (baseMask p v).toNat = v.toNat % 2 ^ p.addrW := by
  rw [baseMask, BitVec.toNat_ofNat]
  exact Nat.mod_eq_of_lt ((Nat.mod_le _ _).trans_lt v.isLt)

section ReadBack
variable {s : State} {r : Reg} {v : Word} {c : ConfigRegs} (h : writeConfig s.params r v s.cfg = some c)
include h

/-- A write of a configuration register changes no other register: it replaces its own field of the record, and each
other register reads another field or none of it. -/
theorem readReg_config_other {q : Reg} (hq : q ≠ r) : readReg q { s with cfg := c } = readReg q s := by
  cases r <;> cases h <;> cases q <;> simp [readReg] at hq ⊢

theorem readReg_format_written (hr : r = .cFmt ∨ r = .aFmt) : readReg r { s with cfg := c } = v &&& 0x001F0FFF := by
  obtain rfl | rfl := hr <;> cases h <;> rfl

theorem readReg_kind_written (hr : r = .cimgKind ∨ r = .aimgKind ∨ r = .outKind) :
    readReg r { s with cfg := c } = v &&& 0x00000007 := by
  obtain rfl | rfl | rfl := hr <;> cases h <;> rfl

theorem readReg_plain_written (hr : r = .cDim ∨ r = .aDim ∨ r = .cYStride ∨ r = .cCStride ∨ r = .aYStride) :
    readReg r { s with cfg := c } = v := by
  obtain rfl | rfl | rfl | rfl | rfl := hr <;> cases h <;> rfl

theorem readReg_base_written (hr : r = .cYBase ∨ r = .cUBase ∨ r = .cVBase ∨ r = .aYBase ∨ r = .cimgBase ∨
    r = .aimgBase ∨ r = .outBase) : (readReg r { s with cfg := c }).toNat = v.toNat % 2 ^ s.params.addrW := by
  obtain rfl | rfl | rfl | rfl | rfl | rfl | rfl := hr <;> cases h <;> exact baseMask_toNat s.params v

end ReadBack

/-- Settles O11: the fields are those of the definitions, and a write reads back as its class of register stores. -/
theorem configWritesReadBack : Obligations.ConfigWritesReadBack := by
  refine ⟨fun s => ?_, ⟨fun s => ⟨rfl, rfl⟩, by decide⟩, ⟨fun _ => rfl, by decide⟩, fun s v r hbusy hlo hhi => ?_⟩
  · exact ⟨rfl, rfl, rfl, rfl, rfl, rfl, rfl, rfl, rfl, rfl, rfl, rfl, rfl, rfl, rfl, rfl, rfl⟩
  · obtain ⟨c, hc⟩ := exists_writeConfig hlo hhi s.params v s.cfg
    refine ⟨{ s with cfg := c }, ?_, rfl, fun _ => readReg_config_other hc, readReg_format_written hc,
      readReg_kind_written hc, readReg_plain_written hc, readReg_base_written hc⟩
    rw [regWrite_eq, writeReg_config hc, hbusy]
    rfl

end Sys2Proof.Machine
end

section
/-! PROOFS. What the capability, STATUS and CTRL words hold, field by field (R17 to R19, R32, R33), and the
interrupt line (R38, R156). -/

namespace Sys2Proof.Machine

/-! ### Fields of a word -/

section Fields
variable {w : Word} {k n : Nat}

theorem getLsbD_of_toNat {b : Bool} (h : w.toNat / 2 ^ k % 2 = b.toNat) : w.getLsbD k = b := by
  rw [BitVec.getLsbD, Nat.testBit_eq_decide_div_mod_eq, h]
  cases b <;> rfl

theorem extractLsb'_toNat_eq : (w.extractLsb' k n).toNat = w.toNat / 2 ^ k % 2 ^ n := by
  rw [BitVec.extractLsb'_toNat, Nat.shiftRight_eq_div_pow]

theorem extractLsb'_eq_zero (h : w.toNat / 2 ^ k % 2 ^ n = 0) : w.extractLsb' k n = 0 :=
  BitVec.eq_of_toNat_eq (by rw [extractLsb'_toNat_eq, h]; rfl)

end Fields

/-! ### ID, CAPS and MC_CAPS -/

/-- CAPS as a number: the byte order, and ADDR_W from bit 8 on (R32). -/
theorem capsWord_toNat {p : Params} (hw : p.wf = true) :
    (capsWord p).toNat = (decide (p.endian = .be)).toNat + 256 * p.addrW ∧ p.addrW ≤ 32 := by
  simp only [Params.wf, Params.addrWOk, Bool.and_eq_true, decide_eq_true_eq] at hw
  obtain ⟨⟨⟨-, hle⟩, -⟩, -⟩ := hw
  refine ⟨?_, hle⟩
  rw [capsWord, BitVec.toNat_ofNat]
  cases p.endian <;> simp <;> omega

/-- The number whose bit i, below `n`, is `f i`: what MC_CAPS is made of (R33). -/
def bitSum (f : Nat → Bool) (n : Nat) : Nat :=
  (List.range n).foldl (fun acc i => if f i then acc + 2 ^ i else acc) 0

theorem mcCapsWord_eq (p : Params) : mcCapsWord p = BitVec.ofNat 32 (bitSum (mcSupported p) 32) := rfl

theorem bitSum_succ (f : Nat → Bool) (n : Nat) :
    bitSum f (n + 1) = if f n then bitSum f n + 2 ^ n else bitSum f n := by
  simp [bitSum, List.range_succ]

theorem bitSum_lt (f : Nat → Bool) (n : Nat) : bitSum f n < 2 ^ n := by
  induction n with
  | zero => exact Nat.one_pos
  | succ n ih => rw [bitSum_succ, pow_succ]; split <;> omega

theorem testBit_bitSum (f : Nat → Bool) {n i : Nat} (h : i < n) : (bitSum f n).testBit i = f i := by
  induction n with
  | zero => omega
  | succ n ih =>
    rw [bitSum_succ]
    obtain hlt | rfl := Nat.lt_succ_iff_lt_or_eq.1 h
    · split
      · rw [Nat.add_comm, Nat.testBit_two_pow_add_gt hlt, ih hlt]
      · exact ih hlt
    · have hnew := Nat.testBit_lt_two_pow (bitSum_lt f i)
      split
      · next hf => rw [Nat.add_comm, Nat.testBit_two_pow_add_eq, hnew, hf]; rfl
      · next hf => rw [hnew, Bool.eq_false_of_not_eq_true hf]

theorem mcCapsWord_bit (p : Params) {i : Nat} (h : i < 32) : (mcCapsWord p).getLsbD i = mcSupported p i := by
  rw [mcCapsWord_eq, BitVec.getLsbD_ofNat, testBit_bitSum _ h, decide_eq_true h, Bool.true_and]

/-- No code from 32 up is supported (R33). -/
theorem mcSupported_ge (p : Params) {i : Nat} (h : 32 ≤ i) : mcSupported p i = false := by
  rw [mcSupported, matrixOf, if_neg (by omega), if_neg (by omega)]
  rfl

/-- The four read-only registers ignore a write (10_state.md section 3). -/
theorem writeReg_readOnly {r : Reg} (h : r = .id ∨ r = .caps ∨ r = .mcCaps ∨ r = .errInfo) (v : Word) (s : State) :
    writeReg r v s = .next s := by
  obtain rfl | rfl | rfl | rfl := h <;> rfl

/-- Settles O12: CAPS field by field from its number, MC_CAPS bit by bit. -/
theorem capabilityRegisters : Obligations.CapabilityRegisters := by
  intro s hw
  obtain ⟨hcaps, hle⟩ := capsWord_toNat hw
  have hb := Bool.toNat_le (decide (s.params.endian = .be))
  refine ⟨rfl, getLsbD_of_toNat ?_, ?_, extractLsb'_eq_zero ?_, extractLsb'_eq_zero ?_,
    fun i => mcCapsWord_bit s.params, fun i => mcSupported_ge s.params, fun hdefault => ?_, fun v r hr => ?_⟩
  · rw [readReg, hcaps]; omega
  · rw [extractLsb'_toNat_eq, readReg, hcaps]; omega
  · rw [readReg, hcaps]; omega
  · rw [readReg, hcaps]; omega
  · rw [readReg, readReg, hdefault]
    decide
  · rw [regWrite_eq, writeReg_readOnly hr]

/-! ### STATUS and CTRL -/

theorem ErrCode.code_le (c : ErrCode) : c.code ≤ 10 := by cases c <;> decide

theorem StageCode.code_le (k : StageCode) : k.code ≤ 6 := by cases k <;> decide

theorem Status.word_toNat (t : Status) : t.word.toNat =
    t.busy.toNat + 2 * t.done.toNat + 4 * t.err.toNat + 8 * t.ovr.toNat + 256 * t.errCode.code +
      4096 * t.errStage.code := by
  have := t.busy.toNat_le; have := t.done.toNat_le; have := t.err.toNat_le; have := t.ovr.toNat_le
  have := t.errCode.code_le; have := t.errStage.code_le
  rw [Status.word, BitVec.toNat_ofNat]
  omega

theorem Ctrl.word_toNat (c : Ctrl) : c.word.toNat = c.ieDone.toNat + 2 * c.ieErr.toNat := by
  have := c.ieDone.toNat_le; have := c.ieErr.toNat_le
  rw [Ctrl.word, BitVec.toNat_ofNat]
  omega

/-- The fields of the STATUS word (R19). -/
theorem Status.word_fields (t : Status) :
    t.word.getLsbD 0 = t.busy ∧ t.word.getLsbD 1 = t.done ∧ t.word.getLsbD 2 = t.err ∧ t.word.getLsbD 3 = t.ovr ∧
    t.word.extractLsb' 4 4 = 0 ∧ (t.word.extractLsb' 8 4).toNat = t.errCode.code ∧
    (t.word.extractLsb' 12 3).toNat = t.errStage.code ∧ t.word.extractLsb' 15 17 = 0 := by
  have := t.busy.toNat_le; have := t.done.toNat_le; have := t.err.toNat_le; have := t.ovr.toNat_le
  have := t.errCode.code_le; have := t.errStage.code_le
  refine ⟨getLsbD_of_toNat ?_, getLsbD_of_toNat ?_, getLsbD_of_toNat ?_, getLsbD_of_toNat ?_,
    extractLsb'_eq_zero ?_, extractLsb'_toNat_eq.trans ?_, extractLsb'_toNat_eq.trans ?_, extractLsb'_eq_zero ?_⟩ <;>
    rw [Status.word_toNat] <;> omega

/-- The fields of the CTRL word (R18). -/
theorem Ctrl.word_fields (c : Ctrl) :
    c.word.getLsbD 0 = c.ieDone ∧ c.word.getLsbD 1 = c.ieErr ∧ c.word.extractLsb' 2 30 = 0 := by
  have := c.ieDone.toNat_le; have := c.ieErr.toNat_le
  refine ⟨getLsbD_of_toNat ?_, getLsbD_of_toNat ?_, extractLsb'_eq_zero ?_⟩ <;> rw [Ctrl.word_toNat] <;> omega

/-- Settles O14: the numbers of the codes, and the fields of the two words. -/
theorem statusWordLayout : Obligations.StatusWordLayout := by
  refine ⟨by decide, by decide, fun s => ?_⟩
  obtain ⟨hbusy, hdone, herr, hovr, h4, hcode, hstage, h15⟩ := s.status.word_fields
  obtain ⟨hieDone, hieErr, h2⟩ := s.ctrl.word_fields
  exact ⟨hbusy, hdone, herr, hovr, h4, hcode, hstage, h15, hieDone, hieErr, h2, rfl, fun _ => rfl, rfl⟩

/-! ### The interrupt line -/

/-- With no flag set the line is low (R38). -/
theorem irq_no_flag {s : State} (hdone : s.status.done = false) (herr : s.status.err = false)
    (hovr : s.status.ovr = false) : irq s = false := by
  rw [irq, hdone, herr, hovr]; rfl

/-- With no enable set the line is low (R38). -/
theorem irq_no_enable {s : State} (hdone : s.ctrl.ieDone = false) (herr : s.ctrl.ieErr = false) : irq s = false := by
  rw [irq, hdone, herr, Bool.and_false, Bool.and_false]; rfl

/-- A write of STATUS touches STATUS and ERRINFO only (R19). -/
theorem State.writeStatus_frame (s : State) (v : Word) : s.writeStatus v =
    { s with status := (s.writeStatus v).status, errInfo := (s.writeStatus v).errInfo } := by
  unfold State.writeStatus; split <;> rfl

/-- Settles O13: the line is a function of flags and enables, and each way of clearing clears its own. -/
theorem interruptFollowsFlags : Obligations.InterruptFollowsFlags := by
  refine fun s v => ⟨rfl, ⟨s.writeStatus v, regWrite_eq s .status v, ?_⟩, fun h31 => ?_,
    ⟨rfl, rfl, rfl, rfl, rfl, rfl⟩, rfl, rfl, rfl⟩
  · have hst := s.writeStatus_status v
    have hinfo := s.writeStatus_errInfo v
    refine ⟨by rw [hst], by rw [hst], by rw [hst], by rw [hst], fun h2 => ?_, fun h2 => ?_, s.writeStatus_frame v,
      fun h1 h2 h3 => irq_no_flag ?_ ?_ ?_⟩
    · rw [hst, hinfo, h2]; exact ⟨rfl, rfl, rfl⟩
    · rw [hst, hinfo, h2]; exact ⟨rfl, rfl, rfl⟩
    · simp [hst, h1]
    · simp [hst, h2]
    · simp [hst, h3]
  · refine ⟨writeCtrl v s, regWrite_eq s .ctrl v, writeCtrl_enables h31 s, fun h0 h1 => ?_⟩
    rw [writeCtrl_enables h31]
    exact irq_no_enable h0 h1

end Sys2Proof.Machine
end

section
/-! PROOFS. Which steps change a configuration register (R35, R109, R113, R166). -/

namespace Sys2Proof.Machine

/-- A command leaves the configuration registers, or completes and writes kind registers (R109, R113). -/
theorem exec_cfg {i : Instr} {s t : State} (h : exec i s = .next t) :
    t.cfg = s.cfg ∨ (t.status.done = true ∧ ∃ p, t.cfg = s.cfg.withKinds p) := by
  by_cases hi : i = .nop
  · subst hi; cases h; exact .inl rfl
  · rw [exec_eq_runPlan hi] at h
    obtain ⟨e, -, rfl⟩ | ⟨p, -, -, ⟨k, bad, -, rfl⟩ | ⟨m, -, rfl⟩⟩ := runPlan_next h
    · exact .inl rfl
    · exact .inl rfl
    · exact .inr ⟨rfl, p, State.commit_cfg s p m⟩

/-- The block's turn changes a configuration register only as a command in flight completes. -/
theorem blockTurn_cfg {s t : State} (h : blockTurn s = .next t) (hc : t.cfg ≠ s.cfg) :
    s.cur.isSome = true ∧ t.status.done = true ∧ ∃ p, t.cfg = s.cfg.withKinds p := by
  unfold blockTurn at h
  split at h
  · cases h; exact absurd rfl hc
  · next w hw =>
    split at h
    · cases h; exact absurd rfl hc
    · exact ⟨Option.isSome_iff_exists.2 ⟨w, hw⟩, (exec_cfg h).resolve_left hc⟩

/-- A turn is the block's, or the host's with an action. -/
theorem turn_cases (s : State) : (s.agenda.head? = none ∨ s.agenda.head? = some .block) ∨
    ∃ op rest, s.agenda = .host op :: rest :=
  match s.agenda with
  | [] => .inl (.inl rfl)
  | .block :: _ => .inl (.inr rfl)
  | .host op :: rest => .inr ⟨op, rest, rfl⟩

/-- Settles O60: the host writes or resets, or the block completes a command. -/
theorem configRegistersAreHeld : Obligations.ConfigRegistersAreHeld := by
  intro s t h hc
  obtain hblock | ⟨op, rest, hhost⟩ := turn_cases s
  · rw [step_block hblock] at h
    obtain ⟨hcur, hdone, p, hcfg⟩ := blockTurn_cfg h hc
    exact .inr (.inr ⟨hcur, hdone, by rw [hcfg]; rfl⟩)
  · rw [step_host hhost] at h
    obtain ⟨addr, bytes, v, rfl, hwhen⟩ | rfl := hostTurn_cfg h hc
    · exact .inl ⟨addr, bytes, v, rest, hhost, hwhen⟩
    · exact .inr (.inl ⟨rest, hhost⟩)

end Sys2Proof.Machine
end

section
/-! PROOFS. Memory as the host sees it (R43, R59, R171), samples of either byte order (R44), and the refusal of
device regions (R55). -/

namespace Sys2Proof.Machine

/-! ### What a plan depends on -/

/-- The plan of a command is a function of the configuration registers and the parameters (R35, R90). -/
theorem planOf_congr {s t : State} (hcfg : s.cfg = t.cfg) (hparams : s.params = t.params) (i : Instr) :
    planOf i s = planOf i t := by
  cases s
  cases t
  cases hcfg
  cases hparams
  cases i <;> rfl

theorem planOfWord_congr {s t : State} (hcfg : s.cfg = t.cfg) (hparams : s.params = t.params) (w : Word) :
    planOfWord w s = planOfWord w t := by
  unfold planOfWord
  simp only [planOf_congr hcfg hparams]

theorem State.inWritten_congr {s t : State} (hcur : s.cur = t.cur) (hcfg : s.cfg = t.cfg)
    (hparams : s.params = t.params) (a : Nat) : s.inWritten a = t.inWritten a := by
  simp only [State.inWritten, State.inFlight, hcur, planOfWord_congr hcfg hparams]

/-! ### Samples -/

/-- Settles O20: the two orders are those of the definition, and a stored value loses only what its bytes cannot
hold. -/
theorem sampleByteOrder : Obligations.SampleByteOrder := by
  refine fun m a v => ⟨rfl, rfl, fun e => ?_, fun hv e => ?_, fun hv e => ?_⟩
  · cases e <;> rfl
  · exact (readSample_sampleCells m e .two a v).trans (Nat.mod_eq_of_lt hv)
  · exact (readSample_sampleCells m e .one a v).trans (Nat.mod_eq_of_lt hv)

/-! ### Host accesses -/

theorem hostMemStop_outside {p : Params} {a : Nat} (h : 2 ^ p.addrW ≤ a) :
    hostMemStop p a = some (.inl .addressOutsideMemory) := if_pos h

/-- The host reaches a byte that exists, that no device answers and that memory admits (R43, assumption 12). -/
theorem hostMemStop_none {p : Params} {a : Nat} (hlt : a < 2 ^ p.addrW) (hdev : deviceAt p a = false)
    (hok : memOk p a = true) : hostMemStop p a = none := by
  rw [hostMemStop, memSize, if_neg (Nat.not_le.2 hlt), hdev, hok]
  rfl

section Reached
variable {s : State} {a : Nat} (hstop : hostMemStop s.params a = none)
include hstop

theorem hostMemWrite_eq (v : Byte) : hostMemWrite a v s =
    .next { s with mem := s.mem.write a v, tainted := s.tainted || s.inUse a } := by
  rw [hostMemWrite, hstop]

/-- Outside the regions that the command in flight writes, a load answers the stored byte (R59). -/
theorem hostMemRead_stored (h : s.inWritten a = false) :
    hostMemRead a s = .next { s with readData := (s.mem.read a).setWidth 32 } := by
  rw [hostMemRead, hstop, State.writerOf_eq_none.2 h]

/-- Inside them it answers the byte the command's progress decides (R59). -/
theorem hostMemRead_written {p : Plan} (hp : s.inFlight = some p) (hw : p.writes a = true) :
    hostMemRead a s =
      .next { s with readData := (s.loadedByte p a).setWidth 32, draws := s.draws + 1 } := by
  rw [hostMemRead, hstop, State.writerOf_eq_some.2 ⟨hp, hw⟩]

end Reached

/-- Settles O19: a store is a write of memory, and a load of that byte reads the memory the store left. -/
theorem hostMemoryReadsBack : Obligations.HostMemoryReadsBack := by
  refine fun s a v => ⟨fun hout => ?_, fun hlt hdev hok => ?_⟩
  · have hstop := hostMemStop_outside hout
    exact ⟨by rw [hostTurn, hostMemWrite, hstop], by rw [hostTurn, hostMemRead, hstop]⟩
  · have hstop := hostMemStop_none hlt hdev hok
    refine ⟨_, hostMemWrite_eq hstop v, rfl, Memory.read_write_same s.mem a v,
      fun b hb => Memory.read_write_other s.mem v hb, fun hw => ⟨_, hostMemRead_stored hstop ?_, ?_⟩⟩
    · rw [← hw]
      exact State.inWritten_congr rfl rfl rfl a
    · rw [Memory.read_write_same]

/-- Settles O22: a load asks first whether the command in flight writes the byte, then what may have reached it. -/
theorem hostLoadDuringCommand : Obligations.HostLoadDuringCommand := by
  intro s a hlt hdev hok
  have hstop := hostMemStop_none hlt hdev hok
  refine ⟨hostMemRead_stored hstop, fun p hp hw => ⟨fun htaint hrun => ?_, fun hfree => ?_⟩⟩
  · obtain ⟨pre, post, m, hsplit, hpre, hbyte⟩ := State.loadedByte_eq a htaint hrun
    refine ⟨pre, post, m, hsplit, hpre, ?_⟩
    rw [← hbyte]
    exact hostMemRead_written hstop hp hw
  · rw [← State.loadedByte_free a hfree]
    exact hostMemRead_written hstop hp hw

/-! ### Device regions -/

/-- The decoder takes a command's own word back (R76). -/
theorem decode_encode (i : Instr) : decode (encode i) = .ok i := decode_fields.2 (fieldsOf_pack i.fields)

/-- The word of a command whose checks pass has the command's plan from its acceptance on (R139). -/
theorem inFlight_accept {i : Instr} {s : State} {p : Plan} (h : planOf i s = .ok p) :
    (s.accept (encode i)).inFlight = some p := by
  have hplan : planOf i (s.accept (encode i)) = .ok p := (planOf_congr rfl rfl i).trans h
  show planOfWord (encode i) _ = some p
  rw [planOfWord, decode_encode]
  exact congrArg Except.toOption hplan

/-- A command with a region is not NOP, so it runs its plan, which stops before the first access (R55). -/
theorem exec_mapsDevice {i : Instr} {s : State} {p : Plan} (h : planOf i s = .ok p)
    (hd : p.mapsDevice s.params = true) : exec i s = .refused .deviceRegion := by
  have hi : i ≠ .nop := by
    rintro rfl
    cases h
    cases hd
  rw [exec_eq_runPlan hi, h, runPlan, State.perform, if_pos hd]

theorem writeCmd_mapsDevice {i : Instr} {s : State} {p : Plan} (h : planOf i s = .ok p)
    (hd : p.mapsDevice s.params = true) (hidle : s.status.busy = false) :
    writeCmd (encode i) s = .refused .deviceRegion := by
  have hlaunch : (s.accept (encode i)).launchMapsDevice = true := by
    rw [State.launchMapsDevice, inFlight_accept h]
    exact hd
  rw [writeCmd, hidle, hlaunch]
  rfl

/-- Settles O25: a device byte in a region makes the plan one that maps a device, at launch as at execution. -/
theorem deviceRegionsAreRefused : Obligations.DeviceRegionsAreRefused := by
  intro s i p h hbyte
  have hd := Plan.mapsDevice_iff.2 hbyte
  refine ⟨exec_mapsDevice h hd, fun hidle => ?_⟩
  exact (regWrite_eq s .cmd (encode i)).trans (writeCmd_mapsDevice h hd hidle)

end Sys2Proof.Machine
end

section
/-! PROOFS. The overlap check against shared bytes of regions (R54, R151), the order of every command's regions, and
the order of the two checks (R154). -/

namespace Sys2Proof.Machine

/-! ### The overlap check -/

section Overlap
variable {bufs : List Buffer} (hsorted : bufs.Pairwise (fun b c => b.offset < c.offset))
include hsorted

/-- Two regions conflict in the order of their offsets or not at all, so it passes exactly when no written region
shares a byte with another (R54). -/
theorem checkOverlap_ok_iff_disjoint : checkOverlap bufs = .ok () ↔
    ∀ b ∈ bufs, ∀ c ∈ bufs, b.offset ≠ c.offset → b.written = true → ∀ a, ¬ (b.has a = true ∧ c.has a = true) := by
  rw [checkOverlap_ok_iff]
  constructor
  · intro hfree b hb c hc hne hw a hab
    obtain ⟨hba, hca⟩ := hab
    obtain hlt | hlt := Nat.lt_or_gt_of_ne hne
    · have hconf := hfree (b, c) ((pairsOf_mem hsorted).2 ⟨hb, hc, hlt⟩)
      exact Bool.false_ne_true (hconf.symm.trans (conflict_iff.2 ⟨.inl hw, a, hba, hca⟩))
    · have hconf := hfree (c, b) ((pairsOf_mem hsorted).2 ⟨hc, hb, hlt⟩)
      exact Bool.false_ne_true (hconf.symm.trans (conflict_iff.2 ⟨.inr hw, a, hca, hba⟩))
  · rintro hfree ⟨b, c⟩ hq
    obtain ⟨hb, hc, hlt⟩ := (pairsOf_mem hsorted).1 hq
    rw [← Bool.not_eq_true, conflict_iff]
    rintro ⟨hw | hw, a, hba, hca⟩
    · exact hfree b hb c hc (Nat.ne_of_lt hlt) hw a ⟨hba, hca⟩
    · exact hfree c hc b hb (Nat.ne_of_gt hlt) hw a ⟨hca, hba⟩

/-- The first conflicting pair comes before every other one in the order of R151. -/
theorem checkOverlap_error_least {e : Err} (h : checkOverlap bufs = .error e) :
    ∃ b ∈ bufs, ∃ c ∈ bufs, b.offset < c.offset ∧ (b.written = true ∨ c.written = true) ∧
      (∃ a, b.has a = true ∧ c.has a = true) ∧
      e = ⟨.bufferOverlap, .validation, BitVec.ofNat 32 b.offset ||| (BitVec.ofNat 32 c.offset <<< 16)⟩ ∧
      ∀ b' ∈ bufs, ∀ c' ∈ bufs, b'.offset < c'.offset → (b'.written = true ∨ c'.written = true) →
        (∃ a, b'.has a = true ∧ c'.has a = true) →
        b.offset < b'.offset ∨ (b.offset = b'.offset ∧ c.offset ≤ c'.offset) := by
  unfold checkOverlap at h
  split at h
  · next q hfind =>
    obtain ⟨b, c⟩ := q
    cases h
    obtain ⟨pre, post, hsplit, hconf, hpre⟩ := find_split hfind
    have hmem : (b, c) ∈ pairsOf bufs := hsplit ▸ List.mem_append_right pre List.mem_cons_self
    obtain ⟨hb, hc, hlt⟩ := (pairsOf_mem hsorted).1 hmem
    obtain ⟨hw, hshared⟩ := conflict_iff.1 hconf
    refine ⟨b, hb, c, hc, hlt, hw, hshared, rfl, fun b' hb' c' hc' hlt' hw' hshared' => ?_⟩
    have hmem' : (b', c') ∈ pre ++ (b, c) :: post := hsplit ▸ (pairsOf_mem hsorted).2 ⟨hb', hc', hlt'⟩
    obtain hin | hin := List.mem_append.1 hmem'
    · have hno := hpre _ hin
      exact absurd (hno.symm.trans (conflict_iff.2 ⟨hw', hshared'⟩)) Bool.false_ne_true
    · obtain heq | hin := List.mem_cons.1 hin
      · cases heq
        exact .inr ⟨rfl, le_rfl⟩
      · have hpairs := pairsOf_pairwise hsorted
        rw [hsplit] at hpairs
        exact (List.pairwise_cons.1 (List.pairwise_append.1 hpairs).2.1).1 _ hin
  · cases h

end Overlap

/-! ### The order of a command's regions -/

/-- Every command lists its regions in the order of their offsets (R151). -/
theorem planOf_bufs_sorted {i : Instr} {s : State} {p : Plan} (h : planOf i s = .ok p) :
    p.bufs.Pairwise (fun b c => b.offset < c.offset) := by
  cases i with
  | nop => cases h; exact .nil
  | upsample =>
    obtain ⟨-, _, -, -, rfl⟩ := planUpsample_ok_iff.1 h
    exact frameOffsets (of_decide_eq_true rfl)
  | convert =>
    obtain ⟨-, _, -, _, -, -, rfl⟩ := planConvert_ok_iff.1 h
    exact frameOffsets (of_decide_eq_true rfl)
  | convertGray =>
    obtain ⟨-, _, -, -, rfl⟩ := planConvertGray_ok_iff.1 h
    exact frameOffsets (of_decide_eq_true rfl)
  | extractAlpha =>
    obtain ⟨-, _, -, -, rfl⟩ := planExtractAlpha_ok_iff.1 h
    exact frameOffsets (of_decide_eq_true rfl)
  | composite a =>
    cases a with
    | false =>
      obtain ⟨_, -, -, rfl⟩ := planCopy_ok_iff.1 h
      exact frameOffsets (of_decide_eq_true rfl)
    | true =>
      obtain ⟨_, -, _, -, -, _, -, -, rfl⟩ := planBlend_ok_iff.1 h
      exact frameOffsets (of_decide_eq_true rfl)
  | unpremultiply =>
    obtain ⟨_, -, -, rfl⟩ := planUnpremultiply_ok_iff.1 h
    exact List.pairwise_singleton _ _
  | frame a pm =>
    cases a with
    | false =>
      obtain ⟨-, _, -, -, rfl⟩ := planFramePlain_ok_iff.1 h
      exact plainSorted s
    | true =>
      obtain ⟨-, -, _, -, _, -, -, row, -, -, rfl⟩ := planFrameAlpha_ok_iff.1 h
      exact alphaSorted s row.result

/-! ### Geometry before overlap -/

theorem checkRegions_of_badGeometry {p : Params} {reported : List Buffer} {e : Err} (bufs : List Buffer)
    (h : checkGeometry (memSize p) reported = .error e) : checkRegions p reported bufs = .error e := by
  rw [checkRegions, h]

theorem checkRegions_of_goodGeometry {p : Params} {reported : List Buffer} (bufs : List Buffer)
    (h : checkGeometry (memSize p) reported = .ok ()) : checkRegions p reported bufs = checkOverlap bufs := by
  rw [checkRegions, h]

/-- Settles O24: the pairs are searched in the order of R151, on lists that every command has sorted, after the
geometry check. -/
theorem overlapNamesLeastPair : Obligations.OverlapNamesLeastPair :=
  ⟨fun _ hsorted => ⟨checkOverlap_ok_iff_disjoint hsorted, fun _ => checkOverlap_error_least hsorted⟩,
    fun _ _ _ => planOf_bufs_sorted,
    fun _ _ bufs => ⟨fun _ => checkRegions_of_badGeometry bufs, checkRegions_of_goodGeometry bufs,
      fun _ => checkRegions_of_badGeometry bufs, checkRegions_of_goodGeometry bufs⟩⟩

end Sys2Proof.Machine
end

section
/-! PROOFS. The execution step of a command whose checks pass, where a stage touches a refused byte (R56, R153), and
the bytes it leaves alone however it ends (R52). -/

namespace Sys2Proof.Machine

/-- The first stage that touches refused bytes ends the command with MEM_FAULT (R153). -/
theorem exec_memFault {i : Instr} {s : State} {p : Plan} {k : StageCode} {bad : List Nat} (hi : i ≠ .nop)
    (hp : planOf i s = .ok p) (hd : p.mapsDevice s.params = false)
    (hrun : runPasses s.params p.passes s.mem = .error (k, bad)) : exec i s = .next (s.memFault p k bad) := by
  rw [exec_eq_runPlan hi, hp]
  simp [runPlan, State.perform, hd, hrun]

/-- Settles O28: the stages before it having run, the stage's own refused bytes are those ERRINFO chooses from. -/
theorem refusedByteFaults : Obligations.RefusedByteFaults := by
  intro i s p pre post q m hi hp hd hsplit hpre hbyte
  obtain ⟨hrun, hne⟩ := runPasses_split_error (post := post) hpre hbyte
  rw [← hsplit] at hrun
  obtain ⟨htouched, hrefused⟩ := Pass.refusedBytes_mem.1 (pickRefused_mem s.draws hne)
  exact ⟨_, exec_memFault hi hp hd hrun, rfl, rfl, rfl, rfl, _, htouched, hrefused, rfl⟩

/-- However a command ends, a byte outside the regions it writes is as it was; where its checks fail it has none. -/
theorem exec_read_outside {i : Instr} {s t : State} {a : Nat} (h : exec i s = .next t)
    (ha : ∀ p, planOf i s = .ok p → p.writes a = false) : t.mem.read a = s.mem.read a := by
  by_cases hi : i = .nop
  · subst hi; cases h; rfl
  · rw [exec_eq_runPlan hi] at h
    obtain ⟨e, -, rfl⟩ | ⟨p, hp, -, ⟨k, bad, -, rfl⟩ | ⟨m, hm, rfl⟩⟩ := runPlan_next h
    · rfl
    · exact State.scramble_read_other s p (ha p hp)
    · rw [State.complete_mem]
      cases ht : s.tainted with
      | true => rw [State.commit_mem_tainted ht]; exact State.scramble_read_other s p (ha p hp)
      | false => rw [State.commit_mem_clean ht]; exact runPasses_frame hp hm (ha p hp)

end Sys2Proof.Machine
end

section
/-! PROOFS. The regions of every command, computed from the registers (R52). -/

namespace Sys2Proof.Machine

/-! ### Regions as spans of addresses -/

/-- The byte lies in a plane of `w` samples of `b` bytes by `h` rows, its stride padding included (R52). -/
def planeSpan (base stride : Word) (w h b a : Nat) : Prop :=
  0 < w ∧ 0 < h ∧ base.toNat ≤ a ∧ a < base.toNat + (h - 1) * stride.toNat + w * b

/-- The byte lies in a buffer of `w` by `h` pixels of `pixelBytes` bytes (R47, R48). -/
def imageSpan (base : Word) (w h pixelBytes a : Nat) : Prop :=
  base.toNat ≤ a ∧ a < base.toNat + w * h * pixelBytes

/-- The bytes of a sample of a frame (R44, R70). -/
def frameBps (f : Frame) : Nat := if f.depth = 8 then 1 else 2

/-- The byte lies in a chroma plane of the color frame, of which Monochrome has none (R46). -/
def chromaSpan (s : State) (base : Word) (a : Nat) : Prop :=
  match s.colorFrame.sampling with
  | .mono => False
  | .chroma .c444 => planeSpan base s.cfg.cCStride s.colorFrame.w s.colorFrame.h (frameBps s.colorFrame) a
  | .chroma .c422 =>
    planeSpan base s.cfg.cCStride ((s.colorFrame.w + 1) / 2) s.colorFrame.h (frameBps s.colorFrame) a
  | .chroma .c420 =>
    planeSpan base s.cfg.cCStride ((s.colorFrame.w + 1) / 2) ((s.colorFrame.h + 1) / 2) (frameBps s.colorFrame) a

/-- The bytes of FRAME's color pixel: one gray sample or three channels (R142). -/
def frameColorBytes (s : State) : Nat :=
  if s.colorFrame.sampling = .mono then frameBps s.colorFrame else 3 * frameBps s.colorFrame

theorem depthSize_bytes (f : Frame) : (depthSize f.depth).bytes = frameBps f := by
  unfold depthSize frameBps; split <;> rfl

theorem Plane.buffer_has {p : Plane} {a : Nat} : p.buffer.has a = true ↔
    0 < p.w ∧ 0 < p.h ∧ p.base ≤ a ∧ a < p.base + (p.h - 1) * p.stride + p.w * p.size.bytes := by
  rw [Buffer.has_iff, Buffer.nonempty_iff]
  simp only [Plane.buffer, Buffer.stop, Nat.mul_pos_iff_of_pos_right p.size.bytes_pos, and_assoc]

section Spans
variable {s : State} {a : Nat}

theorem planeYC_has : s.planeYC.buffer.has a = true ↔
    planeSpan s.cfg.cYBase s.cfg.cYStride s.colorFrame.w s.colorFrame.h (frameBps s.colorFrame) a := by
  rw [Plane.buffer_has, ← depthSize_bytes]
  rfl

theorem planeYA_has : s.planeYA.buffer.has a = true ↔
    planeSpan s.cfg.aYBase s.cfg.aYStride s.alphaFrame.w s.alphaFrame.h (frameBps s.alphaFrame) a := by
  rw [Plane.buffer_has, ← depthSize_bytes]
  rfl

theorem planeUC_has {c : Chroma} (h : s.colorFrame.sampling = .chroma c) :
    (s.planeUC c).buffer.has a = true ↔ chromaSpan s s.cfg.cUBase a := by
  rw [Plane.buffer_has, chromaSpan, h, ← depthSize_bytes]
  cases c <;> rfl

theorem planeVC_has {c : Chroma} (h : s.colorFrame.sampling = .chroma c) :
    (s.planeVC c).buffer.has a = true ↔ chromaSpan s s.cfg.cVBase a := by
  rw [Plane.buffer_has, chromaSpan, h, ← depthSize_bytes]
  cases c <;> rfl

theorem chromaSpan_mono (h : s.colorFrame.sampling = .mono) (base : Word) : ¬ chromaSpan s base a := by
  rw [chromaSpan, h]
  exact id

/-- The buffer of a kind at a base register (R47). -/
theorem imageOf_has {offset : Nat} {base : Word} {f : Frame} {k : ImageKind} {w : Bool} :
    ((imageOf offset base f k).buffer w).has a = true ↔ imageSpan base f.w f.h (k.channels * k.size.bytes) a := by
  rw [Image.buffer_has, Image.bytes, Nat.mul_assoc]
  rfl

theorem tri_has {w : Bool} : (s.tri.buffer w).has a = true ↔
    imageSpan s.cfg.outBase s.colorFrame.w s.colorFrame.h (3 * frameBps s.colorFrame) a := by
  rw [Image.buffer_has, Image.bytes, Nat.mul_assoc, ← depthSize_bytes]
  rfl

theorem rgbKind_pixelBytes (f : Frame) :
    (rgbKind f.depth).channels * (rgbKind f.depth).size.bytes = 3 * frameBps f := by
  rw [rgbKind_channels, rgbKind_size, depthSize_bytes]

theorem grayKind_pixelBytes (f : Frame) :
    (grayKind f.depth).image.channels * (grayKind f.depth).image.size.bytes = frameBps f := by
  rw [grayKind_channels, grayKind_size, depthSize_bytes, Nat.one_mul]

theorem frameColorKind_pixelBytes (s : State) :
    (frameColorKind s.colorFrame).channels * (frameColorKind s.colorFrame).size.bytes = frameColorBytes s := by
  unfold frameColorBytes frameColorKind
  cases s.colorFrame.sampling with
  | mono => exact grayKind_pixelBytes s.colorFrame
  | chroma c => exact rgbKind_pixelBytes s.colorFrame

theorem alphaKind_pixelBytes (k : AlphaKind) : k.image.channels * k.image.size.bytes = k.image.size.bytes := by
  cases k <;> rfl

end Spans

/-! ### Lists of regions -/

/-- The regions of the list hold together exactly the bytes of the span. -/
def Covers (bufs : List Buffer) (span : Nat → Prop) : Prop := ∀ a, (∃ b ∈ bufs, b.has a = true) ↔ span a

theorem Covers.nil : Covers [] fun _ => False := fun a => by simp

theorem Covers.cons {b : Buffer} {bufs : List Buffer} {first rest : Nat → Prop}
    (hb : ∀ a, b.has a = true ↔ first a) (hrest : Covers bufs rest) :
    Covers (b :: bufs) fun a => first a ∨ rest a := fun a => by
  simp only [← hb a, ← hrest a, List.exists_mem_cons_iff]

theorem Covers.single {b : Buffer} {span : Nat → Prop} (hb : ∀ a, b.has a = true ↔ span a) : Covers [b] span :=
  fun a => by simp [hb a]

theorem Covers.append {xs ys : List Buffer} {first rest : Nat → Prop} (hx : Covers xs first) (hy : Covers ys rest) :
    Covers (xs ++ ys) fun a => first a ∨ rest a := fun a => by
  simp only [← hx a, ← hy a, List.mem_append, or_and_right, exists_or]

/-- The byte lies in a plane of the color frame. -/
def planesSpan (s : State) (a : Nat) : Prop :=
  planeSpan s.cfg.cYBase s.cfg.cYStride s.colorFrame.w s.colorFrame.h (frameBps s.colorFrame) a ∨
    chromaSpan s s.cfg.cUBase a ∨ chromaSpan s s.cfg.cVBase a

/-- The planes of FRAME's color frame, and of the commands that read chroma. -/
theorem framePlaneBufs_cover (s : State) : Covers (framePlaneBufs s) (planesSpan s) := by
  unfold framePlaneBufs
  split
  · next h =>
    intro a
    simp only [planesSpan, chromaSpan_mono h, or_false]
    exact Covers.single (fun _ => planeYC_has) a
  · next c h => exact .cons (fun _ => planeYC_has) (.cons (fun _ => planeUC_has h) (.single fun _ => planeVC_has h))

theorem framePlaneBufs_read {s : State} : ∀ b ∈ framePlaneBufs s, b.written = false := by
  unfold framePlaneBufs
  split <;> simp [Plane.buffer]

/-- The bytes a command reads, and those it writes. -/
def Plan.Splits (p : Plan) (reads writes : Nat → Prop) : Prop :=
  ∀ a, (p.writes a = true ↔ writes a) ∧ (p.uses a = true ↔ reads a ∨ writes a)

/-- Every command lists the regions it writes last. -/
theorem Plan.splits_of_covers {p : Plan} {rs ws : List Buffer} {reads writes : Nat → Prop} (hbufs : p.bufs = rs ++ ws)
    (hr : ∀ b ∈ rs, b.written = false) (hw : ∀ b ∈ ws, b.written = true) (hreads : Covers rs reads)
    (hwrites : Covers ws writes) : p.Splits reads writes := by
  intro a
  rw [← hwrites a, ← hreads a, Plan.writes, Plan.uses, hbufs]
  simp only [List.any_append, Bool.or_eq_true, List.any_eq_true, Bool.and_eq_true, and_true]
  constructor
  · rintro (⟨b, hb, hbw, -⟩ | ⟨b, hb, -, hba⟩)
    · exact absurd ((hr b hb).symm.trans hbw) Bool.false_ne_true
    · exact ⟨b, hb, hba⟩
  · rintro ⟨b, hb, hba⟩
    exact .inr ⟨b, hb, hw b hb, hba⟩

/-- A command all of whose regions are written reads the same bytes (R135). -/
theorem Plan.Splits.in_place {p : Plan} {span : Nat → Prop} (h : p.Splits (fun _ => False) span) :
    p.Splits span span := fun a =>
  (h a).imp_right fun huses => huses.trans (by rw [false_or, or_self])

/-! ### Each command's regions -/

section Commands
variable {s : State} {p : Plan}

theorem planNop_splits : planNop.Splits (fun _ => False) fun _ => False :=
  Plan.splits_of_covers (rs := []) (ws := []) rfl (by simp) (by simp) .nil .nil

theorem planUpsample_splits (h : planUpsample s = .ok p) : p.Splits (planesSpan s)
    (imageSpan s.cfg.outBase s.colorFrame.w s.colorFrame.h (3 * frameBps s.colorFrame)) := by
  obtain ⟨-, c, hc, -, rfl⟩ := planUpsample_ok_iff.1 h
  refine Plan.splits_of_covers (ws := [s.tri.buffer true]) ?_ framePlaneBufs_read (by simp [Image.buffer])
    (framePlaneBufs_cover s) (.single fun _ => tri_has)
  simp [upsampleBufs, framePlaneBufs, hc]

theorem planConvert_splits (h : planConvert s = .ok p) : p.Splits (planesSpan s)
    (imageSpan s.cfg.cimgBase s.colorFrame.w s.colorFrame.h (3 * frameBps s.colorFrame)) := by
  obtain ⟨-, c, hc, -, -, -, rfl⟩ := planConvert_ok_iff.1 h
  rw [← rgbKind_pixelBytes]
  refine Plan.splits_of_covers (ws := [s.rgbImage.buffer true]) ?_ framePlaneBufs_read (by simp [Image.buffer])
    (framePlaneBufs_cover s) (.single fun _ => imageOf_has)
  simp [convertBufs, framePlaneBufs, hc]

theorem planConvertGray_splits (h : planConvertGray s = .ok p) : p.Splits
    (planeSpan s.cfg.cYBase s.cfg.cYStride s.colorFrame.w s.colorFrame.h (frameBps s.colorFrame))
    (imageSpan s.cfg.cimgBase s.colorFrame.w s.colorFrame.h (frameBps s.colorFrame)) := by
  obtain ⟨-, -, -, -, rfl⟩ := planConvertGray_ok_iff.1 h
  exact Plan.splits_of_covers (rs := [s.planeYC.buffer]) (ws := [s.grayImage.buffer true]) rfl
    (by simp [Plane.buffer]) (by simp [Image.buffer]) (.single fun _ => planeYC_has)
    (.single fun _ => grayKind_pixelBytes s.colorFrame ▸ imageOf_has)

theorem planExtractAlpha_splits (h : planExtractAlpha s = .ok p) : p.Splits
    (planeSpan s.cfg.aYBase s.cfg.aYStride s.alphaFrame.w s.alphaFrame.h (frameBps s.alphaFrame))
    (imageSpan s.cfg.aimgBase s.alphaFrame.w s.alphaFrame.h (frameBps s.alphaFrame)) := by
  obtain ⟨-, -, -, -, rfl⟩ := planExtractAlpha_ok_iff.1 h
  exact Plan.splits_of_covers (rs := [s.planeYA.buffer]) (ws := [s.alphaImage.buffer true]) rfl
    (by simp [Plane.buffer]) (by simp [Image.buffer]) (.single fun _ => planeYA_has)
    (.single fun _ => grayKind_pixelBytes s.alphaFrame ▸ imageOf_has)

theorem planCopy_splits (h : planCopy s = .ok p) : ∃ ck, kindOf (kindCode s.cfg.cimgKind) = some ck ∧ p.Splits
    (imageSpan s.cfg.cimgBase s.colorFrame.w s.colorFrame.h (ck.channels * ck.size.bytes))
    (imageSpan s.cfg.outBase s.colorFrame.w s.colorFrame.h (ck.channels * ck.size.bytes)) := by
  obtain ⟨ck, hck, -, rfl⟩ := planCopy_ok_iff.1 h
  exact ⟨ck, hck, Plan.splits_of_covers (rs := [(s.cimg ck).buffer false]) (ws := [(s.out ck).buffer true]) rfl
    (by simp [Image.buffer]) (by simp [Image.buffer]) (.single fun _ => imageOf_has) (.single fun _ => imageOf_has)⟩

theorem planBlend_splits (h : planBlend s = .ok p) : ∃ ck ak row, kindOf (kindCode s.cfg.cimgKind) = some ck ∧
    alphaKindOf (kindCode s.cfg.aimgKind) = some ak ∧ compositeRow ck ak = some row ∧ p.Splits
    (fun a => imageSpan s.cfg.cimgBase s.colorFrame.w s.colorFrame.h (ck.channels * ck.size.bytes) a ∨
      imageSpan s.cfg.aimgBase s.alphaFrame.w s.alphaFrame.h ak.image.size.bytes a)
    (imageSpan s.cfg.outBase s.colorFrame.w s.colorFrame.h (row.result.channels * row.result.size.bytes)) := by
  obtain ⟨ck, hck, ak, hak, -, row, hrow, -, rfl⟩ := planBlend_ok_iff.1 h
  refine ⟨ck, ak, row, hck, hak, hrow, ?_⟩
  exact Plan.splits_of_covers (rs := [(s.cimg ck).buffer false, (s.aimg ak).buffer false])
    (ws := [(s.out row.result).buffer true]) rfl (by simp [Image.buffer]) (by simp [Image.buffer])
    (.cons (fun _ => imageOf_has) (.single fun _ => alphaKind_pixelBytes ak ▸ imageOf_has))
    (.single fun _ => imageOf_has)

theorem planUnpremultiply_splits (h : planUnpremultiply s = .ok p) : ∃ k, (k = .rgba8 ∨ k = .rgba16) ∧
    kindOf (kindCode s.cfg.outKind) = some k ∧ p.Splits
    (imageSpan s.cfg.outBase s.colorFrame.w s.colorFrame.h (k.channels * k.size.bytes))
    (imageSpan s.cfg.outBase s.colorFrame.w s.colorFrame.h (k.channels * k.size.bytes)) := by
  obtain ⟨k, ⟨hk, hkind⟩, -, rfl⟩ := planUnpremultiply_ok_iff.1 h
  exact ⟨k, hk, hkind, .in_place (Plan.splits_of_covers (rs := []) (ws := [(s.out k).buffer true]) rfl (by simp)
    (by simp [Image.buffer]) .nil (.single fun _ => imageOf_has))⟩

theorem planFramePlain_splits (h : planFramePlain s = .ok p) : p.Splits (planesSpan s)
    (fun a => imageSpan s.cfg.cimgBase s.colorFrame.w s.colorFrame.h (frameColorBytes s) a ∨
      imageSpan s.cfg.outBase s.colorFrame.w s.colorFrame.h (frameColorBytes s) a) := by
  obtain ⟨-, -, -, -, rfl⟩ := planFramePlain_ok_iff.1 h
  rw [← frameColorKind_pixelBytes]
  exact Plan.splits_of_covers (rs := framePlaneBufs s) rfl framePlaneBufs_read (by simp [Image.buffer])
    (framePlaneBufs_cover s) (.cons (fun _ => imageOf_has) (.single fun _ => imageOf_has))

theorem planFrameAlpha_splits {pm : Bool} (h : planFrameAlpha pm s = .ok p) : ∃ row,
    compositeRow (frameColorKind s.colorFrame) (grayKind s.alphaFrame.depth) = some row ∧ p.Splits
    (fun a => planeSpan s.cfg.aYBase s.cfg.aYStride s.alphaFrame.w s.alphaFrame.h (frameBps s.alphaFrame) a ∨
      planesSpan s a)
    (fun a => imageSpan s.cfg.aimgBase s.alphaFrame.w s.alphaFrame.h (frameBps s.alphaFrame) a ∨
      imageSpan s.cfg.cimgBase s.colorFrame.w s.colorFrame.h (frameColorBytes s) a ∨
      imageSpan s.cfg.outBase s.colorFrame.w s.colorFrame.h (row.result.channels * row.result.size.bytes) a) := by
  obtain ⟨-, -, _, -, _, -, -, row, hrow, -, rfl⟩ := planFrameAlpha_ok_iff.1 h
  refine ⟨row, hrow, Plan.splits_of_covers (rs := framePlaneBufs s ++ [s.planeYA.buffer])
    (ws := [s.frameCimg.buffer true, s.alphaImage.buffer true, (s.out row.result).buffer true])
    (List.append_assoc _ [_] _).symm ?_ (by simp [Image.buffer]) ?_ ?_⟩
  · exact List.forall_mem_append.2 ⟨framePlaneBufs_read, by simp [Plane.buffer]⟩
  · exact fun a => ((framePlaneBufs_cover s).append (.single fun _ => planeYA_has) a).trans or_comm
  · rw [← frameColorKind_pixelBytes, ← grayKind_pixelBytes]
    exact fun a => (Covers.cons (fun _ => imageOf_has)
      (.cons (fun _ => imageOf_has) (.single fun _ => imageOf_has)) a).trans or_left_comm

end Commands

/-! ### The lists of regions the checks see -/

/-- An image of a frame as a region: its channels and sample size given (R47, R52). -/
def imageBuffer (offset : Nat) (base : Word) (f : Frame) (ch : Nat) (z : SampleSize) (written : Bool) : Buffer where
  offset := offset
  base := base.toNat
  size := z
  stride := none
  rowBytes := f.w * ch * z.bytes
  rows := f.h
  written := written

section Written
variable (offset : Nat) (base : Word) (written : Bool) (f : Frame)

theorem imageOf_buffer (k : ImageKind) : (imageOf offset base f k).buffer written =
    imageBuffer offset base f k.channels k.size written := rfl

theorem grayKind_buffer : (imageOf offset base f (grayKind f.depth).image).buffer written =
    imageBuffer offset base f 1 (depthSize f.depth) written := by
  rw [imageOf_buffer, grayKind_channels, grayKind_size]

theorem rgbKind_buffer : (imageOf offset base f (rgbKind f.depth)).buffer written =
    imageBuffer offset base f 3 (depthSize f.depth) written := by
  rw [imageOf_buffer, rgbKind_channels, rgbKind_size]

theorem frameColorKind_buffer : (imageOf offset base f (frameColorKind f)).buffer written =
    imageBuffer offset base f (if f.sampling = .mono then 1 else 3) (depthSize f.depth) written := by
  unfold frameColorKind
  cases f.sampling with
  | mono => exact grayKind_buffer offset base written f
  | chroma c => exact rgbKind_buffer offset base written f

end Written

section Images
variable (s : State) (written : Bool)

theorem grayImage_buffer : s.grayImage.buffer written =
    imageBuffer 0x040 s.cfg.cimgBase s.colorFrame 1 (depthSize s.colorFrame.depth) written :=
  grayKind_buffer _ _ _ _

theorem alphaImage_buffer : s.alphaImage.buffer written =
    imageBuffer 0x048 s.cfg.aimgBase s.alphaFrame 1 (depthSize s.alphaFrame.depth) written :=
  grayKind_buffer _ _ _ _

theorem rgbImage_buffer : s.rgbImage.buffer written =
    imageBuffer 0x040 s.cfg.cimgBase s.colorFrame 3 (depthSize s.colorFrame.depth) written :=
  rgbKind_buffer _ _ _ _

theorem frameCimg_buffer : s.frameCimg.buffer written = imageBuffer 0x040 s.cfg.cimgBase s.colorFrame
    (if s.colorFrame.sampling = .mono then 1 else 3) (depthSize s.colorFrame.depth) written :=
  frameColorKind_buffer _ _ _ _

theorem frameOut_buffer : (s.out (frameColorKind s.colorFrame)).buffer written = imageBuffer 0x050 s.cfg.outBase
    s.colorFrame (if s.colorFrame.sampling = .mono then 1 else 3) (depthSize s.colorFrame.depth) written :=
  frameColorKind_buffer _ _ _ _

theorem aimg_buffer (k : AlphaKind) : (s.aimg k).buffer written =
    imageBuffer 0x048 s.cfg.aimgBase s.alphaFrame 1 k.image.size written := by
  cases k <;> rfl

end Images

/-- Settles O31: each command's list is its read regions and then its written ones, and its plan stores to no
others. -/
theorem commandsWriteOnlyTheirRegions : Obligations.CommandsWriteOnlyTheirRegions := by
  refine ⟨fun i s p h => ?_, fun s => ?_, fun i s t a => exec_read_outside⟩
  · cases i with
    | nop => cases h; exact planNop_splits
    | upsample => exact planUpsample_splits h
    | convert => exact planConvert_splits h
    | convertGray => exact planConvertGray_splits h
    | extractAlpha => exact planExtractAlpha_splits h
    | composite a =>
      cases a with
      | false => exact planCopy_splits h
      | true => exact planBlend_splits h
    | unpremultiply => exact planUnpremultiply_splits h
    | frame a pm =>
      cases a with
      | false => exact planFramePlain_splits h
      | true => exact planFrameAlpha_splits h
  · refine ⟨⟨rfl, ?_, rfl, alphaImage_buffer s true, frameCimg_buffer s true, fun _ => rfl⟩, ?_, fun c => ?_, ?_,
      ?_, fun _ => rfl, fun k ak rk => ?_, fun _ => rfl, ?_, fun rk => ?_⟩
    · rintro ⟨⟩ <;> exact ⟨rfl, rfl⟩
    · rintro ⟨⟩ <;> rfl
    · rw [convertBufs, rgbImage_buffer]
      cases c <;> rfl
    · rw [convertGrayBufs, grayImage_buffer]; rfl
    · rw [extractAlphaBufs, alphaImage_buffer]; rfl
    · rw [blendBufs, aimg_buffer]; rfl
    · rw [framePlainBufs, frameCimg_buffer, frameOut_buffer, framePlaneBufs]
      cases s.colorFrame.sampling with
      | mono => rfl
      | chroma c => cases c <;> rfl
    · rw [frameAlphaBufs, frameCimg_buffer, alphaImage_buffer, framePlaneBufs]
      cases s.colorFrame.sampling with
      | mono => rfl
      | chroma c => cases c <;> rfl

end Sys2Proof.Machine
end

section
/-! PROOFS. What UPSAMPLE and CONVERT leave in memory: three samples for every position, and nothing else (R47, R48,
R84, R85, R110). -/

namespace Sys2Proof.Machine

/-! ### Buffers of three samples a pixel -/

section Triples
variable {i : Image} (hch : i.ch = 3) (e : Endian) (m : Memory) (f g h : Nat → Nat)

/-- Memory after a buffer is filled with three samples for each position (R47, R48). -/
def Memory.fillTriples (i : Image) (e : Endian) (m : Memory) (f g h : Nat → Nat) : Memory :=
  m.writeAll (runCells e i.size i.base ((List.range (i.w * i.h)).flatMap fun k => [f k, g k, h k]))

/-- Every byte outside the buffer is as it was. -/
theorem Memory.fillTriples_outside {a : Nat} (ha : a < i.base ∨ i.base + i.w * i.h * 3 * i.size.bytes ≤ a) :
    (fillTriples i e m f g h).read a = m.read a := by
  refine Memory.read_runCells_other m e i.size i.base _ a ?_
  rwa [length_flatMap_range (ch := 3) fun _ => rfl]

include hch

/-- Each of the three is read back where the layout puts it, as it fits its bytes. -/
theorem Memory.fillTriples_sample (hfits : ∀ k, f k < 256 ^ i.size.bytes ∧ g k < 256 ^ i.size.bytes ∧
    h k < 256 ^ i.size.bytes) {x y : Nat} (hx : x < i.w) (hy : y < i.h) :
    let n := fillTriples i e m f g h
    n.readSample e i.size (i.base + ((y * i.w + x) * 3 + 0) * i.size.bytes) = f (y * i.w + x) ∧
    n.readSample e i.size (i.base + ((y * i.w + x) * 3 + 1) * i.size.bytes) = g (y * i.w + x) ∧
    n.readSample e i.size (i.base + ((y * i.w + x) * 3 + 2) * i.size.bytes) = h (y * i.w + x) := by
  obtain ⟨hk, -, -⟩ := pix_idx hx hy
  obtain ⟨hf, hg, hh⟩ := hfits (y * i.w + x)
  have hread : ∀ c v, [f (y * i.w + x), g (y * i.w + x), h (y * i.w + x)][c]? = some v → v < 256 ^ i.size.bytes →
      (fillTriples i e m f g h).readSample e i.size (i.base + ((y * i.w + x) * 3 + c) * i.size.bytes) = v := by
    intro c v hv hlt
    have hsample := Image.sample_runCells (i := i) (e := e) (m := m) (f := fun k => [f k, g k, h k])
      (fun _ => hch.symm) hk hv
    rw [Image.sample, Image.addr, hch, Nat.mod_eq_of_lt hlt] at hsample
    exact hsample
  exact ⟨hread 0 _ rfl hf, hread 1 _ rfl hg, hread 2 _ rfl hh⟩

end Triples

/-! ### UPSAMPLE -/

/-- Position (x, y) is number y × W + x in row-major order (R82). -/
theorem upsampleAt_eq {s : State} {x y : Nat} (hx : x < s.colorFrame.w) (hy : y < s.colorFrame.h) (m : Memory)
    (c : Chroma) : upsampleAt s m c (y * s.colorFrame.w + x) = upsample s m c x y := by
  obtain ⟨-, hmod, hdiv⟩ := pix_idx hx hy
  rw [upsampleAt, hmod, hdiv]

/-- The samples of a plane fit the samples of the triple buffer: both have the frame's depth (R48). -/
theorem upsampleAt_lt (s : State) (m : Memory) (c : Chroma) (k : Nat) :
    (upsampleAt s m c k).y < 256 ^ s.tri.size.bytes ∧ (upsampleAt s m c k).u < 256 ^ s.tri.size.bytes ∧
      (upsampleAt s m c k).v < 256 ^ s.tri.size.bytes :=
  ⟨Memory.readSample_lt .., Memory.readSample_lt .., Memory.readSample_lt ..⟩

/-- Memory after UPSAMPLE's stage. -/
def upsampledMemory (s : State) (c : Chroma) : Memory :=
  Memory.fillTriples s.tri s.params.endian s.mem (fun k => (upsampleAt s s.mem c k).y)
    (fun k => (upsampleAt s s.mem c k).u) fun k => (upsampleAt s s.mem c k).v

theorem exec_upsample_completes {s : State} {c : Chroma} (hlo : 8 ≤ s.colorFrame.depth)
    (hhi : s.colorFrame.depth ≤ 16) (hc : s.colorFrame.sampling = .chroma c)
    (hready : RegionsReady s.params (upsampleBufs s c))
    (hok : BytesOk s.params (cuTouches s c ++ s.tri.touched)) (ht : s.tainted = false) :
    exec .upsample s = .next (s.completedWith s.cfg (upsampledMemory s c)) := by
  have hplan : planOf .upsample s = .ok ⟨upsampleBufs s c, [upsamplePass s c], none, none, none⟩ :=
    planUpsample_ok_iff.2 ⟨depthLegal_iff.2 ⟨hlo, hhi⟩, c, hc, hready.checks, rfl⟩
  have hrun : runPasses s.params [upsamplePass s c] s.mem = .ok (upsampledMemory s c) := runPasses_one hok
  exact exec_completes Instr.noConfusion hplan hready.mapsDevice hrun ht

/-- Settles O39: the command completes with its triple buffer filled, and each triple is that of its position. -/
theorem upsampleWritesTriples : Obligations.UpsampleWritesTriples := by
  intro s c hlo hhi hc hready hok ht e z w h out
  refine ⟨upsampledMemory s c, exec_upsample_completes hlo hhi hc hready hok ht, fun x y hx hy => ?_,
    fun a ha => Memory.fillTriples_outside (i := s.tri) _ _ _ _ _ ha⟩
  have hread := Memory.fillTriples_sample (i := s.tri) rfl s.params.endian s.mem _ _ _
    (upsampleAt_lt s s.mem c) hx hy
  rw [show y * s.tri.w + x = y * s.colorFrame.w + x from rfl, upsampleAt_eq hx hy] at hread
  cases c <;> exact hread

/-! ### CONVERT -/

/-- The pixel that CONVERT makes of a position of the frame (R110). -/
def convertedAt (s : State) (c : Chroma) (mx : Matrix) (k : Nat) : Rgb :=
  convertAt s s.mem c (resolveMc s.colorFrame.mc s.params.defaultMcColor) mx k

theorem convertedAt_eq {s : State} {x y : Nat} (hx : x < s.colorFrame.w) (hy : y < s.colorFrame.h) (c : Chroma)
    (mx : Matrix) : convertedAt s c mx (y * s.colorFrame.w + x) =
      csc s.params s.colorFrame.depth s.colorFrame.range (resolveMc s.colorFrame.mc s.params.defaultMcColor) mx
        (upsample s s.mem c x y) := by
  rw [convertedAt, convertAt, upsampleAt_eq hx hy]

theorem rgbImage_size (s : State) : s.rgbImage.size = depthSize s.colorFrame.depth := rgbKind_size _

/-- The channels fit the samples of the image, for every conversion that the spec admits (R92). -/
theorem convertedAt_lt {s : State} (hw : s.params.wf = true) (c : Chroma) (mx : Matrix) (k : Nat) :
    (convertedAt s c mx k).r < 256 ^ s.rgbImage.size.bytes ∧ (convertedAt s c mx k).g < 256 ^ s.rgbImage.size.bytes ∧
      (convertedAt s c mx k).b < 256 ^ s.rgbImage.size.bytes := by
  rw [rgbImage_size]
  exact csc_lt hw _ _ _ _ _

/-- Memory after CONVERT's two stages. -/
def convertedMemory (s : State) (c : Chroma) (mx : Matrix) : Memory :=
  Memory.fillTriples s.rgbImage s.params.endian s.mem (fun k => (convertedAt s c mx k).r)
    (fun k => (convertedAt s c mx k).g) fun k => (convertedAt s c mx k).b

/-- The code of the kind CONVERT produces (R74, R113). -/
theorem rgbKind_codeWord (n : Nat) : BitVec.ofNat 32 (rgbKind n).code = if n = 8 then 0 else 1 := by
  unfold rgbKind; split <;> rfl

theorem exec_convert_completes {s : State} {c : Chroma} {mx : Matrix} (hlo : 8 ≤ s.colorFrame.depth)
    (hhi : s.colorFrame.depth ≤ 16) (hc : s.colorFrame.sampling = .chroma c)
    (hmx : matrixOf s.params (resolveMc s.colorFrame.mc s.params.defaultMcColor) = some mx)
    (hready : RegionsReady s.params (convertBufs s c))
    (hok : BytesOk s.params (cuTouches s c ++ s.rgbImage.touched)) (ht : s.tainted = false) :
    exec .convert s = .next (s.completedWith
      { s.cfg with cimgKind := if s.colorFrame.depth = 8 then 0 else 1 } (convertedMemory s c mx)) := by
  obtain ⟨hplanes, himage⟩ := BytesOk.append.1 hok
  have hrun : runPasses s.params (convertPasses s c (resolveMc s.colorFrame.mc s.params.defaultMcColor) mx) s.mem =
      .ok (convertedMemory s c mx) := by
    rw [convertPasses, runPasses_cons hplanes]
    exact runPasses_one himage
  rw [← rgbKind_codeWord]
  exact exec_completes Instr.noConfusion (planConvert_ready hlo hhi hc hmx hready) hready.mapsDevice hrun ht

/-- Settles O40: the command completes with its image filled, and each pixel is CSC of the triple of its position. -/
theorem convertWritesColorImage : Obligations.ConvertWritesColorImage := by
  intro s c mx hw hlo hhi hc hmx hready hok ht e n z w h img
  refine ⟨convertedMemory s c mx, exec_convert_completes hlo hhi hc hmx hready hok ht, fun x y hx hy => ?_,
    fun a ha => Memory.fillTriples_outside (i := s.rgbImage) _ _ _ _ _ (by rw [rgbImage_size]; exact ha)⟩
  have hread := Memory.fillTriples_sample (i := s.rgbImage) (rgbKind_channels n) s.params.endian s.mem _ _ _
    (convertedAt_lt hw c mx) hx hy
  rw [show y * s.rgbImage.w + x = y * s.colorFrame.w + x from rfl, convertedAt_eq hx hy, rgbImage_size] at hread
  cases c <;> exact hread

end Sys2Proof.Machine
end

section
/-! PROOFS. The decoder against the encoder, and the illegal words (R65, R66, R75, R76, R78). -/

namespace Sys2Proof

open Machine

/-! ### Words and commands -/

/-- A word is the packing of its fields and of no others (R65). -/
theorem fieldsOf_eq_iff {w : Word} {f : Fields} : fieldsOf w = f ↔ w = f.pack :=
  ⟨fun h => h ▸ (pack_fieldsOf w).symm, fun h => h ▸ fieldsOf_pack f⟩

/-- The decoder answers a command on its word and on no other (R76). -/
theorem decode_iff_encode {w : Word} {i : Instr} : decode w = .ok i ↔ w = encode i :=
  decode_fields.trans fieldsOf_eq_iff

/-- No command meets one of the four conditions of R75. -/
theorem Instr.wellFormed_true (i : Instr) : i.wellFormed = true := by
  cases i with
  | composite a => cases a <;> rfl
  | frame a p => cases a <;> cases p <;> rfl
  | _ => rfl

/-- Settles O2: the fields of a word are those of a command exactly when the word is the command's. -/
theorem decodeAndEncodeAreInverse : Obligations.DecodeAndEncodeAreInverse :=
  ⟨fun _ _ => decode_iff_encode, Instr.wellFormed_true⟩

/-- Settles O1: each of the twelve words is the word of its command. -/
theorem commandWordsDecode : Obligations.CommandWordsDecode := by
  refine ⟨?_, ?_, ?_, ?_, ?_, ?_, ?_, ?_, ?_, ?_, ?_, ?_⟩ <;> exact decode_iff_encode.2 (by decide)

/-! ### Illegal words -/

/-- The four conditions of R75, negated: the fields are legal. -/
theorem Fields.legal_iff (f : Fields) : f.legal = true ↔
    f.op.toNat < 8 ∧ f.res = 0 ∧ (f.a = true → f.op.toNat = 5 ∨ f.op.toNat = 7) ∧
      (f.p = true → f.op.toNat = 7) := by
  obtain ⟨op, a, p, res⟩ := f
  cases a <;> cases p <;> simp [Fields.legal, Fields.opcodeOk, Fields.reservedOk, Fields.alphaOk, Fields.premulOk,
    BitVec.toNat_eq, and_assoc]

/-- Beside COMPOSITE and FRAME, legal fields are an opcode alone (R75). -/
theorem Fields.eq_opcode_of_legal {op : BitVec 4} {a p : Bool} {res : BitVec 26}
    (h : (Fields.mk op a p res).legal = true) (h5 : op.toNat ≠ 5) (h7 : op.toNat ≠ 7) :
    Fields.mk op a p res = ⟨op, false, false, 0⟩ := by
  obtain ⟨-, hres, ha, hp⟩ := (Fields.legal_iff _).1 h
  have ha0 : a = false := Bool.eq_false_of_not_eq_true fun hat => (ha hat).elim h5 h7
  have hp0 : p = false := Bool.eq_false_of_not_eq_true fun hpt => h7 (hp hpt)
  rw [ha0, hp0, show res = 0 from hres]

/-- The opcodes that are not reserved (R66). -/
theorem opcode_cases {op : BitVec 4} (h : op.toNat < 8) :
    op = 0 ∨ op = 1 ∨ op = 2 ∨ op = 3 ∨ op = 4 ∨ op = 5 ∨ op = 6 ∨ op = 7 := by
  revert op
  decide

/-- Legal fields are those of a command: the opcode names it, with the A and P it takes (R66, R75). -/
theorem Fields.exists_instr {f : Fields} (h : f.legal = true) : ∃ i : Instr, f = i.fields := by
  obtain ⟨op, a, p, res⟩ := f
  have hplain := Fields.eq_opcode_of_legal h
  obtain ⟨hop, hres, -, hp⟩ := (Fields.legal_iff _).1 h
  dsimp only at hop hres hp
  subst hres
  obtain rfl | rfl | rfl | rfl | rfl | rfl | rfl | rfl := opcode_cases hop
  · exact ⟨.nop, hplain (by decide) (by decide)⟩
  · exact ⟨.upsample, hplain (by decide) (by decide)⟩
  · exact ⟨.convert, hplain (by decide) (by decide)⟩
  · exact ⟨.convertGray, hplain (by decide) (by decide)⟩
  · exact ⟨.extractAlpha, hplain (by decide) (by decide)⟩
  · have hp0 : p = false := Bool.eq_false_of_not_eq_true fun hpt => absurd (hp hpt) (by decide)
    exact ⟨.composite a, by rw [hp0]; rfl⟩
  · exact ⟨.unpremultiply, hplain (by decide) (by decide)⟩
  · exact ⟨.frame a p, rfl⟩

/-- A word decodes to a command exactly when its fields are legal (R75, R78). -/
theorem exists_decode_iff_legal {w : Word} : (∃ i, decode w = .ok i) ↔ (fieldsOf w).legal = true := by
  constructor
  · rintro ⟨i, hi⟩
    rw [decode_fields.1 hi]
    exact i.wellFormed_true
  · intro h
    obtain ⟨i, hi⟩ := Fields.exists_instr h
    exact ⟨i, decode_fields.2 hi⟩

/-- The block raises ILLEGAL_COMMAND for a word in flight that is no command's (R75, R150). -/
theorem blockTurn_illegal {s : State} {w : Word} (hcur : s.cur = some w) (h : ¬ ∃ i, decode w = .ok i) :
    blockTurn s = .next (s.raise ⟨.illegalCommand, .validation, w⟩) := by
  unfold blockTurn
  rw [hcur]
  match hd : decode w with
  | .ok i => exact absurd ⟨i, hd⟩ h
  | .error _ => simp only [hd]

/-- Settles O3: a word is illegal when its fields are not legal, and the block's turn on it is the raise alone. -/
theorem illegalWordsRaiseIllegalCommand : Obligations.IllegalWordsRaiseIllegalCommand := by
  refine fun w => ⟨?_, fun s hcur hturn h => ?_⟩
  · rw [exists_decode_iff_legal, Fields.legal_iff]
    simp only [fieldsOf, ne_eq, ← not_lt]
    tauto
  · rw [step_block hturn]
    exact blockTurn_illegal hcur h

end Sys2Proof
end

section
/-! PROOFS. The turns of the host statements, and the words of cmd, fmt and dim (R79, R80). -/

namespace Sys2Proof.Machine

/-! ### Runs of stores -/

/-- A run of samples, each with its index: sample q at `a + q × bps` (R47, R48). -/
theorem runCells_eq_zipIdx (e : Endian) (z : SampleSize) (a : Nat) (vs : List Nat) (k : Nat) :
    runCells e z (a + z.bytes * k) vs =
      (vs.zipIdx k).flatMap fun q => sampleCells e z (a + z.bytes * q.2) q.1 := by
  induction vs generalizing k with
  | nil => rfl
  | cons v vs ih => rw [runCells, List.zipIdx_cons, List.flatMap_cons, ← ih, Nat.mul_succ, Nat.add_assoc]

/-- The turns that store a run of samples, sample by sample. -/
theorem storeTurns_runCells (e : Endian) (z : SampleSize) (a : Nat) (vs : List Nat) :
    storeTurns (runCells e z a vs) =
      vs.zipIdx.flatMap fun q => storeTurns (sampleCells e z (a + z.bytes * q.2) q.1) := by
  have h := runCells_eq_zipIdx e z a vs 0
  rw [Nat.mul_zero, Nat.add_zero] at h
  rw [h, storeTurns, List.map_flatMap]
  rfl

/-- `mem.b` stores a byte for each value (R79). -/
theorem memB_turns (p : Params) (a : Nat) (vs : List Nat) : (Stmt.memB a vs).turns p =
    vs.zipIdx.map fun q => .host (.memWrite (a + q.2) (BitVec.ofNat 8 q.1)) := by
  rw [Stmt.turns, storeTurns_runCells, List.map_eq_flatMap]
  simp only [SampleSize.bytes, Nat.one_mul]
  rfl

/-- `mem.h` stores two bytes for each value, in the parameters' byte order (R44, R79). -/
theorem memH_turns (p : Params) (a : Nat) (vs : List Nat) : (Stmt.memH a vs).turns p =
    vs.zipIdx.flatMap fun q => if p.endian = .le then
      [.host (.memWrite (a + 2 * q.2) (BitVec.ofNat 8 q.1)),
        .host (.memWrite (a + 2 * q.2 + 1) (BitVec.ofNat 8 (q.1 / 256)))]
    else [.host (.memWrite (a + 2 * q.2) (BitVec.ofNat 8 (q.1 / 256))),
      .host (.memWrite (a + 2 * q.2 + 1) (BitVec.ofNat 8 q.1))] := by
  rw [Stmt.turns, storeTurns_runCells]
  cases p.endian <;> rfl

/-! ### The words of `dim` and `fmt` -/

/-- Joining a field to the bits below it is addition. -/
theorem shiftLeft_or_eq {b i : Nat} (h : b < 2 ^ i) (a : Nat) : a <<< i ||| b = 2 ^ i * a + b := by
  rw [Nat.shiftLeft_eq, Nat.mul_comm, Nat.two_pow_add_eq_or_of_lt h]

theorem dimWord_toNat {w h : Nat} (hw : w < 65536) (hh : h < 65536) : (dimWord w h).toNat = 65536 * h + w := by
  rw [dimWord, shiftLeft_or_eq hw, BitVec.toNat_ofNat]
  omega

/-- The fields of a dimension word (R71, R80). -/
theorem dimWord_fields {w h : Nat} (hw : w < 65536) (hh : h < 65536) :
    dimW (dimWord w h) = w ∧ dimH (dimWord w h) = h := by
  rw [dimW, dimH, extractLsb'_toNat_eq, extractLsb'_toNat_eq, dimWord_toNat hw hh]
  omega

/-- A bit of a field that is 0. -/
theorem getLsbD_of_extractLsb'_eq_zero {w : Word} {k n i : Nat} (h : w.extractLsb' k n = 0) (hlo : k ≤ i)
    (hhi : i < k + n) : w.getLsbD i = false := by
  have hbit : (w.extractLsb' k n).getLsbD (i - k) = false := by rw [h]; exact BitVec.getLsbD_zero
  have hin : i - k < n := by omega
  rwa [BitVec.getLsbD_extractLsb', decide_eq_true hin, Bool.true_and, Nat.add_sub_cancel' hlo] at hbit

/-- A format word whose reserved bits, 15:12 and 31:21, are 0 is stored as it is (R21). -/
theorem fmtMask_eq_self {w : Word} (h12 : w.extractLsb' 12 4 = 0) (h21 : w.extractLsb' 21 11 = 0) :
    fmtMask w = w := by
  have hmask : ∀ i < 32, (0x001F0FFF : Word).getLsbD i = true ∨ (12 ≤ i ∧ i < 12 + 4) ∨ 21 ≤ i := by decide
  refine BitVec.eq_of_getLsbD_eq fun i hi => ?_
  rw [fmtMask, BitVec.getLsbD_and]
  obtain hone | ⟨hlo, hhi⟩ | hlo := hmask i hi
  · rw [hone, Bool.and_true]
  · rw [getLsbD_of_extractLsb'_eq_zero h12 hlo hhi, Bool.false_and]
  · rw [getLsbD_of_extractLsb'_eq_zero h21 hlo hi, Bool.false_and]

/-- MC_PRESENT and MC as a number at bit 3 (R69). -/
def mcBits (mc : Option Nat) : Nat := mc.elim 0 fun m => 2 * m + 1

theorem mcBits_lt {mc : Option Nat} (h : ∀ m, mc = some m → m < 256) : mcBits mc < 512 := by
  cases mc with
  | none => decide
  | some m => have := h m rfl; simp only [mcBits, Option.elim]; omega

section Fmt
variable {sp rg depth : Nat} {mc : Option Nat} (hsp : sp < 4) (hrg : rg < 2) (hdepth : depth < 32)
  (hmc : ∀ m, mc = some m → m < 256)
include hsp hrg hdepth hmc

/-- The word of `fmt` as a number (R80). -/
theorem fmtWord_toNat : (fmtWord sp rg mc depth).toNat = 65536 * depth + 8 * mcBits mc + 4 * rg + sp := by
  have hlow : rg <<< 2 ||| sp = 4 * rg + sp := shiftLeft_or_eq hsp rg
  cases mc with
  | none =>
    rw [fmtWord, Nat.or_assoc, hlow, shiftLeft_or_eq (by omega), BitVec.toNat_ofNat]
    simp only [mcBits, Option.elim]
    omega
  | some m =>
    have hm := hmc m rfl
    have hpresent : 1 <<< 3 ||| (4 * rg + sp) = 8 * 1 + (4 * rg + sp) := shiftLeft_or_eq (by omega) 1
    have hcode : m <<< 4 ||| (8 * 1 + (4 * rg + sp)) = 16 * m + (8 * 1 + (4 * rg + sp)) := shiftLeft_or_eq (by omega) m
    rw [fmtWord, Nat.or_assoc, hlow, Nat.or_assoc, hpresent, Nat.or_assoc, hcode, shiftLeft_or_eq (by omega),
      BitVec.toNat_ofNat]
    simp only [mcBits, Option.elim]
    omega

/-- MC_PRESENT and MC hold the optional code (R69). -/
theorem fmtWord_mc : fmtMc (fmtWord sp rg mc depth) = mc := by
  have hn := fmtWord_toNat hsp hrg hdepth hmc
  cases mc with
  | none =>
    have hbit : (fmtWord sp rg none depth).getLsbD 3 = false :=
      getLsbD_of_toNat (by rw [hn]; simp only [mcBits, Option.elim, Bool.toNat_false]; omega)
    rw [fmtMc, hbit]
    rfl
  | some m =>
    have hm := hmc m rfl
    have hbit : (fmtWord sp rg (some m) depth).getLsbD 3 = true :=
      getLsbD_of_toNat (by rw [hn]; simp only [mcBits, Option.elim, Bool.toNat_true]; omega)
    rw [fmtMc, if_pos hbit, extractLsb'_toNat_eq, hn]
    simp only [mcBits, Option.elim, Option.some.injEq]
    omega

/-- RANGE holds the range code (R68). -/
theorem fmtWord_range : fmtRange (fmtWord sp rg mc depth) = if rg = 1 then .full else .limited := by
  have hbit : (fmtWord sp rg mc depth).getLsbD 2 = decide (rg = 1) :=
    getLsbD_of_toNat (by rw [fmtWord_toNat hsp hrg hdepth hmc, Bool.toNat, Bool.cond_decide]; split <;> omega)
  rw [fmtRange, hbit]
  simp only [decide_eq_true_eq]

/-- SAMPLING holds the sampling code (R67). -/
theorem fmtWord_sampling : fmtSampling (fmtWord sp rg mc depth) = samplingOf (BitVec.ofNat 2 sp) := by
  refine congrArg samplingOf (BitVec.eq_of_toNat_eq ?_)
  rw [extractLsb'_toNat_eq, fmtWord_toNat hsp hrg hdepth hmc, BitVec.toNat_ofNat]
  omega

/-- DEPTH holds the depth (R70). -/
theorem fmtWord_depth : fmtDepth (fmtWord sp rg mc depth) = depth := by
  have hlt := mcBits_lt hmc
  rw [fmtDepth, extractLsb'_toNat_eq, fmtWord_toNat hsp hrg hdepth hmc]
  omega

/-- No other bit is set (R21). -/
theorem fmtWord_masked : fmtMask (fmtWord sp rg mc depth) = fmtWord sp rg mc depth := by
  have hn := fmtWord_toNat hsp hrg hdepth hmc
  have hlt := mcBits_lt hmc
  exact fmtMask_eq_self (extractLsb'_eq_zero (by rw [hn]; omega)) (extractLsb'_eq_zero (by rw [hn]; omega))

end Fmt

/-- Without a matrix code the bits of MC are 0 (R80). -/
theorem fmtWord_none_mc {sp rg depth : Nat} (hsp : sp < 4) (hrg : rg < 2) (hdepth : depth < 32) :
    (fmtWord sp rg none depth).extractLsb' 4 8 = 0 := by
  have hn := fmtWord_toNat hsp hrg hdepth (mc := none) (fun _ h => by cases h)
  refine extractLsb'_eq_zero ?_
  rw [hn]
  simp only [mcBits, Option.elim]
  omega

/-! ### The statements -/

/-- The word of `cmd` for a command's opcode, A and P is the command's (R66). -/
theorem cmdWord_fields (i : Instr) : cmdWord i.fields.op i.fields.a i.fields.p = encode i := by
  have hres : i.fields.res = 0 := (i.fields.legal_iff.1 i.wellFormed_true).2.1
  rw [cmdWord, encode, ← hres]

/-- Settles O18: the turns of the stores by induction on their values, the other turns by definition, and the words
field by field from their numbers. -/
theorem pseudoInstructionsExpand : Obligations.PseudoInstructionsExpand := by
  refine ⟨fun p => ?_, cmdWord_fields, fun op a b => fieldsOf_pack _, fun w h => dimWord_fields,
    fun sp rg depth mc hsp hrg hdepth hmc => ?_⟩
  · exact ⟨fun _ _ => rfl, fun _ => rfl, fun _ _ _ => rfl, fun _ => rfl, fun _ _ _ _ => rfl, memB_turns p,
      memH_turns p, rfl, rfl, fun _ _ _ _ => rfl, fun _ _ _ _ => rfl, fun _ _ => rfl, fun _ _ => rfl⟩
  · exact ⟨fmtWord_sampling hsp hrg hdepth hmc, fmtWord_range hsp hrg hdepth hmc, fmtWord_mc hsp hrg hdepth hmc,
      fmtWord_depth hsp hrg hdepth hmc, fmtWord_masked hsp hrg hdepth hmc, fmtWord_none_mc hsp hrg hdepth⟩

end Sys2Proof.Machine
end

section
/-! PROOFS. The chroma samples that positions share, and the errors of UPSAMPLE and CONVERT in their priority (R84,
R87, R89, R90, R110, R150, R154). -/

namespace Sys2Proof.Machine

/-! ### The shared chroma sample -/

/-- U and V depend on a position through its chroma column and row alone (R85). -/
theorem upsample_chroma_congr {s : State} {m : Memory} {c : Chroma} {x y x' y' : Nat}
    (hx : chromaX c x = chromaX c x') (hy : chromaY c y = chromaY c y') :
    (upsample s m c x y).u = (upsample s m c x' y').u ∧ (upsample s m c x y).v = (upsample s m c x' y').v := by
  simp only [upsample, hx, hy, and_self]

/-- Both positions of a pair have the pair's chroma index (R84). -/
theorem pair_half {i d : Nat} (hd : d < 2) : (2 * i + d) / 2 = 2 * i / 2 := by omega

theorem half_lt_ceilHalf {x w : Nat} (h : x < w) : x / 2 < ceilHalf w := by
  unfold ceilHalf
  omega

/-- A luma column inside the frame has its chroma column inside the chroma planes (R46, R84). -/
theorem chromaX_lt_chromaW (c : Chroma) {x w : Nat} (h : x < w) : chromaX c x < chromaW c w := by
  cases c with
  | c444 => exact h
  | c420 => exact half_lt_ceilHalf h
  | c422 => exact half_lt_ceilHalf h

/-- A luma row inside the frame has its chroma row inside the chroma planes (R46, R84). -/
theorem chromaY_lt_chromaH (c : Chroma) {y h : Nat} (hy : y < h) : chromaY c y < chromaH c h := by
  cases c with
  | c444 => exact hy
  | c420 => exact half_lt_ceilHalf hy
  | c422 => exact hy

/-- Settles O54: the positions of a pair halve to one chroma index, and half an index is inside half the size. -/
theorem chromaIsShared : Obligations.ChromaIsShared := by
  refine ⟨fun s m i j dx dy hdx hdy => ?_, fun s m i y dx hdx => ?_, fun s c x y hx hy => ?_⟩
  · exact upsample_chroma_congr (pair_half hdx) (pair_half hdy)
  · exact upsample_chroma_congr (pair_half hdx) rfl
  · have hcol := chromaX_lt_chromaW c hx
    have hrow := chromaY_lt_chromaH c hy
    exact ⟨hcol, hrow, hcol, hrow⟩

/-! ### The checks of UPSAMPLE and CONVERT, in their order -/

theorem checkChroma_mono {f : Frame} (h : f.sampling = .mono) :
    checkChroma f = .error ⟨.invalidChromaFormat, .cu, 3⟩ := by
  simp only [checkChroma, h]

/-- What UNSUPPORTED_COLOR_METADATA says: the resolved code and the range, and 0 above them (R95, R148). -/
theorem checkMatrix_error_info {p : Params} {f : Frame} {d : Nat} {k : StageCode} {e : Err}
    (h : checkMatrix p f d k = .error e) :
    e.info.extractLsb' 0 8 = BitVec.ofNat 8 (resolveMc f.mc d) ∧
      e.info.getLsbD 8 = decide (f.range = .full) ∧ e.info.extractLsb' 9 23 = 0 := by
  have hinfo := mcInfo (resolveMc f.mc d) (decide (f.range = .full))
  simp only [decide_eq_true_eq] at hinfo
  unfold checkMatrix at h
  dsimp only at h
  split at h
  · cases h
  · cases h
    exact hinfo

section Priority
variable {s : State} {i : Instr} {c : Chroma}

/-- The depth is checked first (R90, R110). -/
theorem planOf_error_of_depth (hi : i = .upsample ∨ i = .convert) {e : Err}
    (h : checkDepth s.colorFrame .cu = .error e) : planOf i s = .error e := by
  obtain rfl | rfl := hi
  · simp only [planOf, planUpsample, h, error_bind]
  · simp only [planOf, planConvert, h, error_bind]

section LegalDepth
variable (hdepth : checkDepth s.colorFrame .cu = .ok ())
include hdepth

/-- The sampling is checked after the depth (R90, R110). -/
theorem planOf_error_of_chroma (hi : i = .upsample ∨ i = .convert) {e : Err}
    (h : checkChroma s.colorFrame = .error e) : planOf i s = .error e := by
  obtain rfl | rfl := hi
  · simp only [planOf, planUpsample, hdepth, h, ok_bind, error_bind]
  · simp only [planOf, planConvert, hdepth, h, ok_bind, error_bind]

/-- UPSAMPLE has no check between the sampling and the regions (R90). -/
theorem planUpsample_error_of_buffers (hc : checkChroma s.colorFrame = .ok c) {e : Err}
    (h : checkBuffers s.params (upsampleBufs s c) = .error e) : planUpsample s = .error e := by
  simp only [planUpsample, hdepth, hc, h, ok_bind, error_bind]

/-- CONVERT checks the matrix after the sampling (R110). -/
theorem planConvert_error_of_matrix (hc : checkChroma s.colorFrame = .ok c) {e : Err}
    (h : checkMatrix s.params s.colorFrame s.params.defaultMcColor .cscColor = .error e) :
    planConvert s = .error e := by
  simp only [planConvert, hdepth, hc, h, ok_bind, error_bind]

/-- CONVERT checks the regions last (R110). -/
theorem planConvert_error_of_buffers (hc : checkChroma s.colorFrame = .ok c) {mx : Nat × Matrix}
    (hmx : checkMatrix s.params s.colorFrame s.params.defaultMcColor .cscColor = .ok mx) {e : Err}
    (h : checkBuffers s.params (convertBufs s c) = .error e) : planConvert s = .error e := by
  simp only [planConvert, hdepth, hc, hmx, h, ok_bind, error_bind]

end LegalDepth
end Priority

/-- Settles O32: the first check that fails is the error of the plan, and the command raises it. -/
theorem colorCommandErrorPriority : Obligations.ColorCommandErrorPriority := by
  intro s
  have hne {i : Instr} (hi : i = .upsample ∨ i = .convert) : i ≠ .nop := by rintro rfl; simp at hi
  refine ⟨fun hbad i hi => exec_error (hne hi) (planOf_error_of_depth hi (colorDepthBad hbad)), fun hlo hhi => ?_⟩
  have hdepth : checkDepth s.colorFrame .cu = .ok () := checkDepth_good hlo hhi
  refine ⟨fun hmono i hi => exec_error (hne hi) (planOf_error_of_chroma hdepth hi (checkChroma_mono hmono)),
    fun c hsampling => ?_⟩
  have hc := checkChroma_ok_iff.2 hsampling
  refine ⟨fun e he => exec_error Instr.noConfusion (planUpsample_error_of_buffers hdepth hc he), fun hnone => ?_,
    fun mx hmx e he => exec_error Instr.noConfusion
      (planConvert_error_of_buffers hdepth hc (checkMatrix_good hmx) he)⟩
  have hbad := checkMatrix_bad (k := .cscColor) hnone
  obtain ⟨hcode, hstage⟩ := checkMatrix_error hbad
  exact ⟨_, exec_error Instr.noConfusion (planConvert_error_of_matrix hdepth hc hbad), hcode, hstage,
    checkMatrix_error_info hbad⟩

end Sys2Proof.Machine
end

section
/-! PROOFS. The gray path (R106 to R108): the errors of CONVERT_GRAY and EXTRACT_ALPHA in their priority, and what the
two commands leave in memory (R95, R111 to R113, R148, R150, R154). -/

namespace Sys2Proof.Machine

/-! ### The two gray commands as one -/

/-- What CONVERT_GRAY and EXTRACT_ALPHA have in common, up to the first access: a frame's luma plane `luma` becomes the
Gray image `dst` (R111, R112). -/
def planGray (p : Params) (f : Frame) (luma : Plane) (dst : Image) (ck : Option ImageKind) (ak : Option AlphaKind) :
    Except Err Plan := do
  checkDepth f .cscGray
  let m ← checkMatrix p f p.defaultMcGray .cscGray
  checkBuffers p [luma.buffer, dst.buffer true]
  return ⟨[luma.buffer, dst.buffer true], [grayPass p f luma dst m.1 m.2], ck, ak, none⟩

theorem planOf_convertGray (s : State) : planOf .convertGray s =
    planGray s.params s.colorFrame s.planeYC s.grayImage (some (grayKind s.colorFrame.depth).image) none := rfl

theorem planOf_extractAlpha (s : State) : planOf .extractAlpha s =
    planGray s.params s.alphaFrame s.planeYA s.alphaImage none (some (grayKind s.alphaFrame.depth)) := rfl

section Gray
variable {p : Params} {f : Frame} {luma : Plane} {dst : Image} {ck : Option ImageKind} {ak : Option AlphaKind}

theorem planGray_error_of_depth {e : Err} (h : checkDepth f .cscGray = .error e) :
    planGray p f luma dst ck ak = .error e := by
  simp only [planGray, h, error_bind]

theorem planGray_error_of_matrix {e : Err} (hdepth : checkDepth f .cscGray = .ok ())
    (h : checkMatrix p f p.defaultMcGray .cscGray = .error e) : planGray p f luma dst ck ak = .error e := by
  simp only [planGray, hdepth, h, ok_bind, error_bind]

theorem planGray_error_of_buffers {m : Nat × Matrix} {e : Err} (hdepth : checkDepth f .cscGray = .ok ())
    (hm : checkMatrix p f p.defaultMcGray .cscGray = .ok m)
    (h : checkBuffers p [luma.buffer, dst.buffer true] = .error e) : planGray p f luma dst ck ak = .error e := by
  simp only [planGray, hdepth, hm, h, ok_bind, error_bind]

theorem planGray_ok {m : Nat × Matrix} (hdepth : checkDepth f .cscGray = .ok ())
    (hm : checkMatrix p f p.defaultMcGray .cscGray = .ok m)
    (h : checkBuffers p [luma.buffer, dst.buffer true] = .ok ()) : planGray p f luma dst ck ak =
      .ok ⟨[luma.buffer, dst.buffer true], [grayPass p f luma dst m.1 m.2], ck, ak, none⟩ := by
  simp only [planGray, hdepth, hm, h, ok_bind, pure, Except.pure]

variable {i : Instr} {s : State} (hi : i ≠ .nop) (hplan : planOf i s = planGray s.params f luma dst ck ak)
  (hlo : 8 ≤ f.depth) (hhi : f.depth ≤ 16)
include hi hplan hlo hhi

/-- With a legal depth an unsupported matrix decides, then the regions (R154). -/
theorem exec_gray_errors :
    (matrixOf s.params (resolveMc f.mc s.params.defaultMcGray) = none →
      ∃ e, exec i s = .next (s.raise e) ∧ e.code = .unsupportedColorMetadata ∧ e.stage = .cscGray ∧
        e.info.extractLsb' 0 8 = BitVec.ofNat 8 (resolveMc f.mc s.params.defaultMcGray) ∧
        e.info.getLsbD 8 = decide (f.range = .full) ∧ e.info.extractLsb' 9 23 = 0) ∧
    ∀ mx, matrixOf s.params (resolveMc f.mc s.params.defaultMcGray) = some mx →
      ∀ e, checkBuffers s.params [luma.buffer, dst.buffer true] = .error e → exec i s = .next (s.raise e) := by
  have hdepth : checkDepth f .cscGray = .ok () := checkDepth_good hlo hhi
  refine ⟨fun hnone => ?_, fun mx hmx e he => exec_error hi
    (hplan.trans (planGray_error_of_buffers hdepth (checkMatrix_good hmx) he))⟩
  have hbad := checkMatrix_bad (k := .cscGray) hnone
  obtain ⟨hcode, hstage⟩ := checkMatrix_error hbad
  exact ⟨_, exec_error hi (hplan.trans (planGray_error_of_matrix hdepth hbad)), hcode, hstage,
    checkMatrix_error_info hbad⟩

/-- With all checks passed and every access admitted, the command completes, the image holds the gray value of every
luma sample, and every byte outside it is as it was. -/
theorem exec_gray_writes {mx : Matrix} (hw : s.params.wf = true)
    (hmx : matrixOf s.params (resolveMc f.mc s.params.defaultMcGray) = some mx)
    (hready : RegionsReady s.params [luma.buffer, dst.buffer true])
    (hok : BytesOk s.params (luma.touched ++ dst.touched)) (ht : s.tainted = false)
    (hch : dst.ch = 1) (hsize : dst.size = depthSize f.depth) (hdw : dst.w = f.w) (hdh : dst.h = f.h) :
    let mc := resolveMc f.mc s.params.defaultMcGray
    let z := depthSize f.depth
    ∃ m, exec i s = .next (s.completedWith (s.cfg.withKinds
        ⟨[luma.buffer, dst.buffer true], [grayPass s.params f luma dst mc mx], ck, ak, none⟩) m) ∧
      (∀ x y, x < f.w → y < f.h → m.readSample s.params.endian z (dst.base + (y * f.w + x) * z.bytes) =
        gray s.params f.depth f.range mc mx (luma.sample s.params.endian s.mem x y)) ∧
      ∀ a, a < dst.base ∨ dst.base + f.w * f.h * z.bytes ≤ a → m.read a = s.mem.read a :=
  ⟨_, exec_completes hi
      (hplan.trans (planGray_ok (checkDepth_good hlo hhi) (checkMatrix_good hmx) hready.checks))
      hready.mapsDevice (runPasses_one hok) ht,
    grayPass_result hw hch hsize hdw hdh⟩

end Gray

/-! ### CONVERT_GRAY and EXTRACT_ALPHA -/

/-- Settles O33: each of the two commands raises what the first failing check of its own frame says. -/
theorem grayCommandErrorPriority : Obligations.GrayCommandErrorPriority := by
  intro s
  refine ⟨fun hbad => exec_error Instr.noConfusion (planGray_error_of_depth (colorDepthBad hbad)),
    fun hbad => exec_error Instr.noConfusion (planGray_error_of_depth (alphaDepthBad hbad)), ?_, ?_⟩
  · exact exec_gray_errors Instr.noConfusion (planOf_convertGray s)
  · exact exec_gray_errors Instr.noConfusion (planOf_extractAlpha s)

/-- The code of the kind the gray commands produce (R74, R113). -/
theorem grayKind_codeWord (n : Nat) : BitVec.ofNat 32 (grayKind n).image.code = if n = 8 then 4 else 5 := by
  unfold grayKind; split <;> rfl

/-- Settles O41: the command completes, and its one stage leaves the gray value of every luma sample. -/
theorem convertGrayWritesGrayImage : Obligations.ConvertGrayWritesGrayImage := by
  intro s mx hw hlo hhi hmx hready hok ht e n z w h img
  obtain ⟨m, hexec, hwritten⟩ := exec_gray_writes Instr.noConfusion (planOf_convertGray s) hlo hhi hw hmx
    hready hok ht (grayKind_channels n) (grayKind_size n) rfl rfl
  rw [← grayKind_codeWord]
  exact ⟨m, hexec, hwritten⟩

/-- Settles O42: the command completes, and its one stage leaves the gray value of every alpha luma sample. -/
theorem extractAlphaWritesAlphaImage : Obligations.ExtractAlphaWritesAlphaImage := by
  intro s mx hw hlo hhi hmx hready hok ht e n z w h img
  obtain ⟨m, hexec, hwritten⟩ := exec_gray_writes Instr.noConfusion (planOf_extractAlpha s) hlo hhi hw hmx
    hready hok ht (grayKind_channels n) (grayKind_size n) rfl rfl
  rw [← grayKind_codeWord]
  exact ⟨m, hexec, hwritten⟩

end Sys2Proof.Machine
end

section
/-! PROOFS. The commands on frames without a pixel (R114): no region has a byte, so no check of the regions fails and no
stage accesses memory. -/

namespace Sys2Proof.Machine

/-! ### Plans without a byte -/

theorem Plan.not_uses_of_empty {p : Plan} (h : ∀ b ∈ p.bufs, b.nonempty = false) (a : Nat) : p.uses a ≠ true := by
  intro hu
  obtain ⟨b, hb, ha⟩ := List.any_eq_true.1 hu
  obtain ⟨hne, -⟩ := Buffer.has_iff.1 ha
  exact Bool.noConfusion ((h b hb).symm.trans hne)

/-- Stages that touch and store nothing leave memory as it is. -/
theorem runPasses_of_idle {p : Params} {ps : List Pass} {m : Memory}
    (h : ∀ q ∈ ps, q.touches m = [] ∧ q.cells m = []) : runPasses p ps m = .ok m := by
  induction ps with
  | nil => rfl
  | cons q rest ih =>
    obtain ⟨htouches, hcells⟩ := h q List.mem_cons_self
    rw [runPasses_cons (htouches ▸ ok_nil), hcells]
    exact ih fun r hr => h r (List.mem_cons_of_mem _ hr)

/-- A command all of whose regions are empty completes and changes no memory (R114). -/
theorem exec_completes_of_empty {i : Instr} {s : State} {p : Plan} (hi : i ≠ .nop) (hp : planOf i s = .ok p)
    (hempty : ∀ b ∈ p.bufs, b.nonempty = false) (ht : s.tainted = false) :
    exec i s = .next (s.completedWith (s.cfg.withKinds p) s.mem) := by
  have hnone := Plan.not_uses_of_empty hempty
  refine exec_completes hi hp (ready_of_empty hempty).mapsDevice (runPasses_of_idle fun q hq => ⟨?_, ?_⟩) ht
  · exact List.eq_nil_iff_forall_not_mem.2 fun a ha => hnone a (planOf_touchesInside hp q hq s.mem a ha)
  · exact List.eq_nil_iff_forall_not_mem.2 fun c hc =>
      hnone c.1 (Plan.uses_of_writes (planOf_storesInside hp q hq s.mem c hc))

theorem checks_of_empty {p : Params} {bufs : List Buffer} (h : ∀ b ∈ bufs, b.nonempty = false) :
    checkBuffers p bufs = .ok () := (ready_of_empty h).checks

/-! ### The regions of empty frames -/

section Regions
variable {s : State}

section Color
variable (h : s.colorFrame.w = 0 ∨ s.colorFrame.h = 0)
include h

theorem planeYC_empty : s.planeYC.buffer.nonempty = false := (planeEmpty h).1

theorem planeUC_empty (c : Chroma) : (s.planeUC c).buffer.nonempty = false := (planeEmpty (emptyChroma h)).1

theorem planeVC_empty (c : Chroma) : (s.planeVC c).buffer.nonempty = false := (planeEmpty (emptyChroma h)).1

theorem cimg_empty (k : ImageKind) (w : Bool) : ((s.cimg k).buffer w).nonempty = false := (imageEmpty h).1

theorem out_empty (k : ImageKind) (w : Bool) : ((s.out k).buffer w).nonempty = false := (imageEmpty h).1

theorem tri_empty : (s.tri.buffer true).nonempty = false := (imageEmpty h).1

theorem upsampleBufs_empty (c : Chroma) : ∀ b ∈ upsampleBufs s c, b.nonempty = false := by
  simp [upsampleBufs, planeYC_empty h, planeUC_empty h, planeVC_empty h, tri_empty h]

theorem convertBufs_empty (c : Chroma) : ∀ b ∈ convertBufs s c, b.nonempty = false := by
  simp [convertBufs, State.rgbImage, planeYC_empty h, planeUC_empty h, planeVC_empty h, cimg_empty h]

theorem convertGrayBufs_empty : ∀ b ∈ convertGrayBufs s, b.nonempty = false := by
  simp [convertGrayBufs, State.grayImage, planeYC_empty h, cimg_empty h]

theorem copyBufs_empty (k : ImageKind) : ∀ b ∈ copyBufs s k, b.nonempty = false := by
  simp [copyBufs, cimg_empty h, out_empty h]

theorem unpremulBufs_empty (k : ImageKind) : ∀ b ∈ unpremulBufs s k, b.nonempty = false := by
  simp [unpremulBufs, out_empty h]

theorem framePlaneBufs_empty : ∀ b ∈ framePlaneBufs s, b.nonempty = false := by
  unfold framePlaneBufs
  split <;> simp [planeYC_empty h, planeUC_empty h, planeVC_empty h]

theorem framePlainBufs_empty : ∀ b ∈ framePlainBufs s, b.nonempty = false := by
  simp only [framePlainBufs, State.frameCimg, List.forall_mem_append]
  exact ⟨framePlaneBufs_empty h, by simp [cimg_empty h, out_empty h]⟩

end Color

theorem planeYA_empty (h : s.alphaFrame.w = 0 ∨ s.alphaFrame.h = 0) : s.planeYA.buffer.nonempty = false :=
  (planeEmpty h).1

theorem aimg_empty (h : s.alphaFrame.w = 0 ∨ s.alphaFrame.h = 0) (k : AlphaKind) (w : Bool) :
    ((s.aimg k).buffer w).nonempty = false := (imageEmpty h).1

theorem extractAlphaBufs_empty (h : s.alphaFrame.w = 0 ∨ s.alphaFrame.h = 0) :
    ∀ b ∈ extractAlphaBufs s, b.nonempty = false := by
  simp [extractAlphaBufs, State.alphaImage, planeYA_empty h, aimg_empty h]

theorem blendBufs_empty (hc : s.colorFrame.w = 0 ∨ s.colorFrame.h = 0)
    (ha : s.alphaFrame.w = 0 ∨ s.alphaFrame.h = 0) (ck : ImageKind) (ak : AlphaKind) (rk : ImageKind) :
    ∀ b ∈ blendBufs s ck ak rk, b.nonempty = false := by
  simp [blendBufs, cimg_empty hc, aimg_empty ha, out_empty hc]

theorem frameAlphaBufs_empty (hc : s.colorFrame.w = 0 ∨ s.colorFrame.h = 0)
    (ha : s.alphaFrame.w = 0 ∨ s.alphaFrame.h = 0) (rk : ImageKind) :
    ∀ b ∈ frameAlphaBufs s rk, b.nonempty = false := by
  simp only [frameAlphaBufs, State.frameCimg, State.alphaImage, List.forall_mem_append]
  exact ⟨framePlaneBufs_empty hc, by simp [planeYA_empty ha, cimg_empty hc, aimg_empty ha, out_empty hc]⟩

end Regions

/-! ### The kinds the commands write -/

/-- The code in a kind register is the code of the kind it stands for (R74). -/
theorem kindOf_codeWord {c : BitVec 3} {k : ImageKind} (h : kindOf c = some k) :
    BitVec.ofNat 32 k.code = c.setWidth 32 := by
  rw [← kindOf_code h]
  exact BitVec.eq_of_toNat_eq (by simp)

/-- The table's result is Rgba8 where both samples have 8 bits, and Rgba16 otherwise (R123). -/
theorem compositeRow_codeWord {ck : ImageKind} {ak : AlphaKind} {row : Composition}
    (h : compositeRow ck ak = some row) :
    BitVec.ofNat 32 row.result.code = if ck.size = .one ∧ ak = .gray8 then 2 else 3 := by
  cases ck <;> cases ak <;> cases h <;> rfl

theorem grayKind_eq_gray8 {n : Nat} : grayKind n = .gray8 ↔ n = 8 := by
  unfold grayKind; split <;> simp_all

theorem frameColorKind_size (f : Frame) : (frameColorKind f).size = depthSize f.depth := by
  unfold frameColorKind
  split
  · exact grayKind_size _
  · exact rgbKind_size _

theorem depthSize_eq_one {n : Nat} : depthSize n = .one ↔ n = 8 := by
  unfold depthSize; split <;> simp_all

/-- FRAME never refuses its pair of kinds: its color image is no Rgba image (R121, R122, R142). -/
theorem frame_compositeRow (f : Frame) (ak : AlphaKind) : ∃ row, compositeRow (frameColorKind f) ak = some row := by
  unfold frameColorKind grayKind rgbKind
  split <;> split <;> cases ak <;> exact ⟨_, rfl⟩

theorem frame_resultWord {f : Frame} {n : Nat} {row : Composition}
    (h : compositeRow (frameColorKind f) (grayKind n) = some row) :
    BitVec.ofNat 32 row.result.code = if f.depth = 8 ∧ n = 8 then 2 else 3 := by
  simp only [compositeRow_codeWord h, frameColorKind_size, depthSize_eq_one, grayKind_eq_gray8]

/-- The code of FRAME's color kind (R113, R142). -/
theorem frameColorKind_codeWord (f : Frame) : BitVec.ofNat 32 (frameColorKind f).code =
    if f.sampling = .mono then (if f.depth = 8 then 4 else 5) else if f.depth = 8 then 0 else 1 := by
  unfold frameColorKind
  split
  · next h => rw [if_pos h, grayKind_codeWord]
  · next h => rw [if_neg (by simp [h]), rgbKind_codeWord]

/-- FRAME's matrix check, with the default that its routing picks (R93, R143). -/
theorem checkFrameMatrix_good {s : State} {mx : Matrix} (h : matrixOf s.params (resolveMc s.colorFrame.mc
      (if s.colorFrame.sampling = .mono then s.params.defaultMcGray else s.params.defaultMcColor)) = some mx) :
    ∃ m, checkFrameMatrix s = .ok m := by
  unfold checkFrameMatrix
  split
  · next hs => exact ⟨_, checkMatrix_good (by rwa [if_pos hs] at h)⟩
  · next hs => exact ⟨_, checkMatrix_good (by rwa [if_neg (by simp [hs])] at h)⟩

/-! ### Each command -/

section Commands
variable {s : State} (ht : s.tainted = false)
include ht

section Color
variable (hempty : s.colorFrame.w = 0 ∨ s.colorFrame.h = 0)
include hempty

theorem exec_upsample_of_empty (hdepth : 8 ≤ s.colorFrame.depth ∧ s.colorFrame.depth ≤ 16)
    (hsampling : s.colorFrame.sampling ≠ .mono) : exec .upsample s = .next (s.completedWith s.cfg s.mem) := by
  obtain ⟨c, hc⟩ := sampling_ne hsampling
  have hbufs := upsampleBufs_empty hempty c
  exact exec_completes_of_empty (i := .upsample) Instr.noConfusion
    (planUpsample_ok_iff.2 ⟨depthLegal_iff.2 hdepth, c, hc, checks_of_empty hbufs, rfl⟩) hbufs ht

theorem exec_convert_of_empty (hdepth : 8 ≤ s.colorFrame.depth ∧ s.colorFrame.depth ≤ 16)
    (hsampling : s.colorFrame.sampling ≠ .mono)
    (hmc : mcSupported s.params (resolveMc s.colorFrame.mc s.params.defaultMcColor) = true) :
    exec .convert s = .next (s.completedWith
      { s.cfg with cimgKind := if s.colorFrame.depth = 8 then 0 else 1 } s.mem) := by
  obtain ⟨c, hc⟩ := sampling_ne hsampling
  obtain ⟨mx, hmx⟩ := mcS'.1 hmc
  have hbufs := convertBufs_empty hempty c
  rw [← rgbKind_codeWord]
  exact exec_completes_of_empty (i := .convert) Instr.noConfusion (planConvert_ok_iff.2
    ⟨depthLegal_iff.2 hdepth, c, hc, (_, mx), ⟨rfl, hmx⟩, checks_of_empty hbufs, rfl⟩) hbufs ht

theorem exec_convertGray_of_empty (hdepth : 8 ≤ s.colorFrame.depth ∧ s.colorFrame.depth ≤ 16)
    (hmc : mcSupported s.params (resolveMc s.colorFrame.mc s.params.defaultMcGray) = true) :
    exec .convertGray s = .next (s.completedWith
      { s.cfg with cimgKind := if s.colorFrame.depth = 8 then 4 else 5 } s.mem) := by
  obtain ⟨mx, hmx⟩ := mcS'.1 hmc
  have hbufs := convertGrayBufs_empty hempty
  rw [← grayKind_codeWord]
  exact exec_completes_of_empty (i := .convertGray) Instr.noConfusion (planConvertGray_ok_iff.2
    ⟨depthLegal_iff.2 hdepth, (_, mx), ⟨rfl, hmx⟩, checks_of_empty hbufs, rfl⟩) hbufs ht

theorem exec_copy_of_empty {k : ImageKind} (hk : kindOf (kindCode s.cfg.cimgKind) = some k) :
    exec (.composite false) s = .next (s.completedWith
      { s.cfg with outKind := (kindCode s.cfg.cimgKind).setWidth 32 } s.mem) := by
  have hbufs := copyBufs_empty hempty k
  rw [← kindOf_codeWord hk]
  exact exec_completes_of_empty (i := .composite false) Instr.noConfusion
    (planCopy_ok_iff.2 ⟨k, hk, checks_of_empty hbufs, rfl⟩) hbufs ht

theorem exec_blend_of_empty (hw : s.colorFrame.w = s.alphaFrame.w) (hh : s.colorFrame.h = s.alphaFrame.h)
    {ck : ImageKind} {ak : AlphaKind} {row : Composition} (hck : kindOf (kindCode s.cfg.cimgKind) = some ck)
    (hak : alphaKindOf (kindCode s.cfg.aimgKind) = some ak) (hrow : compositeRow ck ak = some row) :
    exec (.composite true) s = .next (s.completedWith
      { s.cfg with outKind := if ck.size = .one ∧ ak = .gray8 then 2 else 3 } s.mem) := by
  have hbufs := blendBufs_empty hempty (hw ▸ hh ▸ hempty) ck ak row.result
  rw [← compositeRow_codeWord hrow]
  exact exec_completes_of_empty (i := .composite true) Instr.noConfusion (planBlend_ok_iff.2
    ⟨ck, hck, ak, hak, ⟨hw, hh⟩, row, hrow, checks_of_empty hbufs, rfl⟩) hbufs ht

theorem exec_unpremultiply_of_empty (hk : kindCode s.cfg.outKind = 2 ∨ kindCode s.cfg.outKind = 3) :
    exec .unpremultiply s = .next (s.completedWith s.cfg s.mem) := by
  have hkind : ∃ k, (k = .rgba8 ∨ k = .rgba16) ∧ kindOf (kindCode s.cfg.outKind) = some k := by
    obtain hk | hk := hk
    · exact ⟨.rgba8, .inl rfl, by rw [hk]; rfl⟩
    · exact ⟨.rgba16, .inr rfl, by rw [hk]; rfl⟩
  obtain ⟨k, hk⟩ := hkind
  have hbufs := unpremulBufs_empty hempty k
  exact exec_completes_of_empty (i := .unpremultiply) Instr.noConfusion (planUnpremultiply_ok_iff.2
    ⟨k, hk, (ready_of_empty hbufs).geometry, rfl⟩) hbufs ht

section Frame
variable (hdepth : 8 ≤ s.colorFrame.depth ∧ s.colorFrame.depth ≤ 16)
  (hmc : mcSupported s.params (resolveMc s.colorFrame.mc (if s.colorFrame.sampling = .mono then
    s.params.defaultMcGray else s.params.defaultMcColor)) = true)
include hdepth hmc

theorem exec_framePlain_of_empty (p : Bool) : exec (.frame false p) s = .next (s.completedWith
    { s.cfg with
      cimgKind := BitVec.ofNat 32 (frameColorKind s.colorFrame).code
      outKind := BitVec.ofNat 32 (frameColorKind s.colorFrame).code } s.mem) := by
  obtain ⟨mx, hmx⟩ := mcS'.1 hmc
  obtain ⟨m, hm⟩ := checkFrameMatrix_good hmx
  have hbufs := framePlainBufs_empty hempty
  exact exec_completes_of_empty (i := .frame false p) Instr.noConfusion (planFramePlain_ok_iff.2
    ⟨depthLegal_iff.2 hdepth, m, hm, checks_of_empty hbufs, rfl⟩) hbufs ht

theorem exec_frameAlpha_of_empty (p : Bool) (hw : s.colorFrame.w = s.alphaFrame.w)
    (hh : s.colorFrame.h = s.alphaFrame.h) (hadepth : 8 ≤ s.alphaFrame.depth ∧ s.alphaFrame.depth ≤ 16)
    (hamc : mcSupported s.params (resolveMc s.alphaFrame.mc s.params.defaultMcGray) = true) :
    exec (.frame true p) s = .next (s.completedWith
      { s.cfg with
        cimgKind := BitVec.ofNat 32 (frameColorKind s.colorFrame).code
        aimgKind := if s.alphaFrame.depth = 8 then 4 else 5
        outKind := if s.colorFrame.depth = 8 ∧ s.alphaFrame.depth = 8 then 2 else 3 } s.mem) := by
  obtain ⟨mx, hmx⟩ := mcS'.1 hmc
  obtain ⟨m, hm⟩ := checkFrameMatrix_good hmx
  obtain ⟨ma, hma⟩ := mcS'.1 hamc
  obtain ⟨row, hrow⟩ := frame_compositeRow s.colorFrame (grayKind s.alphaFrame.depth)
  have hbufs := frameAlphaBufs_empty hempty (hw ▸ hh ▸ hempty) row.result
  rw [← grayKind_codeWord, ← frame_resultWord hrow]
  exact exec_completes_of_empty (i := .frame true p) Instr.noConfusion (planFrameAlpha_ok_iff.2
    ⟨depthLegal_iff.2 hadepth, depthLegal_iff.2 hdepth, (_, ma), ⟨rfl, hma⟩, m, hm, ⟨hw, hh⟩, row, hrow,
      checks_of_empty hbufs, rfl⟩) hbufs ht

end Frame
end Color

theorem exec_extractAlpha_of_empty (hempty : s.alphaFrame.w = 0 ∨ s.alphaFrame.h = 0)
    (hdepth : 8 ≤ s.alphaFrame.depth ∧ s.alphaFrame.depth ≤ 16)
    (hmc : mcSupported s.params (resolveMc s.alphaFrame.mc s.params.defaultMcGray) = true) :
    exec .extractAlpha s = .next (s.completedWith
      { s.cfg with aimgKind := if s.alphaFrame.depth = 8 then 4 else 5 } s.mem) := by
  obtain ⟨mx, hmx⟩ := mcS'.1 hmc
  have hbufs := extractAlphaBufs_empty hempty
  rw [← grayKind_codeWord]
  exact exec_completes_of_empty (i := .extractAlpha) Instr.noConfusion (planExtractAlpha_ok_iff.2
    ⟨depthLegal_iff.2 hdepth, (_, mx), ⟨rfl, hmx⟩, checks_of_empty hbufs, rfl⟩) hbufs ht

end Commands

/-- Settles O49: a command on empty frames has only empty regions, so it completes with its kinds and stores nothing. -/
theorem emptyFramesComplete : Obligations.EmptyFramesComplete := by
  intro s ht
  refine ⟨exec_upsample_of_empty ht, exec_convert_of_empty ht, exec_convertGray_of_empty ht,
    exec_extractAlpha_of_empty ht, fun hempty k => exec_copy_of_empty ht hempty,
    fun hempty hw hh ck ak row => exec_blend_of_empty ht hempty hw hh, exec_unpremultiply_of_empty ht,
    fun hempty hdepth hmc p => ?_⟩
  dsimp only
  rw [← frameColorKind_codeWord]
  exact ⟨exec_framePlain_of_empty ht hempty hdepth hmc p, exec_frameAlpha_of_empty ht hempty hdepth hmc p⟩

end Sys2Proof.Machine
end

section
/-! PROOFS. CSC_REF over the exact rationals (R96 to R103), its gray channel (R107), and how a frame's matrix code
resolves (R94, R95, R99, R100). -/

namespace Sys2Proof.Machine

/-! ### CSC_REF -/

/-- The working values CSC_REF takes a triple to (R96 to R98). -/
def workingOf (n : Nat) (range : ColorRange) (t : Yuv) : Working :=
  match range with
  | .full => denormFull n (clampIn n t)
  | .limited => denormLimited n (clampIn n t)

theorem cscRef_identity (n : Nat) (range : ColorRange) (t : Yuv) : cscRef n range .identity t =
    ⟨quantize (mOut n) (workingOf n range t).yn, quantize (mOut n) (workingOf n range t).yn,
      quantize (mOut n) (workingOf n range t).yn⟩ := by
  cases range <;> rfl

theorem cscRef_ncl (n : Nat) (range : ColorRange) (k : KrKb) (t : Yuv) : cscRef n range (.ncl k) t =
    ⟨quantize (mOut n) (nclR k (workingOf n range t)), quantize (mOut n) (nclG k (workingOf n range t)),
      quantize (mOut n) (nclB k (workingOf n range t))⟩ := by
  cases range <;> rfl

/-- Settles O50: the fractions CSC_REF computes stand for the rationals of the rules, and quantizing rounds those. -/
theorem referenceConversionIsExact : Obligations.ReferenceConversionIsExact := by
  intro n range t hlo hhi mIn mOut y u v sc yn pb pr q
  obtain ⟨hden, (hyn : (workingOf n range t).yn.val = yn), (hpb : (workingOf n range t).pb.val = pb),
    (hpr : (workingOf n range t).pr.val = pr)⟩ := working_vals n range t hlo
  obtain ⟨hidentity, hncl⟩ := ref_core n (workingOf n range t) hden
  simp only [hyn, hpb, hpr] at hidentity hncl
  rw [cscRef_identity]
  refine ⟨⟨hidentity, hidentity, hidentity⟩, fun k hd hk => ?_⟩
  rw [cscRef_ncl]
  exact hncl k hd hk

/-- Settles O52: at neutral chroma every matrix gives Yn on the green channel, as Identity does. -/
theorem grayIgnoresMatrix : Obligations.GrayIgnoresMatrix := by
  refine ⟨fun n range k y hlo _ hd hk => ?_, fun y hy => ?_, by decide, by decide⟩
  · rw [cscRef_neutral n range y hlo hd hk]
  · rw [cscRef_identityFull8 hy]

/-! ### The matrix of a frame -/

/-- The stage's default stands in for an absent code and for code 2 (R94). -/
theorem resolveMc_fmtMc_default {w : Word} (d : Nat) (h : w.getLsbD 3 = false ∨ (w.extractLsb' 4 8).toNat = 2) :
    resolveMc (fmtMc w) d = d := by
  unfold fmtMc
  split
  · next hpresent =>
    obtain habsent | hcode := h
    · rw [hpresent] at habsent; cases habsent
    · exact if_pos hcode
  · rfl

theorem resolveMc_fmtMc_code {w : Word} (d : Nat) (hpresent : w.getLsbD 3 = true)
    (hcode : (w.extractLsb' 4 8).toNat ≠ 2) : resolveMc (fmtMc w) d = (w.extractLsb' 4 8).toNat := by
  rw [fmtMc, if_pos hpresent]
  exact if_neg hcode

theorem checkMatrix_passes_iff {p : Params} {f : Frame} {d : Nat} {k : StageCode} :
    (∃ m, checkMatrix p f d k = .ok m) ↔ mcSupported p (resolveMc f.mc d) = true := by
  rw [mcS']
  constructor
  · rintro ⟨⟨mc, mx⟩, h⟩
    obtain ⟨rfl, hmx⟩ := checkMatrix_ok_iff.1 h
    exact ⟨mx, hmx⟩
  · rintro ⟨mx, hmx⟩
    exact ⟨_, checkMatrix_good hmx⟩

/-- `MC_SUPPORTED` is Identity, where the parameters have it, and the listed codes from 1 to 31 (R8, R33, R95). -/
theorem mcSupported_iff {p : Params} {mc : Nat} : mcSupported p mc = true ↔
    (mc = 0 ∧ p.identity = true) ∨ (0 < mc ∧ mc < 32 ∧ ∃ e ∈ p.krkb, e.code = mc) := by
  unfold mcSupported matrixOf
  by_cases h0 : mc = 0
  · cases hid : p.identity <;> simp [h0]
  · by_cases h32 : mc < 32
    · simp [h0, h32, Nat.pos_of_ne_zero h0]
    · simp [h0, h32]

theorem matrixOf_cases {p : Params} {mc : Nat} {mx : Matrix} (h : matrixOf p mc = some mx) :
    (mc = 0 ∧ mx = .identity) ∨ (0 < mc ∧ ∃ e ∈ p.krkb, e.code = mc ∧ mx = .ncl e) := by
  obtain rfl | hpos := Nat.eq_zero_or_pos mc
  · exact .inl ⟨rfl, matrixOf_zero h⟩
  · exact .inr ⟨hpos, matrixOf_ncl h hpos.ne'⟩

/-- Settles O53: the check looks the resolved code up in the parameters, and the default table is R100's. -/
theorem matrixResolution : Obligations.MatrixResolution := by
  refine ⟨fun w d => resolveMc_fmtMc_default d, fun w d => resolveMc_fmtMc_code d, fun p f d k =>
    ⟨checkMatrix_passes_iff, fun e he => ?_, fun mc => mcSupported_iff, fun r => checkMatrix_ok_iff.1,
      fun mc mx => matrixOf_cases, rfl, ?_, ?_, ?_, ?_, rfl, rfl⟩⟩
  · obtain ⟨hcode, hstage⟩ := checkMatrix_error he
    exact ⟨hcode, hstage, checkMatrix_error_info he⟩
  · exact ⟨⟨1, 2126, 722, 10000⟩, rfl, by norm_num, by norm_num⟩
  · exact ⟨⟨5, 299, 114, 1000⟩, rfl, by norm_num, by norm_num⟩
  · exact ⟨⟨6, 299, 114, 1000⟩, rfl, by norm_num, by norm_num⟩
  · exact ⟨⟨9, 2627, 593, 10000⟩, rfl, by norm_num, by norm_num⟩

end Sys2Proof.Machine
end

section
/-! PROOFS. The compositor: widening and the compositing table, the errors of COMPOSITE in their priority, and what its
two forms leave in memory (R116 to R124, R127, R148, R151, R154). -/

namespace Sys2Proof.Machine

/-! ### Widening and the table -/

/-- On 8-bit samples, replicating the bits is multiplying by 257 (R116). -/
theorem widen_eq_mul {v : Nat} (h : v < 256) : widen v = v * 257 := by
  rw [widen, shiftLeft_or_eq (i := 8) h]
  omega

/-- Settles O55: below 256 widening is multiplication by 257, from which its laws are arithmetic. -/
theorem wideningLaws : Obligations.WideningLaws := by
  refine ⟨rfl, rfl, rfl, fun v hv => ⟨rfl, widen_eq_mul hv, widen_lt hv, ?_⟩, fun v w hvw hw => ?_⟩
  · rw [widen_eq_mul hv, Nat.shiftRight_eq_div_pow]
    omega
  · rw [widen_eq_mul hw, widen_eq_mul (hvw.trans hw)]
    omega

/-- Settles O44: each of the twelve rows is the definition's own. -/
theorem compositingTable : Obligations.CompositingTable := fun _ _ =>
  ⟨rfl, rfl, rfl, rfl, rfl, rfl, rfl, rfl, rfl, rfl, rfl, rfl⟩

/-- The rows without a result (R121, R122). -/
theorem compositeRow_eq_none_iff {ck : ImageKind} {ak : AlphaKind} : compositeRow ck ak = none ↔
    (ck = .rgba8 ∧ ak = .gray16) ∨ (ck = .rgba16 ∧ ak = .gray16) ∨ (ck = .rgba16 ∧ ak = .gray8) := by
  cases ck <;> cases ak <;> simp [compositeRow]

/-- The result has 8-bit samples exactly where both inputs have (R124). -/
theorem compositeRow_result_rgba8 {ck : ImageKind} {ak : AlphaKind} {row : Composition}
    (h : compositeRow ck ak = some row) : row.result = .rgba8 ↔ ck.size = .one ∧ ak = .gray8 := by
  cases ck <;> cases ak <;> cases h <;> decide

/-! ### The checks of COMPOSITE, in their order -/

section Checks
variable {s : State}

theorem checkCimgKind_reserved (h : kindOf (kindCode s.cfg.cimgKind) = none) : checkCimgKind s =
    .error ⟨.invalidImageKind, .ac, BitVec.ofNat 32 ((kindCode s.cfg.cimgKind).toNat + 0x044 * 65536)⟩ := by
  rw [← kindInfo_eq 0x044 (by decide)]
  simp only [checkCimgKind, h]

theorem checkAimgKind_illegal (h : alphaKindOf (kindCode s.cfg.aimgKind) = none) : checkAimgKind s =
    .error ⟨.invalidImageKind, .ac, BitVec.ofNat 32 ((kindCode s.cfg.aimgKind).toNat + 0x04C * 65536)⟩ := by
  rw [← kindInfo_eq 0x04C (by decide)]
  simp only [checkAimgKind, h]

theorem checkDims_mismatch (h : ¬ (s.colorFrame.w = s.alphaFrame.w ∧ s.colorFrame.h = s.alphaFrame.h)) :
    checkDims s = .error ⟨.dimensionMismatch, .ac, s.cfg.aDim⟩ := if_neg h

/-- The two kinds of CONTRACT_VIOLATION's info do not overlap (R148). -/
theorem contractInfo_eq (ck : ImageKind) (ak : AlphaKind) :
    BitVec.ofNat 32 ck.code ||| (BitVec.ofNat 32 ak.image.code <<< 4) =
      BitVec.ofNat 32 (ck.code + 16 * ak.image.code) := by
  cases ck <;> cases ak <;> rfl

theorem checkRow_none {ck : ImageKind} {ak : AlphaKind} (h : compositeRow ck ak = none) : checkRow ck ak =
    .error ⟨.contractViolation, .ac, BitVec.ofNat 32 (ck.code + 16 * ak.image.code)⟩ := by
  rw [← contractInfo_eq]
  simp only [checkRow, h]

variable {e : Err}

/-- Both forms check CIMG_KIND first (R127). -/
theorem planComposite_error_of_cimgKind (a : Bool) (h : checkCimgKind s = .error e) :
    planComposite a s = .error e := by
  simp only [planComposite, planCopy, planBlend, h, error_bind, ite_self]

variable {ck : ImageKind} (hck : checkCimgKind s = .ok ck)
include hck

/-- Without alpha the regions are checked next (R127). -/
theorem planCopy_error_of_buffers (h : checkBuffers s.params (copyBufs s ck) = .error e) : planCopy s = .error e := by
  simp only [planCopy, hck, h, ok_bind, error_bind]

/-- With alpha AIMG_KIND is checked after CIMG_KIND (R154). -/
theorem planBlend_error_of_aimgKind (h : checkAimgKind s = .error e) : planBlend s = .error e := by
  simp only [planBlend, hck, h, ok_bind, error_bind]

variable {ak : AlphaKind} (hak : checkAimgKind s = .ok ak)
include hak

/-- The dimensions are checked after the kinds (R154). -/
theorem planBlend_error_of_dims (h : checkDims s = .error e) : planBlend s = .error e := by
  simp only [planBlend, hck, hak, h, ok_bind, error_bind]

variable (hdims : checkDims s = .ok ())
include hdims

/-- The pair of kinds is checked after the dimensions (R154). -/
theorem planBlend_error_of_row (h : checkRow ck ak = .error e) : planBlend s = .error e := by
  simp only [planBlend, hck, hak, hdims, h, ok_bind, error_bind]

/-- The regions are checked last (R154). -/
theorem planBlend_error_of_buffers {row : Composition} (hrow : checkRow ck ak = .ok row)
    (h : checkBuffers s.params (blendBufs s ck ak row.result) = .error e) : planBlend s = .error e := by
  simp only [planBlend, hck, hak, hdims, hrow, h, ok_bind, error_bind]

end Checks

/-- Settles O34: the first check that fails is the error of the plan, and the command raises it. -/
theorem compositeErrorPriority : Obligations.CompositeErrorPriority := by
  intro s
  have hraise {a : Bool} {e : Err} (h : planComposite a s = .error e) :
      exec (.composite a) s = .next (s.raise e) := exec_error Instr.noConfusion h
  refine ⟨fun hnone a => hraise (planComposite_error_of_cimgKind a (checkCimgKind_reserved hnone)),
    fun ck hkind => ?_⟩
  have hck := checkCimgKind_ok_iff.2 hkind
  refine ⟨fun e he => hraise (planCopy_error_of_buffers hck he),
    fun hnone => hraise (planBlend_error_of_aimgKind hck (checkAimgKind_illegal hnone)), fun ak hkind' => ?_⟩
  have hak := checkAimgKind_ok_iff.2 hkind'
  refine ⟨fun hne => hraise (planBlend_error_of_dims hck hak (checkDims_mismatch hne)), fun hw hh hpair => ?_,
    fun hw hh row hrow e he => ?_⟩
  · have hrow := checkRow_none (compositeRow_eq_none_iff.2 hpair)
    exact hraise (planBlend_error_of_row hck hak (checkDims_ok_iff.2 ⟨hw, hh⟩) hrow)
  · have hrow' := checkRow_ok_iff.2 hrow
    exact hraise (planBlend_error_of_buffers hck hak (checkDims_ok_iff.2 ⟨hw, hh⟩) hrow' he)

/-! ### COMPOSITE without alpha -/

/-- A copy leaves every byte outside its destination alone (R118). -/
theorem copyPass_read_outside {src dst : Image} {m : Memory} {a : Nat}
    (ha : a < dst.base ∨ dst.base + src.bytes ≤ a) :
    (m.writeAll ((copyPass src dst).cells m)).read a = m.read a := by
  refine Memory.read_writeAll_other _ _ _ fun c hc => ?_
  obtain ⟨j, hj, rfl⟩ := List.mem_map.1 hc
  have hj := List.mem_range.1 hj
  dsimp only
  omega

theorem exec_copy_completes {s : State} {ck : ImageKind} (hkind : kindOf (kindCode s.cfg.cimgKind) = some ck)
    (hready : RegionsReady s.params (copyBufs s ck))
    (hok : BytesOk s.params ((s.cimg ck).touched ++ (s.out ck).touched)) (ht : s.tainted = false) :
    exec (.composite false) s = .next (s.completedWith { s.cfg with outKind := BitVec.ofNat 32 ck.code }
      (s.mem.writeAll ((copyPass (s.cimg ck) (s.out ck)).cells s.mem))) :=
  exec_completes (i := .composite false) Instr.noConfusion
    (planCopy_ok_iff.2 ⟨ck, hkind, hready.checks, rfl⟩) hready.mapsDevice (runPasses_one hok) ht

/-- Settles O43: the command completes, and its one stage copies the bytes of CIMG and stores no others. -/
theorem compositeWithoutAlphaCopies : Obligations.CompositeWithoutAlphaCopies := by
  intro s ck hkind hready hok ht len
  rw [kindOf_code hkind]
  exact ⟨_, exec_copy_completes hkind hready hok ht, fun j hj => copyPass_read (src := s.cimg ck) hj,
    fun a ha => copyPass_read_outside (src := s.cimg ck) (dst := s.out ck) ha⟩

/-! ### COMPOSITE with alpha -/

section Blend
variable {s : State} {ck : ImageKind} {ak : AlphaKind} {row : Composition} (hrow : compositeRow ck ak = some row)
include hrow

/-- The pixel of the row that COMPOSITE makes of pixel number k (R123). -/
theorem blendPass_sample (e : Endian) (m : Memory) {k c : Nat} (hk : k < s.colorFrame.w * s.colorFrame.h)
    (hc : c < 4) :
    (row.pixel ((s.cimg ck).sample e m k) ((s.aimg ak).sample e m k 0))[c]? =
      some ((s.out row.result).sample e
        (m.writeAll ((blendPass e (s.cimg ck) (s.aimg ak) (s.out row.result) row).cells m)) k c) := by
  have hlen : ∀ j, (row.pixel ((s.cimg ck).sample e m j) ((s.aimg ak).sample e m j 0)).length = 4 :=
    fun _ => (compositeRow_rgba hrow).1 _ _
  obtain ⟨v, hv⟩ : ∃ v, (row.pixel ((s.cimg ck).sample e m k) ((s.aimg ak).sample e m k 0))[c]? = some v :=
    ⟨_, List.getElem?_eq_getElem ((hlen k).symm ▸ hc)⟩
  have hfits : v < 256 ^ row.result.size.bytes := row_lt hrow (fun _ => Memory.readSample_lt ..)
    (Memory.readSample_lt ..) v (List.mem_of_getElem? hv)
  have hsample := Image.sample_runCells (i := s.out row.result) (e := e) (m := m)
    (fun j => (hlen j).trans (compositeRow_channels hrow).symm) hk hv
  exact hv.trans (congrArg some (hsample.trans (Nat.mod_eq_of_lt hfits)).symm)

/-- Blending leaves every byte outside OUT alone (R123). -/
theorem blendPass_read_outside (e : Endian) (m : Memory) {a : Nat} (ha : a < s.cfg.outBase.toNat ∨
    s.cfg.outBase.toNat + s.colorFrame.w * s.colorFrame.h * 4 * row.result.size.bytes ≤ a) :
    (m.writeAll ((blendPass e (s.cimg ck) (s.aimg ak) (s.out row.result) row).cells m)).read a = m.read a := by
  refine Memory.read_runCells_other m e _ _ _ a ?_
  rw [blendSamples, length_flatMap_range fun _ => (compositeRow_rgba hrow).1 _ _]
  exact ha

theorem exec_blend_completes (hck : kindOf (kindCode s.cfg.cimgKind) = some ck)
    (hak : alphaKindOf (kindCode s.cfg.aimgKind) = some ak) (hw : s.colorFrame.w = s.alphaFrame.w)
    (hh : s.colorFrame.h = s.alphaFrame.h) (hready : RegionsReady s.params (blendBufs s ck ak row.result))
    (hok : BytesOk s.params ((s.cimg ck).touched ++ (s.aimg ak).touched ++ (s.out row.result).touched))
    (ht : s.tainted = false) :
    exec (.composite true) s = .next (s.completedWith { s.cfg with outKind := BitVec.ofNat 32 row.result.code }
      (s.mem.writeAll
        ((blendPass s.params.endian (s.cimg ck) (s.aimg ak) (s.out row.result) row).cells s.mem))) :=
  exec_completes (i := .composite true) Instr.noConfusion
    (planBlend_ok_iff.2 ⟨ck, hck, ak, hak, ⟨hw, hh⟩, row, hrow, hready.checks, rfl⟩) hready.mapsDevice
    (runPasses_one hok) ht

end Blend

/-- An AlphaImage has one sample a pixel (R47). -/
theorem aimg_sample (s : State) (ak : AlphaKind) (e : Endian) (m : Memory) (k : Nat) : (s.aimg ak).sample e m k 0 =
    m.readSample e ak.image.size (s.cfg.aimgBase.toNat + k * ak.image.size.bytes) := by
  cases ak <;> simp [Image.sample, Image.addr, State.aimg, imageOf, AlphaKind.image, ImageKind.channels]

/-- Each channel of OUT lies where the layout of a four-channel image puts it (R47). -/
theorem out_sample_rgba {ck : ImageKind} {ak : AlphaKind} {row : Composition} (hrow : compositeRow ck ak = some row)
    (s : State) (e : Endian) (m : Memory) (k c : Nat) : (s.out row.result).sample e m k c =
      m.readSample e row.result.size (s.cfg.outBase.toNat + (k * 4 + c) * row.result.size.bytes) := by
  rw [← compositeRow_channels hrow]
  rfl

/-- Settles O45: the command completes, and its one stage leaves the row's pixel at every pixel of OUT. -/
theorem compositeWithAlphaBlends : Obligations.CompositeWithAlphaBlends := by
  intro s ck ak row hck hak hw hh hrow hready hok ht e zr out npx
  refine ⟨_, exec_blend_completes hrow hck hak hw hh hready hok ht, compositeRow_result_rgba8 hrow,
    fun k c hk hc => ?_, fun a ha => blendPass_read_outside hrow e s.mem ha⟩
  have hpixel := blendPass_sample hrow e s.mem hk hc
  rw [aimg_sample, out_sample_rgba hrow] at hpixel
  exact hpixel

end Sys2Proof.Machine
end

section
/-! PROOFS. The unpremultiply stage: the errors of UNPREMULTIPLY, what it leaves in memory, and the arithmetic of the
round trip through an alpha (R11, R129 to R135). -/

namespace Sys2Proof.Machine

/-! ### Round half up -/

theorem le_rhu_iff {n d q : Nat} (hd : 0 < d) : q ≤ rhu n d ↔ 2 * d * q ≤ 2 * n + d := by
  rw [rhu, Nat.le_div_iff_mul_le (by omega), Nat.mul_comm]

theorem rhu_lt_iff {n d q : Nat} (hd : 0 < d) : rhu n d < q ↔ 2 * n + d < 2 * d * q := by
  rw [← Nat.not_le, le_rhu_iff hd, Nat.not_le]

/-- A whole quotient needs no rounding. -/
theorem rhu_mul_self {d : Nat} (v : Nat) (hd : 0 < d) : rhu (v * d) d = v := by
  refine le_antisymm (Nat.le_of_lt_succ ((rhu_lt_iff hd).2 ?_)) ((le_rhu_iff hd).2 ?_)
  · linarith
  · linarith

/-! ### Unpremultiplying -/

/-- A channel that is not below its alpha reaches MAX already before the clamp (R132). -/
theorem max_le_rhu_of_le {max v a : Nat} (ha : 0 < a) (h : a ≤ v) : max ≤ rhu (v * max) a := by
  have hmul : a * max ≤ v * max := Nat.mul_le_mul_right max h
  rw [le_rhu_iff ha]
  linarith

theorem unpremul_saturates {max v a : Nat} (ha : 0 < a) (h : a ≤ v ∨ max < rhu (v * max) a) :
    unpremul max v a = max :=
  min_eq_left (h.elim (max_le_rhu_of_le ha) le_of_lt)

theorem unpremul_opaque {max v : Nat} (hmax : 0 < max) (hv : v ≤ max) : unpremul max v max = v := by
  rw [unpremul, rhu_mul_self v hmax, min_eq_right hv]

/-- An odd MAX leaves no tie to round when premultiplying, so the premultiplied value is strictly within 1/2 of
c·a/MAX. -/
theorem premul_bounds {max : Nat} (hodd : max % 2 = 1) (c a : Nat) :
    2 * max * rhu (c * a) max < 2 * (c * a) + max ∧ 2 * (c * a) < 2 * max * rhu (c * a) max + max := by
  have hmax : 0 < max := by omega
  have hle : 2 * max * rhu (c * a) max ≤ 2 * (c * a) + max := (le_rhu_iff hmax).1 le_rfl
  have hlt : 2 * (c * a) + max < 2 * max * (rhu (c * a) max + 1) := (rhu_lt_iff hmax).1 (Nat.lt_succ_self _)
  rw [Nat.mul_add_one] at hlt
  have hparity : 2 * max * rhu (c * a) max = 2 * (max * rhu (c * a) max) := Nat.mul_assoc ..
  omega

/-- The error of at most MAX/2 in p·MAX against c·a grows to at most 3/2 when divided by a, and rounds to at most 1
(R134). -/
theorem unpremul_premul_near {max c a : Nat} (hodd : max % 2 = 1) (hc : c ≤ max) (ha : max ≤ 3 * a) :
    unpremul max (rhu (c * a) max) a ≤ c + 1 ∧ c ≤ unpremul max (rhu (c * a) max) a + 1 := by
  obtain ⟨hhi, hlo⟩ := premul_bounds hodd c a
  have ha0 : 0 < a := by omega
  have hupper : rhu (rhu (c * a) max * max) a < c + 2 := by
    rw [rhu_lt_iff ha0]
    linarith
  have hlower : c < rhu (rhu (c * a) max * max) a + 2 := by
    have hlt := (rhu_lt_iff (n := rhu (c * a) max * max) ha0).1 (Nat.lt_succ_self _)
    refine lt_of_mul_lt_mul_left ?_ (Nat.zero_le (2 * a))
    linarith
  rw [unpremul]
  omega

/-- Where 3a is below 255 some channel is lost by 2 or more: the last one that premultiplies to 0, or one of a few that
are 2 more than a multiple of 3, whose product with an a near 255/3 falls next to a tie. -/
theorem unpremul_premul_far : ∀ a < 85, 0 < a → ∃ c ∈ [127 / a, 2, 5, 8, 11, 14, 20, 41], c ≤ 255 ∧
    ¬ (unpremul 255 (rhu (c * a) 255) a ≤ c + 1 ∧ c ≤ unpremul 255 (rhu (c * a) 255) a + 1) := by
  decide

/-- Settles O56: rounding twice errs by at most 1 where 3a is at least the odd MAX, which at 8 bits includes a = 85. -/
theorem unpremultiplyArithmetic : Obligations.UnpremultiplyArithmetic := by
  refine ⟨fun max hmax => ?_, by decide, by decide, by decide,
    fun c a hc ha _ => unpremul_premul_near (by decide) hc (by omega), fun a ha hle => ?_⟩
  · have hodd : max % 2 = 1 := by omega
    exact ⟨fun v a ha _ h => unpremul_saturates ha h, fun v hv => unpremul_opaque (by omega) hv,
      fun c a hc _ ha => unpremul_premul_near hodd hc ha.le⟩
  · obtain ⟨c, -, hc⟩ := unpremul_premul_far a (Nat.lt_succ_of_le hle) ha
    exact ⟨c, hc⟩

/-! ### The errors of UNPREMULTIPLY -/

theorem checkOutKind_illegal {s : State} (h8 : kindOf (kindCode s.cfg.outKind) ≠ some .rgba8)
    (h16 : kindOf (kindCode s.cfg.outKind) ≠ some .rgba16) : checkOutKind s =
      .error ⟨.invalidImageKind, .up, BitVec.ofNat 32 ((kindCode s.cfg.outKind).toNat + 0x054 * 65536)⟩ := by
  rw [← kindInfo_eq 0x054 (by decide)]
  unfold checkOutKind
  split
  · next h => exact absurd h h8
  · next h => exact absurd h h16
  · rfl

/-- A bad region that is the only one is the one reported (R151). -/
theorem checkGeometry_single_bad {limit : Nat} {b : Buffer} (h : b.badGeometry limit = true) :
    checkGeometry limit [b] = .error ⟨.invalidGeometry, .validation, BitVec.ofNat 32 b.offset⟩ := by
  simp only [checkGeometry, List.find?_cons_of_pos h]

theorem planUnpremultiply_error_of_kind {s : State} {e : Err} (h : checkOutKind s = .error e) :
    planUnpremultiply s = .error e := by
  simp only [planUnpremultiply, h, error_bind]

/-- The region is checked after the kind (R154). -/
theorem planUnpremultiply_error_of_geometry {s : State} {k : ImageKind} {e : Err} (hk : checkOutKind s = .ok k)
    (h : checkGeometry (memSize s.params) (unpremulBufs s k) = .error e) : planUnpremultiply s = .error e := by
  simp only [planUnpremultiply, hk, h, ok_bind, error_bind]

/-- The error code after a command's execution: one its checks raise, MEM_FAULT, or the one that stood before. -/
theorem exec_errCode {i : Instr} {s t : State} (hi : i ≠ .nop) (h : exec i s = .next t) :
    (∃ e, planOf i s = .error e ∧ t.status.errCode = e.code) ∨ t.status.errCode = .memFault ∨
      t.status.errCode = s.status.errCode := by
  rw [exec_eq_runPlan hi] at h
  obtain ⟨e, he, rfl⟩ | ⟨p, -, -, ⟨k, bad, -, rfl⟩ | ⟨m, -, rfl⟩⟩ := runPlan_next h
  · exact .inl ⟨e, he, rfl⟩
  · exact .inr (.inl rfl)
  · exact .inr (.inr (by rw [State.complete_status, State.commit_status]))

/-- Settles O35: the kind is checked before the one region, and no check of the command is of overlap. -/
theorem unpremultiplyErrors : Obligations.UnpremultiplyErrors := by
  intro s
  refine ⟨fun h8 h16 => exec_error Instr.noConfusion
      (planUnpremultiply_error_of_kind (checkOutKind_illegal h8 h16)),
    fun k hk hkind hbad => exec_error Instr.noConfusion (planUnpremultiply_error_of_geometry
      (checkOutKind_ok_iff.2 ⟨hk, hkind⟩) (checkGeometry_single_bad hbad)), fun t ht hs => ?_⟩
  obtain ⟨e, he, hcode⟩ | hcode | hcode := exec_errCode Instr.noConfusion ht
  · obtain ⟨-, -, -, -, -, hoverlap⟩ := planOf_error he
    exact hcode ▸ hoverlap rfl
  · rw [hcode]
    exact ErrCode.noConfusion
  · rwa [hcode]

/-! ### What UNPREMULTIPLY leaves -/

section Rgba
variable {k : ImageKind} (hk : k = .rgba8 ∨ k = .rgba16)
include hk

theorem rgba_channels : k.channels = 4 := by
  obtain rfl | rfl := hk <;> rfl

theorem rgba_sampleMax : sampleMax k.size = if k = .rgba8 then 255 else 65535 := by
  obtain rfl | rfl := hk <;> rfl

/-- Where OUT's channels lie (R47). -/
theorem out_sample_of_rgba (s : State) (e : Endian) (m : Memory) (j c : Nat) :
    (s.out k).sample e m j c = m.readSample e k.size (s.cfg.outBase.toNat + (j * 4 + c) * k.size.bytes) := by
  rw [← rgba_channels hk]
  rfl

variable {s : State}

theorem exec_unpremultiply_completes (hkind : kindOf (kindCode s.cfg.outKind) = some k)
    (hready : RegionsReady s.params (unpremulBufs s k))
    (hok : BytesOk s.params ((unpremulPass s.params.endian (s.out k)).touches s.mem)) (ht : s.tainted = false) :
    exec .unpremultiply s = .next (s.completedWith s.cfg
      (s.mem.writeAll ((unpremulPass s.params.endian (s.out k)).cells s.mem))) :=
  exec_completes (i := .unpremultiply) Instr.noConfusion
    (planUnpremultiply_ok_iff.2 ⟨k, ⟨hk, hkind⟩, hready.geometry, rfl⟩) hready.mapsDevice (runPasses_one hok) ht

/-- UP on a sample of OUT: the alphas and the pixels with alpha 0 are kept, the other color channels divided (R129 to
R131). -/
theorem unpremulPass_sample (e : Endian) (m : Memory) {j c : Nat} (hj : j < (s.out k).pixels) (hc : c < 4) :
    (s.out k).sample e (m.writeAll ((unpremulPass e (s.out k)).cells m)) j c =
      if (s.out k).sample e m j 3 = 0 ∨ c = 3 then (s.out k).sample e m j c
      else unpremul (sampleMax k.size) ((s.out k).sample e m j c) ((s.out k).sample e m j 3) := by
  have hch : (s.out k).ch = 4 := rgba_channels hk
  split
  · next hkept => exact unpremulPass_kept hch hc hkept
  · next hchanged =>
    obtain ⟨halpha, hcolor⟩ := not_or.1 hchanged
    exact unpremulPass_changed hch hj (by omega) halpha

/-- UP leaves every byte outside OUT alone (R135). -/
theorem unpremulPass_read_outside (e : Endian) (m : Memory) {a : Nat} (ha : a < s.cfg.outBase.toNat ∨
    s.cfg.outBase.toNat + s.colorFrame.w * s.colorFrame.h * 4 * k.size.bytes ≤ a) :
    (m.writeAll ((unpremulPass e (s.out k)).cells m)).read a = m.read a := by
  refine Memory.read_writeAll_other _ _ _ fun x hx hxa => ?_
  obtain ⟨hlo, hhi⟩ := Image.buffer_has.1 (unpremulPass_stores (rgba_channels hk) e m hx)
  rw [← rgba_channels hk] at ha
  subst hxa
  exact ha.elim (Nat.not_lt.2 hlo) (Nat.not_le.2 hhi)

end Rgba

/-- Settles O46: the command completes, and its one stage divides the color channels where alpha is not 0. -/
theorem unpremultiplyDividesColor : Obligations.UnpremultiplyDividesColor := by
  intro s k hk hkind hready hok ht e z max out npx before
  have htouched : BytesOk s.params ((unpremulPass e (s.out k)).touches s.mem) := fun a ha => by
    obtain ⟨j, hj, ha⟩ := List.mem_flatMap.1 ha
    exact hok j (List.mem_range.1 hj) a ha
  refine ⟨_, exec_unpremultiply_completes hk hkind hready htouched ht, fun j c hj hc => ?_,
    fun a ha => unpremulPass_read_outside hk e s.mem ha⟩
  have hsample := unpremulPass_sample hk e s.mem hj hc
  rw [rgba_sampleMax hk] at hsample
  simp only [out_sample_of_rgba hk] at hsample
  exact hsample

end Sys2Proof.Machine
end

section
/-! PROOFS. The block's turn (R137 to R141, R146, R147): acceptance and the step that runs the accepted word, NOP, and
how and when a command in flight ends. -/

namespace Sys2Proof.Machine

/-! ### The word that runs -/

/-- The block's turn is the meaning of a legal word in flight (R139). -/
theorem blockTurn_command {s : State} {w : Word} {i : Instr} (hcur : s.cur = some w) (h : decode w = .ok i) :
    blockTurn s = exec i s := by
  unfold blockTurn
  simp only [hcur, h]

/-- A placed word is the one accepted, with the block's turn next on the agenda. -/
theorem withFetchWord_popTurn (s : State) (w : Word) : (s.withFetchWord 32 w.toNat).popTurn = s.accept w := by
  have hw : BitVec.ofNat 32 (w.toNat % 2 ^ 32) = w := by
    rw [Nat.mod_eq_of_lt w.isLt, BitVec.ofNat_toNat, BitVec.setWidth_eq]
  rw [State.withFetchWord, hw]
  rfl

/-- Settles O4: the block's turn runs the word in flight, and a placed word is in flight with that turn next. -/
theorem stepRunsDecodedCommand : Obligations.StepRunsDecodedCommand := by
  refine ⟨fun s w i hcur hdec hturn => ?_, fun s i => ?_⟩
  · rw [step_block hturn]
    exact blockTurn_command hcur hdec
  · rw [step_block (.inr rfl), withFetchWord_popTurn]
    exact blockTurn_command rfl (decode_encode i)

/-- An idle block accepts a word whose regions map no device (R55, R139). -/
theorem writeCmd_accepts {s : State} {w : Word} (hidle : s.status.busy = false)
    (hlaunch : (s.accept w).launchMapsDevice = false) : writeCmd w s = .next (s.accept w) := by
  rw [writeCmd, hidle, hlaunch]
  rfl

/-- Settles O8: the write of CMD accepts the word, which is then the one in flight on the block's turn. -/
theorem acceptanceStartsCommand : Obligations.AcceptanceStartsCommand := by
  intro s w hidle hlaunch
  refine ⟨s.accept w, (regWrite_eq s .cmd w).trans (writeCmd_accepts hidle hlaunch), rfl,
    fun i => blockTurn_command rfl, fun e he => blockTurn_illegal rfl ?_⟩
  rintro ⟨i, hi⟩
  cases he.symm.trans hi

/-- Settles O38: 0 is the word of NOP, and NOP is completion alone. -/
theorem nopCompletes : Obligations.NopCompletes :=
  ⟨fun _ => decode_iff_encode, fun _ => rfl, _, rfl, by decide⟩

/-! ### How a command in flight ends -/

/-- What the execution step of a command can stop for (R55). -/
theorem exec_stops {i : Instr} {s : State} : (∀ f, exec i s ≠ .fault f) ∧
    ∀ r, exec i s = .refused r → r = .deviceRegion ∧ ∃ p, planOf i s = .ok p ∧ p.mapsDevice s.params = true := by
  by_cases hi : i = .nop
  · subst hi
    exact ⟨by simp, by simp⟩
  · rw [exec_eq_runPlan hi]
    exact ⟨fun f => runPlan_not_fault, fun r => runPlan_refused⟩

/-- The plan of a legal word in flight, once its checks pass, is the plan in flight. -/
theorem inFlight_eq_some {s : State} {w : Word} {i : Instr} {p : Plan} (hcur : s.cur = some w)
    (hdec : decode w = .ok i) (hp : planOf i s = .ok p) : s.inFlight = some p := by
  rw [State.inFlight, hcur, Option.bind_some, planOfWord, hdec]
  exact congrArg Except.toOption hp

/-- Settles O7: an illegal word is raised, and a command ends in one of the ways that running its plan can end. -/
theorem blockTurnEndsCommand : Obligations.BlockTurnEndsCommand := by
  intro s hcur
  obtain ⟨w, hw⟩ := Option.isSome_iff_exists.1 hcur
  by_cases hlegal : ∃ i, decode w = .ok i
  · obtain ⟨i, hi⟩ := hlegal
    rw [blockTurn_command hw hi]
    obtain ⟨hfault, hrefused⟩ := exec_stops (i := i) (s := s)
    match hexec : exec i s with
    | .next t =>
      obtain ⟨hbusy, hcur', hstage, hflags, -⟩ := exec_next_end hexec
      exact .inr ⟨t, rfl, hbusy, hcur', hstage, hflags⟩
    | .fault f => exact absurd hexec (hfault f)
    | .refused r =>
      obtain ⟨rfl, p, hp, hdevice⟩ := hrefused r hexec
      refine .inl ⟨rfl, ?_⟩
      rw [State.launchMapsDevice, inFlight_eq_some hw hi hp]
      exact hdevice
  · exact .inr ⟨_, blockTurn_illegal hw hlegal, rfl, rfl, rfl, .inr ⟨rfl, rfl⟩⟩

/-! ### When a command in flight ends -/

/-- Nothing is in flight. -/
def State.Ended (s : State) : Prop := s.status.busy = false ∧ s.cur = none

/-- Some run of at most `n` steps leaves nothing in flight, if it has not stopped. -/
def EndsWithin (n : Nat) (s : State) : Prop := ∃ k ≤ n, ∀ t, core.run k s = .next t → t.Ended

theorem State.Ended.endsWithin {s : State} (h : s.Ended) (n : Nat) : EndsWithin n s :=
  ⟨0, n.zero_le, fun t ht => by cases ht; exact h⟩

/-- A run that goes on after its first step is that step and a shorter run. -/
theorem run_succ_eq_next {M : Host.Core} {k : Nat} {s t : M.State} (h : M.run (k + 1) s = .next t) :
    ∃ u, M.step s = .next u ∧ M.run k u = .next t := by
  rw [Host.Core.run] at h
  split at h
  · next u hu => exact ⟨u, hu, h⟩
  · cases h
  · cases h

/-- It is enough that the next state, if there is one, ends within one step less. -/
theorem endsWithin_succ {n : Nat} {s : State} (h : ∀ u, step s = .next u → EndsWithin n u) :
    EndsWithin (n + 1) s := by
  by_cases hnext : ∃ u, step s = .next u
  · obtain ⟨u, hu⟩ := hnext
    obtain ⟨k, hk, hends⟩ := h u hu
    refine ⟨k + 1, Nat.succ_le_succ hk, fun t ht => ?_⟩
    obtain ⟨u', hu', ht⟩ := run_succ_eq_next (M := core) ht
    cases hu.symm.trans hu'
    exact hends t ht
  · refine ⟨1, Nat.succ_le_succ n.zero_le, fun t ht => ?_⟩
    obtain ⟨u, hu, -⟩ := run_succ_eq_next (M := core) ht
    exact absurd ⟨u, hu⟩ hnext

/-- On the block's turn one step ends the command in flight, or stops the run. -/
theorem step_block_ends {s t : State} (hcur : s.cur.isSome = true)
    (hturn : s.agenda.head? = none ∨ s.agenda.head? = some .block) (h : step s = .next t) : t.Ended := by
  rw [step_block hturn] at h
  obtain ⟨hrefused, -⟩ | ⟨u, hu, hbusy, hcur', -⟩ := blockTurnEndsCommand s.popTurn hcur
  · cases hrefused.symm.trans h
  · cases hu.symm.trans h
    exact ⟨hbusy, hcur'⟩

/-- A turn of the host leaves the word in flight, or ends it by a reset (R35, R137). -/
theorem step_host_keeps_or_ends {s t : State} {op : HostOp} {rest : List Turn} (hbusy : s.status.busy = true)
    (hturn : s.agenda = .host op :: rest) (h : step s = .next t) :
    (t.status.busy = true ∧ t.cur = s.cur ∧ t.agenda = rest) ∨ t.Ended := by
  rw [step_host hturn] at h
  obtain ⟨hagenda, -, ⟨hcur, hsame⟩ | ⟨w, -, -, hidle⟩ | ⟨hcur, hidle⟩⟩ := hostTurn_keeps h
  · exact .inl ⟨hsame.trans hbusy, hcur, by rw [hagenda, State.popTurn_agenda, hturn, List.tail_cons]⟩
  · cases hbusy.symm.trans hidle
  · exact .inr ⟨hidle, hcur⟩

/-- By induction on the agenda: its first turn is the block's, which ends the command, or the host's, which ends it too
or leaves it in flight on the shorter agenda. -/
theorem inFlight_endsWithin {s : State} {turns : List Turn} (hbusy : s.status.busy = true)
    (hcur : s.cur.isSome = true) (hturns : s.agenda = turns) : EndsWithin (turns.length + 1) s := by
  induction turns generalizing s with
  | nil => exact endsWithin_succ fun u hu => (step_block_ends hcur (.inl (by rw [hturns]; rfl)) hu).endsWithin _
  | cons turn rest ih =>
    refine endsWithin_succ fun u hu => ?_
    cases turn with
    | block => exact (step_block_ends hcur (.inr (by rw [hturns]; rfl)) hu).endsWithin _
    | host op =>
      obtain ⟨hbusy', hcur', hrest⟩ | hended := step_host_keeps_or_ends hbusy hturns hu
      · exact ih hbusy' (hcur' ▸ hcur) hrest
      · exact hended.endsWithin _

/-- Settles O6: the agenda's turns, and the block's after them, bound the steps to the end of the command. -/
theorem commandEndsWithinAgenda : Obligations.CommandEndsWithinAgenda :=
  fun _ hbusy hcur => inFlight_endsWithin hbusy hcur rfl

end Sys2Proof.Machine
end

section
/-! PROOFS. FRAME's validation (R95, R142, R143, R148, R151, R154): its checks in their order, and the error codes it
never raises. -/

namespace Sys2Proof.Machine

/-! ### The checks of FRAME, in their order -/

/-- The default that the routing of FRAME's color frame picks (R93, R143). -/
def frameDefaultMc (s : State) : Nat :=
  if s.colorFrame.sampling = .mono then s.params.defaultMcGray else s.params.defaultMcColor

/-- The depth of FRAME's color frame is checked for stage 4 if Monochrome, else for stage 2 (R143). -/
theorem frameDepthStage_eq (f : Frame) :
    frameDepthStage f = if f.sampling = .mono then StageCode.cscGray else .cu := by
  unfold frameDepthStage
  cases f.sampling <;> rfl

/-- The matrix check of FRAME's color frame, for stage 4 if Monochrome, else for stage 3 (R143). -/
theorem checkFrameMatrix_eq (s : State) : checkFrameMatrix s = checkMatrix s.params s.colorFrame (frameDefaultMc s)
    (if s.colorFrame.sampling = .mono then .cscGray else .cscColor) := by
  unfold checkFrameMatrix frameDefaultMc
  cases s.colorFrame.sampling <;> rfl

section Plain
variable {s : State} {e : Err}

theorem planFramePlain_error_of_depth (h : checkDepth s.colorFrame (frameDepthStage s.colorFrame) = .error e) :
    planFramePlain s = .error e := by
  simp only [planFramePlain, h, error_bind]

variable (hdepth : checkDepth s.colorFrame (frameDepthStage s.colorFrame) = .ok ())
include hdepth

theorem planFramePlain_error_of_matrix (h : checkFrameMatrix s = .error e) : planFramePlain s = .error e := by
  simp only [planFramePlain, hdepth, h, ok_bind, error_bind]

theorem planFramePlain_error_of_buffers {m : Nat × Matrix} (hm : checkFrameMatrix s = .ok m)
    (h : checkBuffers s.params (framePlainBufs s) = .error e) : planFramePlain s = .error e := by
  simp only [planFramePlain, hdepth, hm, h, ok_bind, error_bind]

end Plain

section Alpha
variable {s : State} {e : Err} (p : Bool)

/-- With alpha the depth of the alpha frame is checked first (R143). -/
theorem planFrameAlpha_error_of_alphaDepth (h : checkDepth s.alphaFrame .cscGray = .error e) :
    planFrameAlpha p s = .error e := by
  simp only [planFrameAlpha, h, error_bind]

variable (hadepth : checkDepth s.alphaFrame .cscGray = .ok ())
include hadepth

theorem planFrameAlpha_error_of_colorDepth
    (h : checkDepth s.colorFrame (frameDepthStage s.colorFrame) = .error e) : planFrameAlpha p s = .error e := by
  simp only [planFrameAlpha, hadepth, h, ok_bind, error_bind]

variable (hdepth : checkDepth s.colorFrame (frameDepthStage s.colorFrame) = .ok ())
include hdepth

/-- The matrices are checked after both depths, the alpha frame's first (R143, R154). -/
theorem planFrameAlpha_error_of_alphaMatrix
    (h : checkMatrix s.params s.alphaFrame s.params.defaultMcGray .cscGray = .error e) :
    planFrameAlpha p s = .error e := by
  simp only [planFrameAlpha, hadepth, hdepth, h, ok_bind, error_bind]

variable {ma : Nat × Matrix} (hma : checkMatrix s.params s.alphaFrame s.params.defaultMcGray .cscGray = .ok ma)
include hma

theorem planFrameAlpha_error_of_colorMatrix (h : checkFrameMatrix s = .error e) : planFrameAlpha p s = .error e := by
  simp only [planFrameAlpha, hadepth, hdepth, hma, h, ok_bind, error_bind]

variable {m : Nat × Matrix} (hm : checkFrameMatrix s = .ok m)
include hm

/-- The dimensions are checked after the matrices (R154). -/
theorem planFrameAlpha_error_of_dims (h : checkDims s = .error e) : planFrameAlpha p s = .error e := by
  simp only [planFrameAlpha, hadepth, hdepth, hma, hm, h, ok_bind, error_bind]

/-- The regions are checked last (R154). -/
theorem planFrameAlpha_error_of_regions (hdims : checkDims s = .ok ()) {row : Composition}
    (hrow : checkRow (frameColorKind s.colorFrame) (grayKind s.alphaFrame.depth) = .ok row)
    (h : checkRegions s.params (frameAlphaByStage s row.result) (frameAlphaBufs s row.result) = .error e) :
    planFrameAlpha p s = .error e := by
  simp only [planFrameAlpha, hadepth, hdepth, hma, hm, hdims, hrow, h, ok_bind, error_bind]

end Alpha

/-! ### The regions -/

/-- The first bad region of a list is the one reported (R151). -/
theorem checkGeometry_first_bad {limit : Nat} {pre post : List Buffer} {b : Buffer}
    (hpre : ∀ c ∈ pre, c.badGeometry limit = false) (hb : b.badGeometry limit = true) :
    checkGeometry limit (pre ++ b :: post) =
      .error ⟨.invalidGeometry, .validation, BitVec.ofNat 32 b.offset⟩ := by
  have hnone : pre.find? (Buffer.badGeometry limit) = none := by simpa using hpre
  simp only [checkGeometry, List.find?_append, hnone, Option.none_or, List.find?_cons_of_pos hb]

/-- FRAME's regions stage by stage, in one list (R143, R154). -/
theorem frameAlphaByStage_eq (s : State) (rk : ImageKind) : frameAlphaByStage s rk =
    [s.planeYA.buffer, s.alphaImage.buffer true] ++ framePlaneBufs s ++
      [s.frameCimg.buffer true, (s.out rk).buffer true] := by
  simp only [frameAlphaByStage, List.append_assoc, List.singleton_append]

section Regions
variable {s : State} {rk : ImageKind}

/-- The first bad region in the order S1, S2, S3 decides (R143, R151, R154). -/
theorem checkFrameRegions_first_bad {pre post : List Buffer} {b : Buffer}
    (hsplit : frameAlphaByStage s rk = pre ++ b :: post)
    (hpre : ∀ c ∈ pre, c.badGeometry (memSize s.params) = false) (hb : b.badGeometry (memSize s.params) = true) :
    checkRegions s.params (frameAlphaByStage s rk) (frameAlphaBufs s rk) =
      .error ⟨.invalidGeometry, .validation, BitVec.ofNat 32 b.offset⟩ := by
  rw [hsplit]
  exact checkRegions_of_badGeometry _ (checkGeometry_first_bad hpre hb)

/-- With none bad the overlaps decide, by offset (R151, R154). -/
theorem checkFrameRegions_overlap
    (hfine : ∀ b ∈ frameAlphaByStage s rk, b.badGeometry (memSize s.params) = false) :
    checkRegions s.params (frameAlphaByStage s rk) (frameAlphaBufs s rk) = checkOverlap (frameAlphaBufs s rk) :=
  checkRegions_of_goodGeometry _ (checkGeometry_ok_iff.2 hfine)

end Regions

/-! ### What FRAME raises -/

/-- An unsupported code of a frame is reported with its RANGE (R95, R148). -/
theorem checkMatrix_unsupported {p : Params} {f : Frame} {d : Nat} (k : StageCode)
    (h : ¬ mcSupported p (resolveMc f.mc d) = true) : ∃ e, checkMatrix p f d k = .error e ∧
      e.code = .unsupportedColorMetadata ∧ e.stage = k ∧
      e.info.extractLsb' 0 8 = BitVec.ofNat 8 (resolveMc f.mc d) ∧
      e.info.getLsbD 8 = decide (f.range = .full) ∧ e.info.extractLsb' 9 23 = 0 := by
  have hbad := checkMatrix_bad (k := k) (mcS.1 h)
  obtain ⟨hcode, hstage⟩ := checkMatrix_error hbad
  exact ⟨_, hbad, hcode, hstage, checkMatrix_error_info hbad⟩

theorem checkMatrix_supported {p : Params} {f : Frame} {d : Nat} (k : StageCode)
    (h : mcSupported p (resolveMc f.mc d) = true) : ∃ m, checkMatrix p f d k = .ok m := by
  obtain ⟨mx, hmx⟩ := mcS'.1 h
  exact ⟨_, checkMatrix_good hmx⟩

/-- Settles O36: the first check that fails is the error of the plan, and the command raises it. -/
theorem frameErrorPriority : Obligations.FrameErrorPriority := by
  intro s p depthErr colorStage colorDefault legal supported metadataErr
  have hplain {e : Err} (h : planFramePlain s = .error e) : exec (.frame false p) s = .next (s.raise e) :=
    exec_error Instr.noConfusion h
  have halpha {e : Err} (h : planFrameAlpha p s = .error e) : exec (.frame true p) s = .next (s.raise e) :=
    exec_error Instr.noConfusion h
  have hlegal {f : Frame} {k : StageCode} (h : legal f) : checkDepth f k = .ok () := checkDepth_good h.1 h.2
  have hmatrix : checkFrameMatrix s = checkMatrix s.params s.colorFrame colorDefault (colorStage .cscGray .cscColor) :=
    checkFrameMatrix_eq s
  refine ⟨fun hbad => halpha (planFrameAlpha_error_of_alphaDepth p (alphaDepthBad hbad)), fun hbad => ?_,
    fun hc => ⟨fun hunsup => ?_, fun ha hunsup => ?_, fun hsup => ?_⟩⟩
  · have hdepth := colorDepthBad (k := frameDepthStage s.colorFrame) hbad
    dsimp only [depthErr, colorStage]
    rw [← frameDepthStage_eq]
    exact ⟨hplain (planFramePlain_error_of_depth hdepth),
      fun ha => halpha (planFrameAlpha_error_of_colorDepth p (hlegal ha) hdepth)⟩
  · obtain ⟨e, he, hinfo⟩ := checkMatrix_unsupported (colorStage .cscGray .cscColor) hunsup
    rw [← hmatrix] at he
    refine ⟨⟨e, hplain (planFramePlain_error_of_matrix (hlegal hc) he), hinfo⟩, fun ha hasup => ?_⟩
    obtain ⟨ma, hma⟩ := checkMatrix_supported .cscGray hasup
    exact ⟨e, halpha (planFrameAlpha_error_of_colorMatrix p (hlegal ha) (hlegal hc) hma he), hinfo⟩
  · obtain ⟨e, he, hinfo⟩ := checkMatrix_unsupported .cscGray hunsup
    exact ⟨e, halpha (planFrameAlpha_error_of_alphaMatrix p (hlegal ha) (hlegal hc) he), hinfo⟩
  · obtain ⟨m, hm⟩ := checkMatrix_supported (colorStage .cscGray .cscColor) hsup
    rw [← hmatrix] at hm
    refine ⟨fun e he => hplain (planFramePlain_error_of_buffers (hlegal hc) hm he), fun ha hasup => ?_⟩
    obtain ⟨ma, hma⟩ := checkMatrix_supported .cscGray hasup
    refine ⟨fun hne => halpha (planFrameAlpha_error_of_dims p (hlegal ha) (hlegal hc) hma hm (checkDims_mismatch hne)),
      fun hw hh row hrow => ?_⟩
    have hregions {e : Err} := planFrameAlpha_error_of_regions (e := e) p (hlegal ha) (hlegal hc) hma hm
      (checkDims_ok_iff.2 ⟨hw, hh⟩) (checkRow_ok_iff.2 hrow)
    intro color byStage bad
    have hstages : frameAlphaByStage s row.result = byStage := frameAlphaByStage_eq s row.result
    refine ⟨fun pre b post hsplit hpre hb => ?_, fun hfine e he => ?_⟩
    · exact halpha (hregions (checkFrameRegions_first_bad (hstages.trans hsplit) hpre hb))
    · rw [← hstages] at hfine
      exact halpha (hregions ((checkFrameRegions_overlap hfine).trans he))

/-- An error that a command newly ends with is one its checks raise, or MEM_FAULT. -/
theorem exec_new_error {i : Instr} {s t : State} (h : exec i s = .next t) (hs : s.status.err = false)
    (ht : t.status.err = true) :
    (∃ e, planOf i s = .error e ∧ t.status.errCode = e.code) ∨ t.status.errCode = .memFault := by
  by_cases hi : i = .nop
  · subst hi
    cases h
    cases hs.symm.trans ht
  · rw [exec_eq_runPlan hi] at h
    obtain ⟨e, he, rfl⟩ | ⟨p, -, -, ⟨k, bad, -, rfl⟩ | ⟨m, -, rfl⟩⟩ := runPlan_next h
    · exact .inl ⟨e, he, rfl⟩
    · exact .inr rfl
    · rw [State.complete_status, State.commit_status] at ht
      cases hs.symm.trans ht

/-- Settles O37: FRAME's own checks raise none of the four codes, and the other error a command can end with is
MEM_FAULT. -/
theorem frameNeverRaises : Obligations.FrameNeverRaises := by
  intro s t a p h hs ht
  obtain ⟨e, he, hcode⟩ | hcode := exec_new_error h hs ht
  · obtain ⟨-, -, -, hillegal, hframe, -⟩ := planOf_error he
    obtain ⟨hchroma, hkind, hcontract⟩ := hframe a p rfl
    rw [hcode]
    exact ⟨hchroma, hkind, hcontract, hillegal⟩
  · rw [hcode]
    decide

end Sys2Proof.Machine
end

section
/-! PROOFS. FRAME as its stages' commands, one after another (R142, R143, R145). -/

namespace Sys2Proof.Machine

/-! ### FRAME and its operands -/

/-- The state that commands leave which complete one after another: the last one's memory, and the kind registers. All
other operands are as before the first. -/
def State.leaving (s : State) (cimgKind aimgKind outKind : Word) (m : Memory) : State := s.completedWith
  { s.cfg with cimgKind := cimgKind, aimgKind := aimgKind, outKind := outKind } m

/-- The word of the kind of FRAME's color image (R113). -/
def frameCimgWord (s : State) : Word := BitVec.ofNat 32 (frameColorKind s.colorFrame).code

/-- The word of the kind of its AlphaImage (R113). -/
def frameAimgWord (s : State) : Word := BitVec.ofNat 32 (grayKind s.alphaFrame.depth).image.code

/-- The code that its color frame resolves to (R143). -/
def frameColorMc (s : State) : Nat := resolveMc s.colorFrame.mc (frameDefaultMc s)

/-- The code that its alpha frame resolves to (R112, R143). -/
def frameAlphaMc (s : State) : Nat := resolveMc s.alphaFrame.mc s.params.defaultMcGray

theorem checkFrameMatrix_eq_ok {s : State} {mx : Matrix} (h : matrixOf s.params (frameColorMc s) = some mx) :
    checkFrameMatrix s = .ok (frameColorMc s, mx) := by
  rw [checkFrameMatrix_eq]
  exact checkMatrix_good h

/-! ### FRAME with A = 0 -/

theorem colorBufs_mem_framePlain {s : State} :
    ∀ b ∈ framePlaneBufs s ++ [s.frameCimg.buffer true], b ∈ framePlainBufs s := by
  intro b hb
  simp only [framePlainBufs, List.mem_append, List.mem_cons] at hb ⊢
  tauto

section Plain
variable {s : State} (hready : RegionsReady s.params (framePlainBufs s))
include hready

theorem copyBufs_ready_of_framePlain : RegionsReady s.params (copyBufs s (frameColorKind s.colorFrame)) := by
  refine RegionsReady_sub hready (plainSorted s) (frameOffsets (of_decide_eq_true rfl)) fun b hb => ?_
  obtain rfl | rfl := List.mem_pair.1 hb
  · exact ⟨s.frameCimg.buffer true, by simp [framePlainBufs], rfl, Bool.noConfusion⟩
  · exact ⟨_, by simp [framePlainBufs], rfl, id⟩

theorem exec_framePlain_completes (p : Bool) {mx : Matrix}
    (hdepth : 8 ≤ s.colorFrame.depth ∧ s.colorFrame.depth ≤ 16)
    (hmx : matrixOf s.params (frameColorMc s) = some mx) {m : Memory}
    (hm : runPasses s.params (framePlainPasses s (frameColorMc s) mx) s.mem = .ok m) (ht : s.tainted = false) :
    exec (.frame false p) s =
      .next (s.leaving (frameCimgWord s) s.cfg.aimgKind (frameCimgWord s) m) :=
  exec_completes (i := .frame false p) Instr.noConfusion (planFramePlain_ok_iff.2 ⟨depthLegal_iff.2 hdepth, _,
    checkFrameMatrix_eq_ok hmx, hready.checks, rfl⟩) hready.mapsDevice hm ht

end Plain

/-- Settles O47: each command starts from the state the one before it left, whose operands are FRAME's own, and
FRAME's stages are theirs. -/
theorem frameWithoutAlphaIsItsStages : Obligations.FrameWithoutAlphaIsItsStages := by
  intro s p mx hlo hhi hmx hready hok ht
  obtain ⟨hcolor, hout⟩ := BytesOk.append.1 hok
  obtain ⟨-, hcimg⟩ := BytesOk.append.1 hcolor
  have himages := BytesOk.append.2 ⟨hcimg, hout⟩
  obtain ⟨m, hrun, hconvert⟩ := colorStage hlo hhi hmx hready (plainSorted s) colorBufs_mem_framePlain hcolor ht
  have hcopy := exec_copy_completes (s := s.leaving (frameCimgWord s) s.cfg.aimgKind s.cfg.outKind m)
    (kindOf_ofNat _) (copyBufs_ready_of_framePlain hready) himages rfl
  exact ⟨_, _, hconvert, hcopy, exec_framePlain_completes hready p ⟨hlo, hhi⟩ hmx
    ((runPasses_append_ok hrun).trans (runPasses_one himages)) ht⟩

/-! ### FRAME with A = 1 -/

section Alpha
variable {s : State}

/-- S1 alone, as a stage and as a command. -/
theorem alphaStage {ma : Matrix} (hdepth : 8 ≤ s.alphaFrame.depth ∧ s.alphaFrame.depth ≤ 16)
    (hma : matrixOf s.params (frameAlphaMc s) = some ma) (hready : RegionsReady s.params (extractAlphaBufs s))
    (hok : BytesOk s.params (s.planeYA.touched ++ s.alphaImage.touched)) (ht : s.tainted = false) :
    ∃ m, runPasses s.params [alphaPass s (frameAlphaMc s) ma] s.mem = .ok m ∧
      exec .extractAlpha s = .next (s.leaving s.cfg.cimgKind (frameAimgWord s) s.cfg.outKind m) :=
  ⟨_, runPasses_one hok, exec_completes (i := .extractAlpha) Instr.noConfusion (planExtractAlpha_ok_iff.2
    ⟨depthLegal_iff.2 hdepth, (_, ma), ⟨rfl, hma⟩, hready.checks, rfl⟩) hready.mapsDevice (runPasses_one hok) ht⟩

/-- S3 alone, as a stage and as a command. -/
theorem blendStage {ck : ImageKind} {ak : AlphaKind} {row : Composition} (hrow : compositeRow ck ak = some row)
    (hck : kindOf (kindCode s.cfg.cimgKind) = some ck) (hak : alphaKindOf (kindCode s.cfg.aimgKind) = some ak)
    (hdims : s.colorFrame.w = s.alphaFrame.w ∧ s.colorFrame.h = s.alphaFrame.h)
    (hready : RegionsReady s.params (blendBufs s ck ak row.result))
    (hok : BytesOk s.params ((s.cimg ck).touched ++ (s.aimg ak).touched ++ (s.out row.result).touched))
    (ht : s.tainted = false) :
    ∃ m, runPasses s.params [blendPass s.params.endian (s.cimg ck) (s.aimg ak) (s.out row.result) row] s.mem =
      .ok m ∧ exec (.composite true) s =
        .next (s.leaving s.cfg.cimgKind s.cfg.aimgKind (BitVec.ofNat 32 row.result.code) m) := by
  obtain ⟨hw, hh⟩ := hdims
  exact ⟨_, runPasses_one hok, exec_blend_completes hrow hck hak hw hh hready hok ht⟩

/-- S4 alone where P is 1, as a stage and as a command; where P is 0 there is none (R142). -/
theorem unpremulStage (p : Bool) {k : ImageKind} (hk : k = .rgba8 ∨ k = .rgba16)
    (hkind : kindOf (kindCode s.cfg.outKind) = some k) (hready : RegionsReady s.params (unpremulBufs s k))
    (hok : BytesOk s.params (s.out k).touched) (ht : s.tainted = false) :
    ∃ t, (if p then exec .unpremultiply s = .next t else t = s) ∧ t.cfg = s.cfg ∧
      runPasses s.params (if p then [unpremulPass s.params.endian (s.out k)] else []) s.mem = .ok t.mem := by
  cases p with
  | false => exact ⟨s, rfl, rfl, rfl⟩
  | true =>
    have htouched : BytesOk s.params ((unpremulPass s.params.endian (s.out k)).touches s.mem) :=
      fun a ha => hok a (unpremulPass_touches (rgba_channels hk) _ _ ha)
    exact ⟨_, exec_unpremultiply_completes hk hkind hready htouched ht, rfl, runPasses_one htouched⟩

theorem exec_frameAlpha_completes (p : Bool) {ma mx : Matrix} {row : Composition}
    (hready : RegionsReady s.params (frameAlphaBufs s row.result))
    (hadepth : 8 ≤ s.alphaFrame.depth ∧ s.alphaFrame.depth ≤ 16)
    (hdepth : 8 ≤ s.colorFrame.depth ∧ s.colorFrame.depth ≤ 16)
    (hma : matrixOf s.params (frameAlphaMc s) = some ma) (hmx : matrixOf s.params (frameColorMc s) = some mx)
    (hdims : s.colorFrame.w = s.alphaFrame.w ∧ s.colorFrame.h = s.alphaFrame.h)
    (hrow : compositeRow (frameColorKind s.colorFrame) (grayKind s.alphaFrame.depth) = some row) {m : Memory}
    (hm : runPasses s.params (frameAlphaPasses s p (frameColorMc s) mx ⟨frameAlphaMc s, ma, row⟩) s.mem = .ok m)
    (ht : s.tainted = false) : exec (.frame true p) s =
      .next (s.leaving (frameCimgWord s) (frameAimgWord s) (BitVec.ofNat 32 row.result.code) m) :=
  exec_completes (i := .frame true p) Instr.noConfusion (planFrameAlpha_ok_iff.2 ⟨depthLegal_iff.2 hadepth,
    depthLegal_iff.2 hdepth, (_, ma), ⟨rfl, hma⟩, _, checkFrameMatrix_eq_ok hmx, hdims, row, hrow, hready.checks,
    rfl⟩) hready.mapsDevice hm ht

variable {rk : ImageKind} (hready : RegionsReady s.params (frameAlphaBufs s rk))
include hready

theorem extractAlphaBufs_ready_of_frameAlpha : RegionsReady s.params (extractAlphaBufs s) := by
  refine RegionsReady_sub hready (alphaSorted s rk) (frameOffsets (of_decide_eq_true rfl)) fun b hb => ⟨b, ?_, rfl, id⟩
  obtain rfl | rfl := List.mem_pair.1 hb
  · simp [frameAlphaBufs]
  · simp [frameAlphaBufs]

theorem blendBufs_ready_of_frameAlpha :
    RegionsReady s.params (blendBufs s (frameColorKind s.colorFrame) (grayKind s.alphaFrame.depth) rk) := by
  refine RegionsReady_sub hready (alphaSorted s rk) (frameOffsets (of_decide_eq_true rfl)) fun b hb => ?_
  simp only [blendBufs, List.mem_cons, List.not_mem_nil, or_false] at hb
  obtain rfl | rfl | rfl := hb
  · exact ⟨s.frameCimg.buffer true, by simp [frameAlphaBufs], rfl, Bool.noConfusion⟩
  · exact ⟨s.alphaImage.buffer true, by simp [frameAlphaBufs], rfl, Bool.noConfusion⟩
  · exact ⟨_, by simp [frameAlphaBufs], rfl, id⟩

theorem unpremulBufs_ready_of_frameAlpha : RegionsReady s.params (unpremulBufs s rk) := by
  refine RegionsReady_sub hready (alphaSorted s rk) (List.pairwise_singleton _ _) fun b hb => ⟨b, ?_, rfl, id⟩
  obtain rfl := List.mem_singleton.1 hb
  simp [frameAlphaBufs]

end Alpha

/-- Settles O48: each command starts from the state the one before it left, whose operands are FRAME's own, and
FRAME's stages are theirs. -/
theorem frameWithAlphaIsItsStages : Obligations.FrameWithAlphaIsItsStages := by
  intro s p ma mx row halo hahi hlo hhi hma hmx hw hh hrow hready hok ht
  obtain ⟨halpha, hcolorOut⟩ := BytesOk.append.1 hok
  obtain ⟨-, haimg⟩ := BytesOk.append.1 halpha
  obtain ⟨hcolor, hout⟩ := BytesOk.append.1 hcolorOut
  obtain ⟨-, hcimg⟩ := BytesOk.append.1 hcolor
  have himages := BytesOk.append.2 ⟨BytesOk.append.2 ⟨hcimg, haimg⟩, hout⟩
  obtain ⟨m₁, hrun₁, hextract⟩ := alphaStage ⟨halo, hahi⟩ hma (extractAlphaBufs_ready_of_frameAlpha hready) halpha ht
  obtain ⟨m₂, hrun₂, hconvert⟩ := colorStage
    (s := s.leaving s.cfg.cimgKind (frameAimgWord s) s.cfg.outKind m₁) hlo hhi hmx hready
    (alphaSorted s row.result) (fun b hb => planesBufs_mem_color hb row.result) hcolor rfl
  obtain ⟨m₃, hrun₃, hcomposite⟩ := blendStage
    (s := s.leaving (frameCimgWord s) (frameAimgWord s) s.cfg.outKind m₂) hrow (kindOf_ofNat _)
    (alphaKindOf_ofNat _) ⟨hw, hh⟩ (blendBufs_ready_of_frameAlpha hready) himages rfl
  obtain ⟨s₄, hunpremultiply, hcfg, hrun₄⟩ := unpremulStage p
    (s := s.leaving (frameCimgWord s) (frameAimgWord s) (BitVec.ofNat 32 row.result.code) m₃)
    (compositeRow_rgba hrow).2 (kindOf_ofNat _) (unpremulBufs_ready_of_frameAlpha hready) hout rfl
  refine ⟨_, _, _, s₄, hextract, hconvert, hcomposite, hunpremultiply, ?_⟩
  rw [hcfg]
  refine exec_frameAlpha_completes p hready ⟨halo, hahi⟩ ⟨hlo, hhi⟩ hma hmx ⟨hw, hh⟩ hrow ?_ ht
  have hrun₁₂ := (runPasses_append_ok hrun₁).trans hrun₂
  have hrun₁₂₃ := (runPasses_append_ok hrun₁₂).trans hrun₃
  exact (runPasses_append_ok hrun₁₂₃).trans hrun₄

end Sys2Proof.Machine
end

section
/-! PROOFS. The stages of every command in their order, and the bytes each of them touches (R142, R145, R149, R153). -/

namespace Sys2Proof.Machine

/-! ### Bytes of planes and images -/

/-- The byte is one of a sample of a plane of `w` samples of `b` bytes by `h` rows (R45, R50). -/
def planeRows (base stride : Word) (w h b a : Nat) : Prop :=
  ∃ y < h, ∃ j < w * b, a = base.toNat + y * stride.toNat + j

/-- The byte is one of a sample of a chroma plane of the color frame, of which Monochrome has none (R46). -/
def chromaRows (s : State) (base : Word) (a : Nat) : Prop :=
  match s.colorFrame.sampling with
  | .mono => False
  | .chroma .c444 => planeRows base s.cfg.cCStride s.colorFrame.w s.colorFrame.h (frameBps s.colorFrame) a
  | .chroma .c422 =>
    planeRows base s.cfg.cCStride ((s.colorFrame.w + 1) / 2) s.colorFrame.h (frameBps s.colorFrame) a
  | .chroma .c420 =>
    planeRows base s.cfg.cCStride ((s.colorFrame.w + 1) / 2) ((s.colorFrame.h + 1) / 2) (frameBps s.colorFrame) a

/-- The byte is one of a sample of a plane of the color frame. -/
def planesRows (s : State) (a : Nat) : Prop :=
  planeRows s.cfg.cYBase s.cfg.cYStride s.colorFrame.w s.colorFrame.h (frameBps s.colorFrame) a ∨
    chromaRows s s.cfg.cUBase a ∨ chromaRows s s.cfg.cVBase a

section Bytes
variable {s : State} {a : Nat}

theorem planeYC_touched : a ∈ s.planeYC.touched ↔
    planeRows s.cfg.cYBase s.cfg.cYStride s.colorFrame.w s.colorFrame.h (frameBps s.colorFrame) a := by
  rw [Plane.mem_touched, ← depthSize_bytes]
  rfl

theorem planeYA_touched : a ∈ s.planeYA.touched ↔
    planeRows s.cfg.aYBase s.cfg.aYStride s.alphaFrame.w s.alphaFrame.h (frameBps s.alphaFrame) a := by
  rw [Plane.mem_touched, ← depthSize_bytes]
  rfl

theorem cuTouches_mem {c : Chroma} (h : s.colorFrame.sampling = .chroma c) : a ∈ cuTouches s c ↔ planesRows s a := by
  rw [cuTouches, List.mem_append, List.mem_append, planeYC_touched, Plane.mem_touched, Plane.mem_touched, planesRows,
    chromaRows, chromaRows, h, ← depthSize_bytes, or_assoc]
  cases c <;> rfl

theorem imageOf_touched {offset : Nat} {base : Word} {f : Frame} {k : ImageKind} :
    a ∈ (imageOf offset base f k).touched ↔ imageSpan base f.w f.h (k.channels * k.size.bytes) a :=
  Image.mem_touched.trans (Image.buffer_has.symm.trans (imageOf_has (w := true)))

theorem tri_touched : a ∈ s.tri.touched ↔
    imageSpan s.cfg.outBase s.colorFrame.w s.colorFrame.h (3 * frameBps s.colorFrame) a :=
  Image.mem_touched.trans (Image.buffer_has.symm.trans (tri_has (w := true)))

theorem rgbImage_touched : a ∈ s.rgbImage.touched ↔
    imageSpan s.cfg.cimgBase s.colorFrame.w s.colorFrame.h (3 * frameBps s.colorFrame) a := by
  rw [← rgbKind_pixelBytes]
  exact imageOf_touched

theorem grayImage_touched : a ∈ s.grayImage.touched ↔
    imageSpan s.cfg.cimgBase s.colorFrame.w s.colorFrame.h (frameBps s.colorFrame) a := by
  rw [← grayKind_pixelBytes]
  exact imageOf_touched

theorem alphaImage_touched : a ∈ s.alphaImage.touched ↔
    imageSpan s.cfg.aimgBase s.alphaFrame.w s.alphaFrame.h (frameBps s.alphaFrame) a := by
  rw [← grayKind_pixelBytes]
  exact imageOf_touched

theorem frameCimg_touched : a ∈ s.frameCimg.touched ↔
    imageSpan s.cfg.cimgBase s.colorFrame.w s.colorFrame.h (frameColorBytes s) a := by
  rw [← frameColorKind_pixelBytes]
  exact imageOf_touched

theorem aimg_touched {k : AlphaKind} : a ∈ (s.aimg k).touched ↔
    imageSpan s.cfg.aimgBase s.alphaFrame.w s.alphaFrame.h k.image.size.bytes a := by
  rw [← alphaKind_pixelBytes]
  exact imageOf_touched

end Bytes

/-! ### The bytes of UP -/

/-- Neighbouring spans of `b` bytes are one span. -/
theorem exists_span_iff {p b n a : Nat} (hb : 0 < b) :
    (∃ c < n, p + c * b ≤ a ∧ a < p + c * b + b) ↔ p ≤ a ∧ a < p + n * b := by
  constructor
  · rintro ⟨c, hc, hlo, hhi⟩
    have hle : (c + 1) * b ≤ n * b := Nat.mul_le_mul_right b hc
    rw [Nat.add_one_mul] at hle
    omega
  · rintro ⟨hlo, hhi⟩
    have hdiv := Nat.div_add_mod' (a - p) b
    have hmod := Nat.mod_lt (a - p) hb
    exact ⟨(a - p) / b, Nat.div_lt_of_lt_mul (by rw [Nat.mul_comm]; omega), by omega, by omega⟩

/-- The byte is one of the alpha sample of a pixel of OUT, or of its color samples where that alpha is not 0 (R130,
R135). -/
def upBytes (s : State) (z : SampleSize) (m : Memory) (a : Nat) : Prop :=
  ∃ k < s.colorFrame.w * s.colorFrame.h,
    let pixel := s.cfg.outBase.toNat + k * 4 * z.bytes
    let alpha := pixel + 3 * z.bytes
    (alpha ≤ a ∧ a < alpha + z.bytes) ∨
      (m.readSample s.params.endian z alpha ≠ 0 ∧ pixel ≤ a ∧ a < pixel + 3 * z.bytes)

/-- A pixel of an image of four channels begins after those before it (R47). -/
theorem Image.addr_rgba {i : Image} (h : i.ch = 4) (k c : Nat) :
    i.addr k c = i.base + k * 4 * i.size.bytes + c * i.size.bytes := by
  rw [Image.addr, h, Nat.add_mul, Nat.add_assoc]

theorem unpremulTouches_mem {e : Endian} {i : Image} {m : Memory} {k a : Nat} (h : i.ch = 4) :
    let pixel := i.base + k * 4 * i.size.bytes
    let alpha := pixel + 3 * i.size.bytes
    a ∈ unpremulTouches e i m k ↔ (alpha ≤ a ∧ a < alpha + i.size.bytes) ∨
      (m.readSample e i.size alpha ≠ 0 ∧ pixel ≤ a ∧ a < pixel + 3 * i.size.bytes) := by
  intro pixel alpha
  rw [unpremulTouches, List.mem_append, sampleBytes_mem, Image.sample, Image.addr_rgba h,
    ← exists_span_iff i.size.bytes_pos]
  refine or_congr_right ?_
  split
  · next h0 => simp [alpha, pixel, h0]
  · next h0 => simp [alpha, pixel, h0, sampleBytes_mem, Image.addr_rgba h]

/-! ### The bytes of each stage -/

/-- The stages touch, one by one, exactly these bytes, given the memory at their start (R153). -/
def Touch (ps : List Pass) (stages : List (Memory → Nat → Prop)) : Prop :=
  List.Forall₂ (fun (q : Pass) t => ∀ (m : Memory) (a : Nat), a ∈ q.touches m ↔ t m a) ps stages

theorem Touch.nil : Touch [] [] := List.Forall₂.nil

theorem Touch.cons {q : Pass} {ps : List Pass} {t : Memory → Nat → Prop} {stages : List (Memory → Nat → Prop)}
    (hq : ∀ m a, a ∈ q.touches m ↔ t m a) (h : Touch ps stages) : Touch (q :: ps) (t :: stages) :=
  List.Forall₂.cons hq h

theorem Touch.single {q : Pass} {t : Memory → Nat → Prop} (hq : ∀ m a, a ∈ q.touches m ↔ t m a) : Touch [q] [t] :=
  Touch.cons hq Touch.nil

theorem Touch.append {ps qs : List Pass} {ts us : List (Memory → Nat → Prop)} (hp : Touch ps ts) (hq : Touch qs us) :
    Touch (ps ++ qs) (ts ++ us) := List.rel_append hp hq

section Passes
variable {s : State} (m : Memory) (a : Nat)

theorem upsamplePass_touches {c : Chroma} (h : s.colorFrame.sampling = .chroma c) :
    a ∈ (upsamplePass s c).touches m ↔ planesRows s a ∨
      imageSpan s.cfg.outBase s.colorFrame.w s.colorFrame.h (3 * frameBps s.colorFrame) a := by
  rw [upsamplePass, List.mem_append, cuTouches_mem h, tri_touched]

theorem colorGrayPass_touches (mc : Nat) (mx : Matrix) : a ∈ (colorGrayPass s mc mx).touches m ↔
    planeRows s.cfg.cYBase s.cfg.cYStride s.colorFrame.w s.colorFrame.h (frameBps s.colorFrame) a ∨
      imageSpan s.cfg.cimgBase s.colorFrame.w s.colorFrame.h (frameBps s.colorFrame) a := by
  rw [colorGrayPass, grayPass, List.mem_append, planeYC_touched, grayImage_touched]

theorem alphaPass_touches (mc : Nat) (mx : Matrix) : a ∈ (alphaPass s mc mx).touches m ↔
    planeRows s.cfg.aYBase s.cfg.aYStride s.alphaFrame.w s.alphaFrame.h (frameBps s.alphaFrame) a ∨
      imageSpan s.cfg.aimgBase s.alphaFrame.w s.alphaFrame.h (frameBps s.alphaFrame) a := by
  rw [alphaPass, grayPass, List.mem_append, planeYA_touched, alphaImage_touched]

theorem copyPass_touches {src dst : Image} : a ∈ (copyPass src dst).touches m ↔ a ∈ src.touched ∨ a ∈ dst.touched :=
  List.mem_append

theorem blendPass_touches {e : Endian} {color alpha dst : Image} {row : Composition} :
    a ∈ (blendPass e color alpha dst row).touches m ↔ a ∈ color.touched ∨ a ∈ alpha.touched ∨ a ∈ dst.touched := by
  rw [blendPass, List.mem_append, List.mem_append, or_assoc]

theorem out_touched {k : ImageKind} : a ∈ (s.out k).touched ↔
    imageSpan s.cfg.outBase s.colorFrame.w s.colorFrame.h (k.channels * k.size.bytes) a := imageOf_touched

theorem unpremulPass_out_touches {k : ImageKind} (hk : k = .rgba8 ∨ k = .rgba16) :
    a ∈ (unpremulPass s.params.endian (s.out k)).touches m ↔ upBytes s k.size m a := by
  rw [unpremulPass, List.mem_flatMap]
  simp only [List.mem_range, unpremulTouches_mem (show (s.out k).ch = 4 from rgba_channels hk)]
  rfl

end Passes

/-- The two stages of CONVERT: the planes, then CIMG (R153). -/
theorem convertPasses_touch {s : State} {c : Chroma} (h : s.colorFrame.sampling = .chroma c) (mc : Nat)
    (mx : Matrix) : Touch (convertPasses s c mc mx) [fun _ => planesRows s,
      fun _ => imageSpan s.cfg.cimgBase s.colorFrame.w s.colorFrame.h (3 * frameBps s.colorFrame)] :=
  .cons (fun _ _ => cuTouches_mem h) (.single fun _ _ => rgbImage_touched)

/-- The bytes of FRAME's color stages: the gray one if Monochrome, else the two of CONVERT (R142). -/
def frameColorTouches (s : State) : List (Memory → Nat → Prop) :=
  if s.colorFrame.sampling = .mono then
    [fun _ a => planeRows s.cfg.cYBase s.cfg.cYStride s.colorFrame.w s.colorFrame.h (frameBps s.colorFrame) a ∨
      imageSpan s.cfg.cimgBase s.colorFrame.w s.colorFrame.h (frameBps s.colorFrame) a]
  else [fun _ => planesRows s,
    fun _ => imageSpan s.cfg.cimgBase s.colorFrame.w s.colorFrame.h (3 * frameBps s.colorFrame)]

theorem frameColorPasses_touch (s : State) (mc : Nat) (mx : Matrix) :
    Touch (frameColorPasses s mc mx) (frameColorTouches s) := by
  unfold frameColorPasses frameColorTouches
  split
  · next h =>
    rw [if_pos h]
    exact .single fun m a => colorGrayPass_touches m a mc mx
  · next c h =>
    rw [if_neg (by simp [h])]
    exact convertPasses_touch h mc mx

/-! ### Each command's stages -/

/-- The stages of a command, in their order (R142, R149, R153). -/
def stagesOf (s : State) (i : Instr) : List StageCode :=
  let colorStages := if s.colorFrame.sampling = .mono then [StageCode.cscGray] else [.cu, .cscColor]
  match i with
  | .nop => []
  | .upsample => [.cu]
  | .convert => [.cu, .cscColor]
  | .convertGray => [.cscGray]
  | .extractAlpha => [.cscGray]
  | .composite _ => [.ac]
  | .unpremultiply => [.up]
  | .frame a pm => (if a then [.cscGray] else []) ++ colorStages ++ [.ac] ++ (if a && pm then [.up] else [])

theorem frameColorPasses_stages (s : State) (mc : Nat) (mx : Matrix) : (frameColorPasses s mc mx).map (·.stage) =
    if s.colorFrame.sampling = .mono then [StageCode.cscGray] else [.cu, .cscColor] := by
  unfold frameColorPasses
  cases s.colorFrame.sampling <;> rfl

theorem planOf_stages {i : Instr} {s : State} {p : Plan} (h : planOf i s = .ok p) :
    p.passes.map (·.stage) = stagesOf s i := by
  cases i with
  | nop => cases h; rfl
  | upsample => obtain ⟨-, _, -, -, rfl⟩ := planUpsample_ok_iff.1 h; rfl
  | convert => obtain ⟨-, _, -, _, -, -, rfl⟩ := planConvert_ok_iff.1 h; rfl
  | convertGray => obtain ⟨-, _, -, -, rfl⟩ := planConvertGray_ok_iff.1 h; rfl
  | extractAlpha => obtain ⟨-, _, -, -, rfl⟩ := planExtractAlpha_ok_iff.1 h; rfl
  | composite a =>
    cases a with
    | false => obtain ⟨_, -, -, rfl⟩ := planCopy_ok_iff.1 h; rfl
    | true => obtain ⟨_, -, _, -, -, _, -, -, rfl⟩ := planBlend_ok_iff.1 h; rfl
  | unpremultiply => obtain ⟨_, -, -, rfl⟩ := planUnpremultiply_ok_iff.1 h; rfl
  | frame a pm =>
    cases a with
    | false =>
      obtain ⟨-, _, -, -, rfl⟩ := planFramePlain_ok_iff.1 h
      rw [framePlainPasses, List.map_append, frameColorPasses_stages]
      exact (List.append_nil _).symm
    | true =>
      obtain ⟨-, -, _, -, _, -, -, _, -, -, rfl⟩ := planFrameAlpha_ok_iff.1 h
      rw [frameAlphaPasses, List.map_append, List.map_append, List.map_append, frameColorPasses_stages]
      cases pm <;> rfl

section Commands
variable {s : State} {p : Plan}

theorem planFramePlain_touch (h : planFramePlain s = .ok p) : Touch p.passes (frameColorTouches s ++ [fun _ a =>
    imageSpan s.cfg.cimgBase s.colorFrame.w s.colorFrame.h (frameColorBytes s) a ∨ False ∨
      imageSpan s.cfg.outBase s.colorFrame.w s.colorFrame.h (frameColorBytes s) a]) := by
  obtain ⟨-, _, -, -, rfl⟩ := planFramePlain_ok_iff.1 h
  refine (frameColorPasses_touch s _ _).append (.single fun m a => ?_)
  rw [copyPass_touches, frameCimg_touched, out_touched, frameColorKind_pixelBytes, false_or]

theorem planFrameAlpha_touch {pm : Bool} (h : planFrameAlpha pm s = .ok p) : ∃ row,
    compositeRow (frameColorKind s.colorFrame) (grayKind s.alphaFrame.depth) = some row ∧ Touch p.passes
    ((fun _ a =>
        planeRows s.cfg.aYBase s.cfg.aYStride s.alphaFrame.w s.alphaFrame.h (frameBps s.alphaFrame) a ∨
          imageSpan s.cfg.aimgBase s.alphaFrame.w s.alphaFrame.h (frameBps s.alphaFrame) a) ::
      (frameColorTouches s ++ (fun _ a =>
        imageSpan s.cfg.cimgBase s.colorFrame.w s.colorFrame.h (frameColorBytes s) a ∨
          imageSpan s.cfg.aimgBase s.alphaFrame.w s.alphaFrame.h (frameBps s.alphaFrame) a ∨
          imageSpan s.cfg.outBase s.colorFrame.w s.colorFrame.h
            (row.result.channels * row.result.size.bytes) a) ::
        if pm then [upBytes s row.result.size] else [])) := by
  obtain ⟨-, -, _, -, _, -, -, row, hrow, -, rfl⟩ := planFrameAlpha_ok_iff.1 h
  refine ⟨row, hrow, ?_⟩
  simp only [frameAlphaPasses, List.append_assoc, List.singleton_append]
  refine .cons (fun m a => alphaPass_touches m a _ _) ((frameColorPasses_touch s _ _).append (.cons (fun m a => ?_) ?_))
  · rw [blendPass_touches, frameCimg_touched, alphaImage_touched, out_touched]
  · cases pm with
    | false => exact .nil
    | true => exact .single fun m a => unpremulPass_out_touches m a (compositeRow_rgba hrow).2

end Commands

/-- Settles O29: each command's plan lists its stages in order, and each stage touches its own planes and images. -/
theorem stageOrderOfCommands : Obligations.StageOrderOfCommands := by
  intro s i p h
  refine ⟨planOf_stages h, ?_⟩
  cases i with
  | nop => cases h; exact Touch.nil
  | upsample =>
    obtain ⟨-, c, hc, -, rfl⟩ := planUpsample_ok_iff.1 h
    exact Touch.single fun m a => upsamplePass_touches m a hc
  | convert =>
    obtain ⟨-, c, hc, _, -, -, rfl⟩ := planConvert_ok_iff.1 h
    exact convertPasses_touch hc _ _
  | convertGray =>
    obtain ⟨-, _, -, -, rfl⟩ := planConvertGray_ok_iff.1 h
    exact Touch.single fun m a => colorGrayPass_touches m a _ _
  | extractAlpha =>
    obtain ⟨-, _, -, -, rfl⟩ := planExtractAlpha_ok_iff.1 h
    exact Touch.single fun m a => alphaPass_touches m a _ _
  | composite a =>
    cases a with
    | false =>
      obtain ⟨ck, hck, -, rfl⟩ := planCopy_ok_iff.1 h
      exact ⟨ck, hck, Touch.single fun m a =>
        (copyPass_touches m a).trans (or_congr imageOf_touched imageOf_touched)⟩
    | true =>
      obtain ⟨ck, hck, ak, hak, -, row, hrow, -, rfl⟩ := planBlend_ok_iff.1 h
      exact ⟨ck, ak, row, hck, hak, hrow, Touch.single fun m a =>
        (blendPass_touches m a).trans (or_congr imageOf_touched (or_congr aimg_touched imageOf_touched))⟩
  | unpremultiply =>
    obtain ⟨k, ⟨hk, hkind⟩, -, rfl⟩ := planUnpremultiply_ok_iff.1 h
    exact ⟨k, hk, hkind, Touch.single fun m a => unpremulPass_out_touches m a hk⟩
  | frame a pm =>
    cases a with
    | false => exact planFramePlain_touch h
    | true => exact planFrameAlpha_touch h

end Sys2Proof.Machine
end

section
/-! PROOFS. The geometry check against the conditions of R49, R50, R52 and R53 (R151). -/

namespace Sys2Proof.Machine

theorem Buffer.misaligned_iff {b : Buffer} : b.misaligned = true ↔
    b.size = .two ∧ (b.base % 2 = 1 ∨ ∃ st, b.stride = some st ∧ st % 2 = 1) := by
  unfold Buffer.misaligned
  cases b.stride <;> simp

theorem Buffer.shortStride_iff {b : Buffer} :
    b.shortStride = true ↔ ∃ st, b.stride = some st ∧ st < b.rowBytes := by
  unfold Buffer.shortStride
  cases b.stride <;> simp

theorem Buffer.badGeometry_iff {limit : Nat} {b : Buffer} : b.badGeometry limit = true ↔
    b.nonempty = true ∧ (b.misaligned = true ∨ b.shortStride = true ∨ limit < b.stop) := by
  simp [Buffer.badGeometry, or_assoc]

/-- The region the check names is bad and every region before it is not (R151). -/
theorem checkGeometry_error_first {limit : Nat} {bufs : List Buffer} {e : Err}
    (h : checkGeometry limit bufs = .error e) : ∃ pre b post, bufs = pre ++ b :: post ∧
      b.badGeometry limit = true ∧ (∀ c ∈ pre, c.badGeometry limit = false) ∧
      e = ⟨.invalidGeometry, .validation, BitVec.ofNat 32 b.offset⟩ := by
  unfold checkGeometry at h
  split at h
  · next b hfind =>
    cases h
    obtain ⟨pre, post, hsplit, hbad, hpre⟩ := find_split hfind
    exact ⟨pre, b, post, hsplit, hbad, hpre, rfl⟩
  · cases h

/-- Settles O23: the check searches the list for its first bad region, and badness is nonemptiness with one of the
three conditions. -/
theorem geometryNamesFirstBadRegion : Obligations.GeometryNamesFirstBadRegion := by
  refine fun limit bufs => ⟨checkGeometry_ok_iff, fun e => checkGeometry_error_first, fun b => ?_, fun b => rfl⟩
  rw [Buffer.badGeometry_iff, Buffer.nonempty_iff, Buffer.misaligned_iff, Buffer.shortStride_iff]

end Sys2Proof.Machine
end

section
/-! PROOFS. What an error leaves: the precise errors (R147, R152) and MEM_FAULT (R153), with CONVERT's stages. -/

namespace Sys2Proof.Machine

/-! ### The two ways to a new error -/

/-- A command that newly ends with ERR set has failed a check before any access, or reached a stage with refused bytes
(R152, R153). -/
theorem exec_new_error_cases {i : Instr} {s t : State} (h : exec i s = .next t) (hs : s.status.err = false)
    (ht : t.status.err = true) :
    (∃ e, planOf i s = .error e ∧ t = s.raise e) ∨
      ∃ p k bad, planOf i s = .ok p ∧ runPasses s.params p.passes s.mem = .error (k, bad) ∧
        t = s.memFault p k bad := by
  by_cases hi : i = .nop
  · subst hi
    cases h
    cases hs.symm.trans ht
  · rw [exec_eq_runPlan hi] at h
    obtain ⟨e, he, rfl⟩ | ⟨p, hp, -, ⟨k, bad, hrun, rfl⟩ | ⟨m, -, rfl⟩⟩ := runPlan_next h
    · exact .inl ⟨e, he, rfl⟩
    · exact .inr ⟨p, k, bad, hp, hrun, rfl⟩
    · rw [State.complete_status, State.commit_status] at ht
      cases hs.symm.trans ht

/-! ### Precise errors -/

/-- The error that STATUS and ERRINFO name (R19, R31). -/
def State.namedErr (t : State) : Err := ⟨t.status.errCode, t.status.errStage, t.errInfo⟩

/-- Raising an error leaves its code, stage and info in the error fields (R147). -/
@[simp] theorem State.namedErr_raise (s : State) (e : Err) : (s.raise e).namedErr = e := rfl

/-- The new state is the old one after the raise of the error it names, unless that error is MEM_FAULT (R152). -/
def RaisesPrecisely (s t : State) : Prop :=
  s.status.err = false → t.status.err = true → t.status.errCode ≠ .memFault → t = s.raise t.namedErr

theorem raise_raisesPrecisely (s : State) (e : Err) : RaisesPrecisely s (s.raise e) := by
  intro _ _ _
  rw [State.namedErr_raise]

theorem exec_raisesPrecisely {i : Instr} {s t : State} (h : exec i s = .next t) : RaisesPrecisely s t := by
  intro hs ht hcode
  obtain ⟨e, -, rfl⟩ | ⟨p, k, bad, -, -, rfl⟩ := exec_new_error_cases h hs ht
  · exact raise_raisesPrecisely s e hs ht hcode
  · exact absurd rfl hcode

/-- The block's turn raises ILLEGAL_COMMAND, runs a command, or is idle (R139, R168). -/
theorem blockTurn_raisesPrecisely {s t : State} (h : blockTurn s = .next t) : RaisesPrecisely s t := by
  unfold blockTurn at h
  split at h
  · cases h
    intro hs ht
    cases hs.symm.trans ht
  · split at h
    · cases h
      exact raise_raisesPrecisely s _
    · exact exec_raisesPrecisely h

/-- Settles O26: the error fields of the new state name the error that was raised, and acceptance leaves ERR clear. -/
theorem errorsArePrecise : Obligations.ErrorsArePrecise :=
  ⟨fun _ _ => rfl, fun _ _ _ => exec_raisesPrecisely, fun _ _ => blockTurn_raisesPrecisely,
    fun _ _ _ h => blockTurn_raisesPrecisely h rfl⟩

/-! ### MEM_FAULT -/

/-- Every error but MEM_FAULT is one of the checks, and no check raises MEM_FAULT (R150, R153). -/
theorem exec_memFault_of_errCode {i : Instr} {s t : State} (h : exec i s = .next t) (hs : s.status.err = false)
    (ht : t.status.err = true) (hcode : t.status.errCode = .memFault) :
    ∃ p k bad, planOf i s = .ok p ∧ runPasses s.params p.passes s.mem = .error (k, bad) ∧
      t = s.memFault p k bad := by
  obtain ⟨e, he, rfl⟩ | hfault := exec_new_error_cases h hs ht
  · obtain ⟨hne, -⟩ := planOf_error he
    exact absurd hcode hne
  · exact hfault

/-- Settles O27: the stages ended at the first with refused bytes, of which ERRINFO names one, and the written regions
were drawn anew. -/
theorem memFaultEffects : Obligations.MemFaultEffects := by
  intro i s t h hs ht hcode
  obtain ⟨p, k, bad, hp, hrun, rfl⟩ := exec_memFault_of_errCode h hs ht hcode
  obtain ⟨pre, q, post, m, hsplit, hpre, rfl, hne, rfl⟩ := runPasses_error_split hrun
  obtain ⟨htouched, hrefused⟩ := Pass.refusedBytes_mem.1 (pickRefused_mem s.draws hne)
  have hq : q ∈ p.passes := hsplit ▸ List.mem_append_right pre List.mem_cons_self
  exact ⟨p, hp, fun _ => State.scramble_read_written s p, fun _ => State.scramble_read_other s p, rfl,
    pre, q, post, m, hsplit, hpre, rfl, _, htouched, planOf_touchesInside hp q hq m _ htouched, hrefused, rfl⟩

/-- Settles O30: CU is CONVERT's first stage, and where memory admits its bytes it runs and leaves memory as it was,
so that the refused byte is the first or the second stage's. -/
theorem convertMemFaultStage : Obligations.ConvertMemFaultStage := by
  intro s c mx hlo hhi hc hmx hready
  have hplan := planConvert_ready hlo hhi hc hmx hready
  have hfaults (pre post : List Pass) (q : Pass) (m : Memory) :=
    refusedByteFaults .convert s _ pre post q m Instr.noConfusion hplan hready.mapsDevice
  refine ⟨fun hplane => ?_, fun hplanes himage => ?_⟩
  · obtain ⟨t, h, -, herr⟩ := hfaults [] _ _ s.mem rfl rfl hplane
    exact ⟨t, h, herr⟩
  · obtain ⟨t, h, -, herr⟩ := hfaults [_] [] _ s.mem rfl (runPasses_one hplanes) himage
    exact ⟨t, h, herr⟩

end Sys2Proof.Machine
end

section
/-! PROOFS. What a reset leaves of the registers and of memory (R165, R166, R167). -/

namespace Sys2Proof.Machine

/-! ### Registers -/

/-- Both resets give the registers the values of the state after reset, which a further reset leaves as it is. -/
theorem State.doReset_reset : State.reset.doReset = State.reset := rfl

/-- Every register but the three that describe the block has a fixed reset value (R167). -/
theorem readReg_doReset {r : Reg} (hid : r ≠ .id) (hcaps : r ≠ .caps) (hmc : r ≠ .mcCaps) (s : State) :
    readReg r s.doReset = if r = .aimgKind then 4 else 0 := by
  rw [doReset_eq]
  cases r with
  | id => exact absurd rfl hid
  | caps => exact absurd rfl hcaps
  | mcCaps => exact absurd rfl hmc
  | _ => rfl

/-- CAPS shows parameters only, which a reset keeps (R32). -/
theorem readReg_caps_doReset (s : State) : readReg .caps s.doReset = readReg .caps s :=
  congrArg capsWord s.doReset_params

/-- MC_CAPS shows parameters only, which a reset keeps (R33). -/
theorem readReg_mcCaps_doReset (s : State) : readReg .mcCaps s.doReset = readReg .mcCaps s :=
  congrArg mcCapsWord s.doReset_params

/-- Settles O15: the state after reset is its own reset, so one case split over the registers serves both. -/
theorem resetRegisterValues : Obligations.ResetRegisterValues := by
  refine ⟨fun r hid hcaps hmc => ⟨?_, readReg_doReset hid hcaps hmc⟩,
    fun s => ⟨rfl, readReg_caps_doReset s, readReg_mcCaps_doReset s, rfl, rfl, irq_no_flag rfl rfl rfl⟩,
    rfl, rfl, rfl, rfl, irq_no_flag rfl rfl rfl⟩
  rw [← State.doReset_reset]
  exact readReg_doReset hid hcaps hmc _

/-- Settles O57: memory lists nothing, nothing is in flight, no flag is set, and the reset values are stored bits. -/
theorem invariantHoldsAtReset : Obligations.InvariantHoldsAtReset where
  memCanonical := rfl
  memInside := rfl
  busyInFlight := rfl
  inFlightIsCmd _ := nofun
  noStage := rfl
  busyClean := nofun
  oneOutcome := nofun
  errClear _ := ⟨rfl, rfl, rfl⟩
  errSet := nofun
  taintedBusy := nofun
  stored := reset_stored Params.default
  paramsOk := by decide

/-! ### Memory -/

/-- Settles O16: the write performs the reset, whose abort is all that reaches memory. -/
theorem softResetAborts : Obligations.SoftResetAborts := by
  refine fun s v h31 => ⟨s.doReset, ?_, doReset_eq s, abort_mem s⟩
  rw [← writeCtrl_reset h31 s]
  exact regWrite_eq s .ctrl v

/-- Settles O17: the turn performs the reset, and its abort leaves the bytes outside the written regions alone. -/
theorem hardResetRestoresRegisters : Obligations.HardResetRestoresRegisters := by
  intro s
  obtain ⟨hidle, -, hother⟩ := abort_mem s
  exact ⟨s.doReset, rfl, doReset_eq s, hidle, hother⟩

end Sys2Proof.Machine
end

section
/-! PROOFS. How a command that the host has disturbed ends (R171). -/

namespace Sys2Proof.Machine

/-- A command whose checks pass and whose regions map no device ends with MEM_FAULT or completes (R141, R153). -/
theorem exec_faults_or_completes {i : Instr} {s : State} {p : Plan} (hi : i ≠ .nop) (hp : planOf i s = .ok p)
    (hd : p.mapsDevice s.params = false) : (∃ k bad, exec i s = .next (s.memFault p k bad)) ∨
      ∃ m, exec i s = .next (s.commit p m).complete := by
  cases hrun : runPasses s.params p.passes s.mem with
  | error e => exact .inl ⟨e.1, e.2, exec_memFault hi hp hd hrun⟩
  | ok m =>
    refine .inr ⟨m, ?_⟩
    rw [exec_eq_runPlan hi, hp, runPlan_ok hd hrun]

/-- A disturbed command completes over the bytes drawn for its written regions, whatever its stages stored (R171). -/
theorem State.complete_commit_tainted {s : State} (h : s.tainted = true) (p : Plan) (m : Memory) :
    (s.commit p m).complete =
      { s.completedWith (s.cfg.withKinds p) (s.scramble p).mem with draws := s.draws + 1 } := by
  rw [State.commit, if_pos h]
  rfl

/-- Settles O21: a store into a region in use is recorded, and both ends of a disturbed command leave the memory in
which its written regions are drawn anew. -/
theorem disturbedCommandWritesAnyBytes : Obligations.DisturbedCommandWritesAnyBytes := by
  refine ⟨fun s t a v h huse => ?_, fun s i p htaint hi hp hd => ?_⟩
  · obtain ⟨-, rfl⟩ := hostMemWrite_next h
    exact Bool.or_eq_true_iff.2 (.inr huse)
  · have hwritten (a : Nat) := State.scramble_read_written s p (a := a)
    have hother (a : Nat) := State.scramble_read_other s p (a := a)
    obtain ⟨k, bad, h⟩ | ⟨m, h⟩ := exec_faults_or_completes hi hp hd
    · exact ⟨_, h, rfl, rfl, rfl, hwritten, hother, .inr rfl⟩
    · rw [State.complete_commit_tainted htaint] at h
      exact ⟨_, h, rfl, rfl, rfl, hwritten, hother, .inl rfl⟩

end Sys2Proof.Machine
end
